-- ==== Sys2Proof/Word.lean ====
section
/-!
DEFINITION. The word types of the machine (spec/00_scope.md R6, R8; 10_state.md R20, R23, R24, R26).
-/

namespace Sys2Proof

/-- A byte of memory or of an instruction (R40). -/
abbrev Byte := BitVec 8

/-- A doubleword: one lane, a single-precision value or a signed integer (R100, R104). -/
abbrev Dword := BitVec 32

/-- A 64-bit address or general register (R26, R40). -/
abbrev Quad := BitVec 64

/-- A vector register; `MAX_VL` bits exist and the rest are 0 (R20). -/
abbrev VecReg := BitVec 512

end Sys2Proof
end

