-- ==== Sys2Proof/Config.lean ====
section
/-!
DEFINITION. The parameters of spec/00_scope.md R5, and the free value of what the spec leaves open.
The parameters are plain data (`Config` is one field of the state), so every statement holds for every configuration.
-/

namespace Sys2Proof

/-- The operating mode, `MODE` of R5. `real` and `virtual8086` are outside the spec's scope (R4, D1)
and are kept so that reset (R33) and row 14 of R121 can be said. -/
inductive Mode where
  | long64
  | prot32
  | real
  | virtual8086
  deriving DecidableEq, Repr

/-- A vector length `VL` (R7, R70), and the values of `MAX_VL` (R5). -/
inductive VecLen where
  | v128
  | v256
  | v512
  deriving DecidableEq, Repr

/-- How a form is encoded: it decides the exception rows and the upper bits (R21, R121). -/
inductive EncClass where
  | legacy
  | vex
  | evex
  deriving DecidableEq, Repr

/-- The parameters of R5 that no instruction and no launch premise changes. -/
structure Config where
  /-- `MAX_VL`, the width of a full vector register. -/
  maxVL : VecLen
  hasSSE2 : Bool
  hasAVX : Bool
  hasAVX512F : Bool
  hasAVX512VL : Bool
  /-- `SAE_IGNORES_LL` (R72, D7). -/
  saeIgnoresLL : Bool
  /-- 57-bit linear addresses instead of 48-bit ones (R48). -/
  la57 : Bool
  deriving DecidableEq, Repr

/-- The configuration of `State.reset` and of `decodeTableWord`. DESIGN CHOICE, unsafe for statements
about reset only (entry 1): the spec gives no value; every extension is present and
`SAE_IGNORES_LL` is true, as D7 recommends. -/
def Config.standard : Config where
  maxVL := .v512
  hasSSE2 := true
  hasAVX := true
  hasAVX512F := true
  hasAVX512VL := true
  saeIgnoresLL := true
  la57 := false

/-- Free value (R127, D22; entry 13): does a misaligned operand of this class and width, at this
linear address, raise `#AC` while alignment checking is armed? The spec leaves it open. -/
opaque Config.alignmentCheckFaults : EncClass → Nat → Quad → Bool

end Sys2Proof
end

