-- ==== Sys2Proof/Syntax.lean ====
section
/-!
DEFINITION. The instruction as syntax: one constructor per row of spec/opcode_table.json (R84).
Every bit of an encoding that the row leaves free has its place here, so that decoding drops nothing;
extension bits hold their TRUE values (stored complemented under VEX and EVEX, R64, R65, R68).
-/

namespace Sys2Proof

/-- A segment (R29). -/
inductive Seg where
  | es
  | cs
  | ss
  | ds
  | fs
  | gs
  deriving DecidableEq, Repr

/-- A legacy prefix byte (R62): a segment override, `67`, `66`, `F2`, `F3`, `F0`. -/
inductive Prefix where
  | segment (r : Seg)
  | addressSize
  | operandSize
  | repne
  | rep
  | lock
  deriving DecidableEq, Repr

/-- The REX byte `0100 W R X B` (R63). -/
structure Rex where
  w : Bool
  r : Bool
  x : Bool
  b : Bool
  deriving DecidableEq, Repr

/-- The free bits of a three-byte VEX prefix (R65); `W` is ignored (R66). -/
structure Vex3 where
  r : Bool
  x : Bool
  b : Bool
  w : Bool
  deriving DecidableEq, Repr

/-- The extension bits of an EVEX prefix (R68); `r'` is `R'`, the destination's fifth bit. -/
structure EvexExt where
  r : Bool
  x : Bool
  b : Bool
  r' : Bool
  deriving DecidableEq, Repr

/-- The displacement after ModRM or SIB (R75, R77): none, `disp8` or `disp32`. -/
inductive Disp where
  | absent
  | disp8 (d : BitVec 8)
  | disp32 (d : BitVec 32)
  deriving DecidableEq, Repr

/-- A memory operand as ModRM and SIB write it (R75, R76), before the extension bits are applied. -/
inductive Mem where
  /-- `r/m` names the base: `[r]`, `[r + disp8]`, `[r + disp32]`. -/
  | base (rm : BitVec 3) (d : Disp)
  /-- `r/m = 100b`: a SIB byte with a base register. -/
  | sib (ss : BitVec 2) (index : BitVec 3) (base : BitVec 3) (d : Disp)
  /-- `r/m = 100b`, `mod = 00b`, `SIB.base = 101b`: no base register, a `disp32`. -/
  | sibNoBase (ss : BitVec 2) (index : BitVec 3) (d : BitVec 32)
  /-- `mod = 00b`, `r/m = 101b`: RIP-relative in 64-bit mode, absolute outside it. -/
  | disp32 (d : BitVec 32)
  deriving DecidableEq, Repr

/-- The source operand of a legacy or VEX form (R74): `mod = 11b` or memory. -/
inductive RM where
  | reg (rm : BitVec 3)
  | mem (m : Mem)
  deriving DecidableEq, Repr

/-- The source operand of an EVEX form without `{sae}` (R71): register, memory, or `m32bcst`. -/
inductive EvexSrc where
  | reg (rm : BitVec 3)
  | mem (m : Mem)
  | bcst (m : Mem)
  deriving DecidableEq, Repr

/-- The write mask of an EVEX form (R73): no writemask, or `K[n]` with merging or zeroing. -/
inductive Mask where
  | unmasked
  | merging (n : BitVec 3)
  | zeroing (n : BitVec 3)
  deriving DecidableEq, Repr

/-- The ten rows of the opcode table (R84), in its order. `pre` holds the legacy prefixes in the order
of their bytes, the mandatory `F3` of a legacy form among them; `reg` is ModRM.reg. -/
inductive Instr where
  /-- Row 1: `F3 0F 5B /r` (R111). -/
  | legacy (pre : List Prefix) (reg : BitVec 3) (src : RM)
  /-- Row 2: `F3 REX 0F 5B /r` (R111). -/
  | legacyRex (pre : List Prefix) (rex : Rex) (reg : BitVec 3) (src : RM)
  /-- Row 3: `VEX.128.F3.0F.WIG 5B /r`, two-byte prefix (R112). -/
  | vex128C5 (pre : List Prefix) (r : Bool) (reg : BitVec 3) (src : RM)
  /-- Row 4: `VEX.128.F3.0F.WIG 5B /r`, three-byte prefix (R112). -/
  | vex128C4 (pre : List Prefix) (vex : Vex3) (reg : BitVec 3) (src : RM)
  /-- Row 5: `VEX.256.F3.0F.WIG 5B /r`, two-byte prefix (R113). -/
  | vex256C5 (pre : List Prefix) (r : Bool) (reg : BitVec 3) (src : RM)
  /-- Row 6: `VEX.256.F3.0F.WIG 5B /r`, three-byte prefix (R113). -/
  | vex256C4 (pre : List Prefix) (vex : Vex3) (reg : BitVec 3) (src : RM)
  /-- Row 7: `EVEX.128.F3.0F.W0 5B /r` (R115). -/
  | evex128 (pre : List Prefix) (ext : EvexExt) (mask : Mask) (reg : BitVec 3) (src : EvexSrc)
  /-- Row 8: `EVEX.256.F3.0F.W0 5B /r` (R116). -/
  | evex256 (pre : List Prefix) (ext : EvexExt) (mask : Mask) (reg : BitVec 3) (src : EvexSrc)
  /-- Row 9: `EVEX.512.F3.0F.W0 5B /r` (R117). -/
  | evex512 (pre : List Prefix) (ext : EvexExt) (mask : Mask) (reg : BitVec 3) (src : EvexSrc)
  /-- Row 10: `EVEX.512.F3.0F.W0 5B /r` with `{sae}` (R117); `ll` is `L'L` as written (R72). -/
  | evex512Sae (pre : List Prefix) (ext : EvexExt) (mask : Mask) (ll : BitVec 2)
      (reg : BitVec 3) (rm : BitVec 3)
  deriving DecidableEq, Repr

end Sys2Proof
end

