-- ==== Sys2Proof/WellFormed.lean ====
section
/-!
DEFINITION. Which terms of the syntax are instructions of the machine (R62 to R67, R72 to R76, D18, D19).
All checks are Booleans of the configuration, the mode and the term.
-/

namespace Sys2Proof

/-- Is this byte a segment override? -/
def Prefix.isSegment : Prefix → Bool
  | .segment _ => true
  | _ => false

/-- At most one segment override, one `67` and one `F3` (D18). -/
def noRepeat (pre : List Prefix) : Bool :=
  pre.countP Prefix.isSegment ≤ 1 && pre.count .addressSize ≤ 1 && pre.count .rep ≤ 1

/-- `67` is admitted in 64-bit mode only: elsewhere it selects 16-bit addressing (R80, D1). -/
def addressSizeOk (m : Mode) (pre : List Prefix) : Bool :=
  m == .long64 || !pre.contains .addressSize

/-- The prefixes of a legacy form: the mandatory `F3`, at most one segment override, at most one `67`,
nothing else (R62, D18). -/
def legacyPrefixesOk (m : Mode) (pre : List Prefix) : Bool :=
  pre.contains .rep && noRepeat pre && addressSizeOk m pre &&
    !pre.contains .operandSize && !pre.contains .repne && !pre.contains .lock

/-- The prefixes before a VEX or EVEX prefix: at most one segment override, at most one `67` (R60, R66, R69). -/
def vexPrefixesOk (m : Mode) (pre : List Prefix) : Bool :=
  noRepeat pre && addressSizeOk m pre && !pre.contains .rep &&
    !pre.contains .operandSize && !pre.contains .repne && !pre.contains .lock

/-- ModRM and SIB bytes give each memory operand one reading (R75, R76): `r/m = 100b` is the SIB form,
`mod = 00b` with `101b` is the form without a base register. -/
def Mem.wf : Mem → Bool
  | .base rm d => rm != 4#3 && !(rm == 5#3 && d == .absent)
  | .sib _ _ b d => !(b == 5#3 && d == .absent)
  | .sibNoBase _ _ _ => true
  | .disp32 _ => true

/-- A source operand is well formed when its memory operand is. -/
def RM.wf : RM → Bool
  | .reg _ => true
  | .mem m => m.wf

/-- A source operand is well formed when its memory operand is. -/
def EvexSrc.wf : EvexSrc → Bool
  | .reg _ => true
  | .mem m => m.wf
  | .bcst m => m.wf

/-- `K[0]` cannot be a write mask (R23, R73). -/
def Mask.wf : Mask → Bool
  | .unmasked => true
  | .merging n => n != 0#3
  | .zeroing n => n != 0#3

/-- The modes of R5, those the spec gives an encoding for (R4, D1). -/
def Mode.inScope (m : Mode) : Bool := m == .long64 || m == .prot32

/-- Outside 64-bit mode every extension bit is 0 (R67, D19). -/
def EvexExt.wf (m : Mode) (e : EvexExt) : Bool :=
  m == .long64 || (!e.r && !e.x && !e.b && !e.r')

/-- Outside 64-bit mode every extension bit is 0 (R67, D19). -/
def Vex3.wf (m : Mode) (v : Vex3) : Bool :=
  m == .long64 || (!v.r && !v.x && !v.b)

/-- The checks of a VEX form. -/
def vexWf (m : Mode) (pre : List Prefix) (src : RM) : Bool :=
  m.inScope && vexPrefixesOk m pre && src.wf

/-- The checks shared by the EVEX forms. -/
def evexWf (m : Mode) (pre : List Prefix) (ext : EvexExt) (mask : Mask) : Bool :=
  m.inScope && vexPrefixesOk m pre && ext.wf m && mask.wf

/-- The instruction can be written in this mode on this configuration. Which forms are PRESENT on the
configuration (R118) is not a matter of form: an absent form raises `#UD` when executed. -/
def Instr.wf (c : Config) (m : Mode) : Instr → Bool
  | .legacy pre _ src => m.inScope && legacyPrefixesOk m pre && src.wf
  | .legacyRex pre _ _ src => m == .long64 && legacyPrefixesOk m pre && src.wf
  | .vex128C5 pre r _ src => vexWf m pre src && (m == .long64 || !r)
  | .vex128C4 pre vex _ src => vexWf m pre src && vex.wf m
  | .vex256C5 pre r _ src => vexWf m pre src && (m == .long64 || !r)
  | .vex256C4 pre vex _ src => vexWf m pre src && vex.wf m
  | .evex128 pre ext mask _ src => evexWf m pre ext mask && src.wf
  | .evex256 pre ext mask _ src => evexWf m pre ext mask && src.wf
  | .evex512 pre ext mask _ src => evexWf m pre ext mask && src.wf
  | .evex512Sae pre ext mask ll _ _ => evexWf m pre ext mask && (ll == 2#2 || c.saeIgnoresLL)

end Sys2Proof
end

