-- ==== Sys2Proof/Decode.lean ====
section
/-!
DEFINITION. The decoder, total on every byte sequence (R60 to R84), the encoder, and the length (R81).
A sequence is an instruction, an encoding that raises `#UD`, refused by name, or too short to tell.
-/

namespace Sys2Proof

/-- The decode-time invalid-opcode conditions (R82, R121), each by its row. All raise the same `#UD`. -/
inductive UdReason where
  /-- Row 1: `VEX.vvvv` or `EVEX.vvvv` is not `1111b` (the source's own condition; R66, R69). -/
  | vvvv
  /-- Row 3: a `LOCK` prefix precedes the instruction (R62). -/
  | lock
  /-- Row 9: `66`, `F2`, `F3` or REX precedes the VEX or EVEX prefix (R66, R69). -/
  | prefixBeforeVex
  /-- Row 10: `EVEX.V̄' = 0` (R69). -/
  | vPrime
  /-- Row 10: `P0[3:2] != 00b` or `P1[2] = 0` (R69). -/
  | reservedBits
  /-- Row 11: `z = 1` with `aaa = 000b` (R73). -/
  | zeroingUnmasked
  /-- Row 12: `L'L = 11b` without `{sae}` (R70). -/
  | vectorLength
  /-- A reserved opcode map: `mmmmm` not 1, 2 or 3, `mm = 00b` (R65, R68; entry 18). -/
  | reservedMap
  /-- Row 14: a VEX or EVEX prefix in real-address or virtual-8086 mode (R135). -/
  | realMode
  deriving DecidableEq, Repr

/-- Why the decoder gives a byte sequence no meaning (R82: its own verdict, it says nothing of the chip).
All are SAFE: the model stops where the processor may go on. -/
inductive Reject where
  /-- Another instruction: no row of the opcode table matches (R82, R83; scope, R4). -/
  | otherInstruction
  /-- `66` or `F2` together with the mandatory `F3` (R62, D18). -/
  | conflictingPrefix
  /-- A repeated prefix, or two different segment overrides (R62, D18). -/
  | repeatedPrefix
  /-- A REX byte that another prefix follows (R62, D18), whatever stands before and after (entry 17). -/
  | misplacedRex
  /-- `67` outside 64-bit mode: 16-bit addressing (R80, D1). -/
  | addressing16
  /-- An extension bit that is not 0 outside 64-bit mode (R67, D19). -/
  | extensionBits
  /-- `b = 1`, `mod = 11b`, `L'L != 10b` while `SAE_IGNORES_LL` is false (R72, D7). -/
  | saeLength
  /-- Real-address or virtual-8086 mode (R4, D1). -/
  | modeOutOfScope
  deriving DecidableEq, Repr

/-- What the decoder answers: an instruction and the bytes after it; the `#UD` encoding of R82;
a refusal by name; or that the bytes end before the instruction does. -/
inductive Decoded where
  | instr (i : Instr) (rest : List Byte)
  | invalid (r : UdReason)
  | refused (r : Reject)
  | more
  deriving DecidableEq, Repr

/-! ### Bit fields -/

/-- Bit `n` of a byte. -/
def bit (b : Byte) (n : Nat) : Bool := b.getLsbD n

/-- A bit as a one-bit field. -/
def fld (b : Bool) : BitVec 1 := BitVec.ofBool b

/-! ### Prefix bytes (R62) -/

/-- The legacy prefix a byte is, if it is one. -/
def Prefix.ofByte (b : Byte) : Option Prefix :=
  if b = 0x26#8 then some (.segment .es)
  else if b = 0x2E#8 then some (.segment .cs)
  else if b = 0x36#8 then some (.segment .ss)
  else if b = 0x3E#8 then some (.segment .ds)
  else if b = 0x64#8 then some (.segment .fs)
  else if b = 0x65#8 then some (.segment .gs)
  else if b = 0x67#8 then some .addressSize
  else if b = 0x66#8 then some .operandSize
  else if b = 0xF2#8 then some .repne
  else if b = 0xF3#8 then some .rep
  else if b = 0xF0#8 then some .lock
  else none

/-- The byte of a legacy prefix. -/
def Prefix.byte : Prefix → Byte
  | .segment .es => 0x26#8
  | .segment .cs => 0x2E#8
  | .segment .ss => 0x36#8
  | .segment .ds => 0x3E#8
  | .segment .fs => 0x64#8
  | .segment .gs => 0x65#8
  | .addressSize => 0x67#8
  | .operandSize => 0x66#8
  | .repne => 0xF2#8
  | .rep => 0xF3#8
  | .lock => 0xF0#8

/-- The legacy prefixes at the head of the bytes, in order, and the bytes after them. -/
def scanPrefixes : List Byte → List Prefix × List Byte
  | [] => ([], [])
  | b :: bs =>
    match Prefix.ofByte b with
    | none => ([], b :: bs)
    | some p => (p :: (scanPrefixes bs).1, (scanPrefixes bs).2)

/-! ### ModRM, SIB and displacement (R74 to R77). `none`: the bytes end first. -/

/-- A `disp32`, little-endian (R77). -/
def takeDisp32 : List Byte → Option (BitVec 32 × List Byte)
  | b0 :: b1 :: b2 :: b3 :: rest => some (b3 ++ b2 ++ b1 ++ b0, rest)
  | _ => none

/-- The displacement that `mod` asks for (R75). -/
def takeDisp (mod : BitVec 2) (bs : List Byte) : Option (Disp × List Byte) :=
  if mod = 1#2 then
    match bs with
    | b :: rest => some (.disp8 b, rest)
    | [] => none
  else if mod = 2#2 then
    match takeDisp32 bs with
    | some (d, rest) => some (.disp32 d, rest)
    | none => none
  else some (.absent, bs)

/-- The SIB byte and what follows it (R76). -/
def takeSib (mod : BitVec 2) : List Byte → Option (Mem × List Byte)
  | [] => none
  | s :: bs =>
    if mod = 0#2 ∧ s.extractLsb' 0 3 = 5#3 then
      match takeDisp32 bs with
      | some (d, rest) => some (.sibNoBase (s.extractLsb' 6 2) (s.extractLsb' 3 3) d, rest)
      | none => none
    else
      match takeDisp mod bs with
      | some (d, rest) =>
        some (.sib (s.extractLsb' 6 2) (s.extractLsb' 3 3) (s.extractLsb' 0 3) d, rest)
      | none => none

/-- The memory operand of a ModRM byte with this `mod` and `r/m` (R75). -/
def takeMem (mod : BitVec 2) (rm : BitVec 3) (bs : List Byte) : Option (Mem × List Byte) :=
  if rm = 4#3 then takeSib mod bs
  else if mod = 0#2 ∧ rm = 5#3 then
    match takeDisp32 bs with
    | some (d, rest) => some (.disp32 d, rest)
    | none => none
  else
    match takeDisp mod bs with
    | some (d, rest) => some (.base rm d, rest)
    | none => none

/-- The ModRM byte and all that belongs to it: `reg`, the source operand, the bytes after (R74). -/
def takeModRM : List Byte → Option (BitVec 3 × RM × List Byte)
  | [] => none
  | m :: bs =>
    if m.extractLsb' 6 2 = 3#2 then
      some (m.extractLsb' 3 3, .reg (m.extractLsb' 0 3), bs)
    else
      match takeMem (m.extractLsb' 6 2) (m.extractLsb' 0 3) bs with
      | some (mem, rest) => some (m.extractLsb' 3 3, .mem mem, rest)
      | none => none

/-! ### The legacy form (R61 to R63) -/

/-- After `0F`, with the prefixes and the REX byte before it. The verdicts stand in the order of entry 17
(DEDUCED, the model's: the spec does not order them): identity (R83), `66` or `F2` with `F3` (D18), `67`
outside 64-bit mode (D1), the operand, `LOCK` (R121 row 3), the repeats (D18). So `LOCK` beside a refusal
of D18's first kind or of D1 is refused, beside a repeat `#UD`. -/
def decodeLegacy (m : Mode) (pre : List Prefix) (rex : Option Rex) : List Byte → Decoded
  | [] => .more
  | op :: bs =>
    if op ≠ 0x5B#8 ∨ !pre.contains .rep then .refused .otherInstruction
    else if pre.contains .operandSize ∨ pre.contains .repne then .refused .conflictingPrefix
    else if !addressSizeOk m pre then .refused .addressing16
    else
      match takeModRM bs with
      | none => .more
      | some (reg, src, rest) =>
        if pre.contains .lock then .invalid .lock
        else if !noRepeat pre then .refused .repeatedPrefix
        else
          match rex with
          | none => .instr (.legacy pre reg src) rest
          | some x => .instr (.legacyRex pre x reg src) rest

/-! ### VEX forms (R64 to R67) -/

/-- The verdict on the prefixes before a VEX or EVEX prefix (R121 rows 3 and 9; D18), `none` if they
are admitted. -/
def vexPrefixVerdict (pre : List Prefix) (rexBefore : Bool) : Option Decoded :=
  if pre.contains .lock then some (.invalid .lock)
  else if pre.contains .operandSize || pre.contains .repne || pre.contains .rep || rexBefore then
    some (.invalid .prefixBeforeVex)
  else if !noRepeat pre then some (.refused .repeatedPrefix)
  else none

/-- From the opcode byte on, with the last payload byte `p` (bits 6:3 `vvvv`, 2 `L`, 1:0 `pp`) and the
two rows it may be: `L = 0` and `L = 1` (R66). The verdicts stand in the order of entry 17 (DEDUCED, the
model's): identity, `67` outside 64-bit mode, the operand, the prefixes before VEX (`LOCK` first), `vvvv`. -/
def decodeVexTail (m : Mode) (pre : List Prefix) (rexBefore : Bool) (p : Byte)
    (row128 row256 : BitVec 3 → RM → Instr) : List Byte → Decoded
  | [] => .more
  | op :: bs =>
    if op ≠ 0x5B#8 ∨ p.extractLsb' 0 2 ≠ 2#2 then .refused .otherInstruction
    else if !addressSizeOk m pre then .refused .addressing16
    else
      match takeModRM bs with
      | none => .more
      | some (reg, src, rest) =>
        match vexPrefixVerdict pre rexBefore with
        | some v => v
        | none =>
          if p.extractLsb' 3 4 ≠ 15#4 then .invalid .vvvv
          else .instr (if bit p 2 then row256 reg src else row128 reg src) rest

/-- After `C5` (R64). Outside 64-bit mode the byte is `LDS` unless the next one begins `11b` (R67). -/
def decodeVex2 (m : Mode) (pre : List Prefix) (rexBefore : Bool) : List Byte → Decoded
  | [] => .more
  | p :: bs =>
    if m ≠ .long64 ∧ p.extractLsb' 6 2 ≠ 3#2 then .refused .otherInstruction
    else
      decodeVexTail m pre rexBefore p (fun reg src => .vex128C5 pre (!bit p 7) reg src)
        (fun reg src => .vex256C5 pre (!bit p 7) reg src) bs

/-- After `C4` (R65). Outside 64-bit mode the byte is `LES` unless the next one begins `11b`, which is
judged before a further byte is asked for, and `B̄ = 0` is refused (R67). Maps 2 and 3 hold other
instructions, the others are reserved. -/
def decodeVex3 (m : Mode) (pre : List Prefix) (rexBefore : Bool) : List Byte → Decoded
  | [] => .more
  | p1 :: rest =>
    if m ≠ .long64 ∧ p1.extractLsb' 6 2 ≠ 3#2 then .refused .otherInstruction
    else
      match rest with
      | [] => .more
      | p2 :: bs =>
        if m ≠ .long64 ∧ !bit p1 5 then .refused .extensionBits
        else if p1.extractLsb' 0 5 = 2#5 ∨ p1.extractLsb' 0 5 = 3#5 then .refused .otherInstruction
        else if p1.extractLsb' 0 5 ≠ 1#5 then .invalid .reservedMap
        else
          decodeVexTail m pre rexBefore p2
            (fun reg src => .vex128C4 pre ⟨!bit p1 7, !bit p1 6, !bit p1 5, bit p2 7⟩ reg src)
            (fun reg src => .vex256C4 pre ⟨!bit p1 7, !bit p1 6, !bit p1 5, bit p2 7⟩ reg src) bs

/-! ### EVEX forms (R68 to R73) -/

/-- The write mask that `z` and `aaa` name (R73); `z = 1` with `aaa = 000b` is judged before. -/
def Mask.ofBits (z : Bool) (aaa : BitVec 3) : Mask :=
  if aaa = 0#3 then .unmasked
  else if z then .zeroing aaa
  else .merging aaa

/-- The row of an EVEX encoding: `b` with a register source is `{sae}` (R72), with a memory source the
broadcast (R71); otherwise `L'L` selects the length (R70). -/
def evexRow (c : Config) (pre : List Prefix) (ext : EvexExt) (mask : Mask) (ll : BitVec 2) (b : Bool)
    (reg : BitVec 3) (src : RM) (rest : List Byte) : Decoded :=
  match src, b with
  | .reg rm, true =>
    if ll = 2#2 ∨ c.saeIgnoresLL then .instr (.evex512Sae pre ext mask ll reg rm) rest
    else .refused .saeLength
  | .reg rm, false => sized (.reg rm)
  | .mem mem, true => sized (.bcst mem)
  | .mem mem, false => sized (.mem mem)
where
  /-- `L'L` selects the row (R70). -/
  sized (s : EvexSrc) : Decoded :=
    if ll = 0#2 then .instr (.evex128 pre ext mask reg s) rest
    else if ll = 1#2 then .instr (.evex256 pre ext mask reg s) rest
    else if ll = 2#2 then .instr (.evex512 pre ext mask reg s) rest
    else .invalid .vectorLength

/-- The invalid-opcode conditions on the three payload bytes (R121 rows 1, 10, 11). -/
def evexPayloadUd (p0 p1 p2 : Byte) : Option UdReason :=
  if p0.extractLsb' 2 2 ≠ 0#2 ∨ !bit p1 2 then some .reservedBits
  else if p1.extractLsb' 3 4 ≠ 15#4 then some .vvvv
  else if !bit p2 3 then some .vPrime
  else if bit p2 7 ∧ p2.extractLsb' 0 3 = 0#3 then some .zeroingUnmasked
  else none

/-- From the payload of an EVEX prefix on. The verdicts stand in the order of entry 17 (DEDUCED, the
model's): identity, `67` outside 64-bit mode, the operand, the prefixes before EVEX, the payload. -/
def decodeEvexPayload (c : Config) (m : Mode) (pre : List Prefix) (rexBefore : Bool) :
    List Byte → Decoded
  | p0 :: p1 :: p2 :: op :: bs =>
    if m ≠ .long64 ∧ !(bit p0 5 && bit p0 4 && bit p2 3) then .refused .extensionBits
    else if p0.extractLsb' 0 2 = 0#2 then .invalid .reservedMap
    else if p0.extractLsb' 0 2 ≠ 1#2 ∨ p1.extractLsb' 0 2 ≠ 2#2 ∨ bit p1 7 ∨ op ≠ 0x5B#8 then
      .refused .otherInstruction
    else if !addressSizeOk m pre then .refused .addressing16
    else
      match takeModRM bs with
      | none => .more
      | some (reg, src, rest) =>
        match vexPrefixVerdict pre rexBefore with
        | some v => v
        | none =>
          match evexPayloadUd p0 p1 p2 with
          | some r => .invalid r
          | none =>
            evexRow c pre ⟨!bit p0 7, !bit p0 6, !bit p0 5, !bit p0 4⟩
              (Mask.ofBits (bit p2 7) (p2.extractLsb' 0 3)) (p2.extractLsb' 5 2) (bit p2 4)
              reg src rest
  | _ => .more

/-- After `62` (R68). Outside 64-bit mode the byte is `BOUND` unless the next one begins `11b`, which is
judged before a further byte is asked for (R67), and every extension bit must be 0 (D19). -/
def decodeEvex (c : Config) (m : Mode) (pre : List Prefix) (rexBefore : Bool) : List Byte → Decoded
  | [] => .more
  | p0 :: bs =>
    if m ≠ .long64 ∧ p0.extractLsb' 6 2 ≠ 3#2 then .refused .otherInstruction
    else decodeEvexPayload c m pre rexBefore (p0 :: bs)

/-! ### The decoder -/

/-- Real-address and virtual-8086 mode (R121 row 14, R135; entry 15): a VEX or EVEX prefix, told from
`LDS`, `LES` and `BOUND` as in R67, raises `#UD`; everything else is out of scope. -/
def decodeOutOfScope : List Byte → Decoded
  | [] => .more
  | b :: bs =>
    if b = 0xC4#8 ∨ b = 0xC5#8 ∨ b = 0x62#8 then
      match bs with
      | [] => .more
      | p :: _ => if p.extractLsb' 6 2 = 3#2 then .invalid .realMode else .refused .modeOutOfScope
    else .refused .modeOutOfScope

/-- The byte after the legacy prefixes and the REX byte, if any. A REX byte that another prefix follows is
refused (R62, D18, U10) whatever comes with it. DEDUCED (entry 17, the model's): so also where `LOCK`
stands before or after it (row 3), and where a VEX or EVEX prefix comes later (row 9, U11), each of which
alone is `#UD`; the spec does not order them. -/
def decodeOpcode (c : Config) (m : Mode) (pre : List Prefix) (rex : Option Rex) : List Byte → Decoded
  | [] => .more
  | b :: bs =>
    if b = 0x0F#8 then decodeLegacy m pre rex bs
    else if b = 0xC5#8 then decodeVex2 m pre rex.isSome bs
    else if b = 0xC4#8 then decodeVex3 m pre rex.isSome bs
    else if b = 0x62#8 then decodeEvex c m pre rex.isSome bs
    else if rex.isSome ∧ ((Prefix.ofByte b).isSome ∨ b.extractLsb' 4 4 = 4#4) then
      .refused .misplacedRex
    else .refused .otherInstruction

/-- After the legacy prefixes: in 64-bit mode a byte `0100 W R X B` is a REX prefix (R63). -/
def decodeAfterPrefixes (c : Config) (m : Mode) (pre : List Prefix) (bs : List Byte) : Decoded :=
  match bs with
  | [] => .more
  | b :: rest =>
    if m = .long64 ∧ b.extractLsb' 4 4 = 4#4 then
      decodeOpcode c m pre (some ⟨bit b 3, bit b 2, bit b 1, bit b 0⟩) rest
    else decodeOpcode c m pre none (b :: rest)

/-- Decode the instruction at the head of the bytes (R60). -/
def decode (c : Config) (m : Mode) (bs : List Byte) : Decoded :=
  if m.inScope then decodeAfterPrefixes c m (scanPrefixes bs).1 (scanPrefixes bs).2
  else decodeOutOfScope (scanPrefixes bs).2

/-! ### The encoder -/

/-- The four bytes of a `disp32`, lowest first (R77). -/
def encodeDisp32 (d : BitVec 32) : List Byte :=
  [d.extractLsb' 0 8, d.extractLsb' 8 8, d.extractLsb' 16 8, d.extractLsb' 24 8]

/-- The bytes of a displacement. -/
def encodeDisp : Disp → List Byte
  | .absent => []
  | .disp8 d => [d]
  | .disp32 d => encodeDisp32 d

/-- The `mod` field that announces a displacement (R75). -/
def Disp.mod : Disp → BitVec 2
  | .absent => 0#2
  | .disp8 _ => 1#2
  | .disp32 _ => 2#2

/-- The ModRM byte (R74); the SIB byte (R76) has the same fields in the same places. -/
def modRMByte (mod : BitVec 2) (reg rm : BitVec 3) : Byte := mod ++ reg ++ rm

/-- ModRM, SIB and displacement of a memory operand. -/
def encodeMem (reg : BitVec 3) : Mem → List Byte
  | .base rm d => modRMByte d.mod reg rm :: encodeDisp d
  | .sib ss index base d => modRMByte d.mod reg 4#3 :: modRMByte ss index base :: encodeDisp d
  | .sibNoBase ss index d => modRMByte 0#2 reg 4#3 :: modRMByte ss index 5#3 :: encodeDisp32 d
  | .disp32 d => modRMByte 0#2 reg 5#3 :: encodeDisp32 d

/-- ModRM and what belongs to it. -/
def encodeRM (reg : BitVec 3) : RM → List Byte
  | .reg rm => [modRMByte 3#2 reg rm]
  | .mem m => encodeMem reg m

/-- ModRM and what belongs to it. -/
def encodeEvexSrc (reg : BitVec 3) : EvexSrc → List Byte
  | .reg rm => [modRMByte 3#2 reg rm]
  | .mem m => encodeMem reg m
  | .bcst m => encodeMem reg m

/-- The REX byte `0100 W R X B` (R63). -/
def Rex.byte (x : Rex) : Byte := 4#4 ++ fld x.w ++ fld x.r ++ fld x.x ++ fld x.b

/-- `C5 [R̄ 1111 L 10] 5B` (R64, R66). -/
def encodeVex2 (r l : Bool) : List Byte :=
  [0xC5#8, fld (!r) ++ 15#4 ++ fld l ++ 2#2, 0x5B#8]

/-- `C4 [R̄ X̄ B̄ 00001] [W 1111 L 10] 5B` (R65, R66). -/
def encodeVex3 (v : Vex3) (l : Bool) : List Byte :=
  [0xC4#8, fld (!v.r) ++ fld (!v.x) ++ fld (!v.b) ++ 1#5,
    fld v.w ++ 15#4 ++ fld l ++ 2#2, 0x5B#8]

/-- The bits `z` and `aaa` of a write mask (R73). -/
def Mask.z : Mask → Bool
  | .zeroing _ => true
  | _ => false

/-- The bits `z` and `aaa` of a write mask (R73). -/
def Mask.aaa : Mask → BitVec 3
  | .unmasked => 0#3
  | .merging n => n
  | .zeroing n => n

/-- `62 [R̄ X̄ B̄ R̄' 00 01] [0 1111 1 10] [z L'L b 1 aaa] 5B` (R68, R69). -/
def encodeEvex (e : EvexExt) (mask : Mask) (ll : BitVec 2) (b : Bool) : List Byte :=
  [0x62#8, fld (!e.r) ++ fld (!e.x) ++ fld (!e.b) ++ fld (!e.r') ++ 1#4, 0x7E#8,
    fld mask.z ++ ll ++ fld b ++ 1#1 ++ mask.aaa, 0x5B#8]

/-- `EVEX.b` of a source without `{sae}` (R71). -/
def EvexSrc.isBcst : EvexSrc → Bool
  | .bcst _ => true
  | _ => false

/-- The legacy prefix bytes. -/
def encodePre (pre : List Prefix) : List Byte := pre.map Prefix.byte

/-- The bytes of an instruction, lowest address first (R60, R84). -/
def encode : Instr → List Byte
  | .legacy pre reg src => encodePre pre ++ ([0x0F#8, 0x5B#8] ++ encodeRM reg src)
  | .legacyRex pre rex reg src => encodePre pre ++ (rex.byte :: [0x0F#8, 0x5B#8] ++ encodeRM reg src)
  | .vex128C5 pre r reg src => encodePre pre ++ (encodeVex2 r false ++ encodeRM reg src)
  | .vex128C4 pre v reg src => encodePre pre ++ (encodeVex3 v false ++ encodeRM reg src)
  | .vex256C5 pre r reg src => encodePre pre ++ (encodeVex2 r true ++ encodeRM reg src)
  | .vex256C4 pre v reg src => encodePre pre ++ (encodeVex3 v true ++ encodeRM reg src)
  | .evex128 pre e mask reg src =>
    encodePre pre ++ (encodeEvex e mask 0#2 src.isBcst ++ encodeEvexSrc reg src)
  | .evex256 pre e mask reg src =>
    encodePre pre ++ (encodeEvex e mask 1#2 src.isBcst ++ encodeEvexSrc reg src)
  | .evex512 pre e mask reg src =>
    encodePre pre ++ (encodeEvex e mask 2#2 src.isBcst ++ encodeEvexSrc reg src)
  | .evex512Sae pre e mask ll reg rm =>
    encodePre pre ++ (encodeEvex e mask ll true ++ encodeRM reg (.reg rm))

/-! ### The length (R81) -/

/-- `disp_len` of a displacement. -/
def Disp.length : Disp → Nat
  | .absent => 0
  | .disp8 _ => 1
  | .disp32 _ => 4

/-- ModRM, SIB and displacement bytes of a memory operand. -/
def Mem.length : Mem → Nat
  | .base _ d => 1 + d.length
  | .sib _ _ _ d => 2 + d.length
  | .sibNoBase _ _ _ => 6
  | .disp32 _ => 5

/-- ModRM, SIB and displacement bytes of a source operand. -/
def RM.length : RM → Nat
  | .reg _ => 1
  | .mem m => m.length

/-- ModRM, SIB and displacement bytes of a source operand. -/
def EvexSrc.length : EvexSrc → Nat
  | .reg _ => 1
  | .mem m => m.length
  | .bcst m => m.length

/-- The length in bytes, `len` (R81): prefixes, then the form's own bytes, then ModRM and the rest. -/
def Instr.length : Instr → Nat
  | .legacy pre _ src => pre.length + 2 + src.length
  | .legacyRex pre _ _ src => pre.length + 3 + src.length
  | .vex128C5 pre _ _ src => pre.length + 3 + src.length
  | .vex128C4 pre _ _ src => pre.length + 4 + src.length
  | .vex256C5 pre _ _ src => pre.length + 3 + src.length
  | .vex256C4 pre _ _ src => pre.length + 4 + src.length
  | .evex128 pre _ _ _ src => pre.length + 5 + src.length
  | .evex256 pre _ _ _ src => pre.length + 5 + src.length
  | .evex512 pre _ _ _ src => pre.length + 5 + src.length
  | .evex512Sae pre _ _ _ _ _ => pre.length + 6

/-! ### Words of the opcode table -/

/-- The longest instruction (R60). -/
def maxLength : Nat := 15

/-- The `n` bytes of `w`, least significant first. -/
def bytesOf : Nat → Nat → List Byte
  | 0, _ => []
  | n + 1, w => BitVec.ofNat 8 w :: bytesOf n (w / 256)

/-- Did the decoder find an instruction? -/
def Decoded.instr? : Decoded → Option Instr
  | .instr i _ => some i
  | _ => none

/-- The bytes of an instruction whose table bits are `w`, padded with zeros to the longest instruction.
`fixed` of spec/opcode_table.json numbers a row as one number whose MOST significant byte is the first
(`F30F5B` is bits 31:8 of row 1), so the bytes are read in that order; a word that is no instruction
so is read with its first byte in bits 7:0 (entry 25). -/
def tableBytes (nbits w : Nat) : List Byte :=
  let low := bytesOf (nbits / 8) w
  let pad := List.replicate (maxLength - nbits / 8) 0#8
  if (decode Config.standard .long64 (low.reverse ++ pad)).instr?.isSome then low.reverse ++ pad
  else low ++ pad

/-- The instruction the decoder reads from a table word, in 64-bit mode on the standard configuration. -/
def decodeTableWord (nbits w : Nat) : Option Instr :=
  (decode Config.standard .long64 (tableBytes nbits w)).instr?

end Sys2Proof
end

