-- ==== Sys2Proof/Machine/State.lean ====
section
/-!
DEFINITION. The state of the machine (spec/10_state.md), the outcomes that stop it, and reset.
-/

namespace Sys2Proof.Machine

/-- The segment bases (R29); `SegBaseFS` and `SegBaseGS` of R5 are `fs` and `gs`. -/
structure SegBases where
  es : Quad
  cs : Quad
  ss : Quad
  ds : Quad
  fs : Quad
  gs : Quad
  deriving DecidableEq, Repr

/-- Bytes of memory by physical location, strictly rising; an unlisted location holds 0 (entry 8). -/
abbrev Memory := List Host.Cell

/-- A range of linear addresses, one piece of the set `LaunchMem` (R5, R54, D11). -/
structure Range where
  lo : Nat
  size : Nat
  deriving DecidableEq, Repr

/-- Why a byte is accessed (an argument of `Translate`, R50). -/
inductive Access where
  | read
  | fetch
  deriving DecidableEq, Repr

/-- What `Translate` answers (R50): the physical location of the range's first byte, or a page fault. -/
inductive Translation where
  | location (lo : Nat)
  | pageFault (code : BitVec 32)
  deriving DecidableEq, Repr

/-- One rule of `Translate` (R50; entry 7): what it answers for the linear addresses of a range, for one
kind of access (`none`: both) and one privilege level (`none`: all). -/
structure TranslateRule where
  lo : Nat
  size : Nat
  access : Option Access
  cpl : Option (BitVec 2)
  result : Translation
  deriving DecidableEq, Repr

/-- Everything the spec gives the machine: one line for each in INVENTORY.md. -/
structure State where
  /-- The parameters of R5 (entry 1); no step changes them. -/
  cfg : Config
  /-- `MODE` (R5, R133). -/
  mode : Mode
  /-- The current privilege level (R127, R133). -/
  cpl : BitVec 2
  /-- `ZMM[0]` to `ZMM[31]` (R20 to R22). -/
  zmm : Vector VecReg 32
  /-- `K[0]` to `K[7]` (R23). -/
  k : Vector Quad 8
  /-- R24. -/
  mxcsr : BitVec 32
  /-- `x[0]` to `x[15]` (R26). -/
  gpr : Vector Quad 16
  /-- The address of the instruction to be executed (R27). -/
  rip : Quad
  /-- R28. PRESUMED: `AC` is bit 18; R127 names the bit and gives no position (entry 31). -/
  rflags : Quad
  /-- R29. -/
  segs : SegBases
  /-- R31. -/
  cr0 : Quad
  /-- The linear address of the last page fault (R50, R132). -/
  cr2 : Quad
  /-- R31. -/
  cr4 : Quad
  /-- R31. -/
  xcr0 : Quad
  /-- The bytes of memory by physical location (R40, R50; entry 8). -/
  mem : Memory
  /-- `LaunchMem`, the linear addresses of ordinary memory (R5, R44, R54, D11). -/
  ram : List Range
  /-- `Translate` (R50). -/
  xlate : List TranslateRule
  deriving DecidableEq, Repr

/-- The exceptions of R120. Each is a fault: `RIP` stays at the instruction. All are SAFE: a faulted
state is never final (R130). -/
inductive Exc where
  /-- `#UD`: raised by `execute` and by `step` on an invalid opcode (R121) and on an unmasked SIMD
  exception without `CR4.OSXMMEXCPT` (R126). -/
  | ud
  /-- `#NM`: raised by `execute` when `CR0.TS = 1` (R122). -/
  | nm
  /-- `#SS(0)`: raised by `execute` on an illegal operand address in `SS` (R123). -/
  | ss
  /-- `#GP(0)`: raised by `execute` on an illegal or misaligned operand address, by `step` on an
  instruction longer than 15 bytes (R124). -/
  | gp
  /-- `#PF(code)` at this linear address: raised by `execute` on the operand and by `step` on the
  instruction's bytes (R125). -/
  | pf (code : BitVec 32) (addr : Quad)
  /-- `#AC(0)`: raised by `execute` where the free value of R127 says so (entry 13). -/
  | ac
  /-- `#XM`: raised by `execute` on an unmasked SIMD exception (R126). -/
  | xm
  deriving DecidableEq, Repr

/-- The stops with a fault. -/
inductive Fault where
  /-- Raised by `raise`: the terminal outcome `Fault(vector, error_code, info)` of R130, with the
  architectural state of R132 (entry 6). SAFE: no claim about a later state can be proved. -/
  | exception (e : Exc) (faulted : State)
  deriving DecidableEq, Repr

/-- The stops without a meaning. All are SAFE. -/
inductive Refusal where
  /-- Raised by `exec` for an instruction without a meaning; no arm does. -/
  | notModelled (mnemonic : String)
  /-- Raised by `step`: the decoder gives the bytes no meaning (R82). -/
  | undecoded (r : Reject)
  /-- Raised by `execute` for a legacy form in real-address or virtual-8086 mode (R4, D1). -/
  | modeOutOfScope
  /-- Raised by `step`: a code byte at a non-canonical address or past the wrap (R27, D3). -/
  | codeAddress (a : Nat)
  /-- Raised by `execute` and `step`: a byte at this linear address, outside the launch memory (R44, R54,
  D11, U17). -/
  | notOrdinaryMemory (a : Nat)
  /-- Raised by `step`: a reserved bit of MXCSR is set (R24, U14). -/
  | mxcsrReserved
  /-- Raised by `step`: a configuration that R118 excludes. -/
  | configuration
  /-- Raised by `step`: segments that are not flat outside 64-bit mode (R29, D1). -/
  | segmentsNotFlat
  deriving DecidableEq, Repr

/-- What an instruction or a step answers. -/
abbrev Outcome := Host.Outcome State Fault Refusal

/-- The machine after power-up (R33). The values R33 does not give are named in entries 1, 3, 4, 7 and 8. -/
def State.reset : State where
  cfg := Config.standard
  mode := .real
  cpl := 0#2
  zmm := Vector.replicate 32 0#512
  k := Vector.replicate 8 0#64
  mxcsr := 0x1F80#32
  gpr := Vector.replicate 16 0#64
  rip := 0xFFF0#64
  rflags := 0x2#64
  segs := ⟨0#64, 0xFFFF0000#64, 0#64, 0#64, 0#64, 0#64⟩
  cr0 := 0x60000010#64
  cr2 := 0#64
  cr4 := 0#64
  xcr0 := 1#64
  mem := []
  ram := [⟨0, 2 ^ 64⟩]
  xlate := []

end Sys2Proof.Machine
end

