-- ==== Sys2Proof/Machine/Ops.lean ====
section
/-!
DEFINITION. The named operations over memory and registers, and taking an exception.
The return from an exception (`IRET`) is another instruction, outside the spec's scope (R4, R131).
-/

namespace Sys2Proof.Machine

/-! ### Memory (R40, R41) -/

/-- What an unlisted location of memory holds. DESIGN CHOICE (entry 8). -/
def unlistedByte : Byte := 0#8

/-- The byte at a location. -/
def Memory.read : Memory → Nat → Byte
  | [], _ => unlistedByte
  | (k, v) :: t, a => if k = a then v else Memory.read t a

/-- `MemWrite` of one byte (R8: no instruction uses it; it places a program). It keeps the canonical form. -/
def Memory.write : Memory → Nat → Byte → Memory
  | [], a, b => if b = unlistedByte then [] else [(a, b)]
  | (k, v) :: t, a, b =>
    if a < k then (if b = unlistedByte then (k, v) :: t else (a, b) :: (k, v) :: t)
    else if a = k then (if b = unlistedByte then t else (a, b) :: t)
    else (k, v) :: Memory.write t a b

/-- The locations rise strictly from `lo` on, and no listed byte is the unlisted one. -/
def Memory.risesFrom : Nat → Memory → Bool
  | _, [] => true
  | lo, (k, v) :: t => decide (lo ≤ k) && v != unlistedByte && Memory.risesFrom (k + 1) t

/-- The canonical form: equal memories are equal lists. -/
def Memory.wf (m : Memory) : Bool := Memory.risesFrom 0 m

/-- Write bytes at consecutive locations. -/
def Memory.writeBytes : Memory → Nat → List Byte → Memory
  | m, _, [] => m
  | m, a, b :: bs => Memory.writeBytes (Memory.write m a b) (a + 1) bs

/-- Is a linear address in the range? -/
def Range.has (r : Range) (a : Nat) : Bool := decide (r.lo ≤ a ∧ a < r.lo + r.size)

/-- Is the linear address in `LaunchMem`, so that ordinary memory is there (R5, R44, R54, D11)? -/
def State.ordinary (s : State) (a : Nat) : Bool := s.ram.any (fun r => r.has a)

/-! ### Translation (R50) -/

/-- Does the rule apply to this access? -/
def TranslateRule.applies (r : TranslateRule) (acc : Access) (cpl : BitVec 2) (a : Nat) : Bool :=
  decide (r.lo ≤ a ∧ a < r.lo + r.size) && (r.access == none || r.access == some acc) &&
    (r.cpl == none || r.cpl == some cpl)

/-- `Translate(A, access, CPL)`: the physical location, or the page fault's error code. The first rule
that applies decides; where none does, the location is the linear address (D12; entry 7). -/
def translateByte (rules : List TranslateRule) (acc : Access) (cpl : BitVec 2) (a : Nat) :
    Except (BitVec 32) Nat :=
  match rules.find? (fun r => r.applies acc cpl a) with
  | none => .ok a
  | some r =>
    match r.result with
    | .location lo => .ok (lo + (a - r.lo))
    | .pageFault code => .error code

/-! ### Accesses to memory -/

/-- Why an access does not give its bytes. -/
inductive Stop where
  | exc (e : Exc)
  | refuse (r : Refusal)
  deriving DecidableEq, Repr

/-- The page fault of one byte, if its translation fails. -/
def State.pageFault? (s : State) (acc : Access) (a : Nat) : Option Exc :=
  match translateByte s.xlate acc s.cpl a with
  | .ok _ => none
  | .error code => some (.pf code (BitVec.ofNat 64 a))

/-- The physical location of a byte whose translation succeeds. -/
def State.location (s : State) (acc : Access) (a : Nat) : Nat :=
  match translateByte s.xlate acc s.cpl a with
  | .ok p => p
  | .error _ => a

/-- The byte at a linear address: that of the location it is mapped to. -/
def State.byteAt (s : State) (acc : Access) (a : Nat) : Byte := s.mem.read (s.location acc a)

/-- What stops an access to the bytes at these linear addresses: a page fault of any of them, the first
in the list's order (R125; entry 11), then a linear address outside the launch memory (R5, D11; entry 9). -/
def State.accessStop? (s : State) (acc : Access) (addrs : List Nat) : Option Stop :=
  match addrs.findSome? (fun a => s.pageFault? acc a) with
  | some e => some (.exc e)
  | none =>
    match addrs.find? (fun a => !s.ordinary a) with
    | some a => some (.refuse (.notOrdinaryMemory a))
    | none => none

/-! ### Registers -/

/-- `ZMM[n]` (R20). -/
def State.getZmm (s : State) (n : BitVec 5) : VecReg := s.zmm[n.toNat]'n.isLt

/-- `ZMM[n] <- v`, the whole register. -/
def State.setZmm (s : State) (n : BitVec 5) (v : VecReg) : State :=
  { s with zmm := s.zmm.set n.toNat v n.isLt }

/-- `K[n]` (R23). -/
def State.getK (s : State) (n : BitVec 3) : Quad := s.k[n.toNat]'n.isLt

/-- `x[n]` (R26). -/
def State.getGpr (s : State) (n : BitVec 4) : Quad := s.gpr[n.toNat]'n.isLt

/-! ### Control bits (R31) and segment bases (R47) -/

/-- `CR0.EM`. -/
def State.em (s : State) : Bool := s.cr0.getLsbD 2

/-- `CR0.TS`. -/
def State.ts (s : State) : Bool := s.cr0.getLsbD 3

/-- `CR4.OSFXSR`. -/
def State.osfxsr (s : State) : Bool := s.cr4.getLsbD 9

/-- `CR4.OSXMMEXCPT`. -/
def State.osxmmexcpt (s : State) : Bool := s.cr4.getLsbD 10

/-- `CR4.OSXSAVE`. -/
def State.osxsave (s : State) : Bool := s.cr4.getLsbD 18

/-- `XCR0[2:1] = 11b`: SSE and AVX state enabled. -/
def State.avxEnabled (s : State) : Bool := s.xcr0.getLsbD 1 && s.xcr0.getLsbD 2

/-- `XCR0[7:5] = 111b`: opmask, ZMM_Hi256 and Hi16_ZMM state enabled. -/
def State.avx512Enabled (s : State) : Bool :=
  s.xcr0.getLsbD 5 && s.xcr0.getLsbD 6 && s.xcr0.getLsbD 7

/-- Alignment checking is armed (R127): `CR0.AM = 1`, `RFLAGS.AC = 1`, `CPL = 3`. `AM` is bit 18 of CR0
(R31). PRESUMED: `AC` is bit 18 of RFLAGS, the family's position; the spec gives none (entry 31). -/
def State.alignmentChecked (s : State) : Bool :=
  s.cr0.getLsbD 18 && s.rflags.getLsbD 18 && s.cpl == 3#2

/-- The base added to an effective address: in 64-bit mode only `FS` and `GS` have one; outside it
segments are flat (R29, R47). -/
def State.segBase (s : State) : Seg → Quad
  | .fs => if s.mode = .long64 then s.segs.fs else 0#64
  | .gs => if s.mode = .long64 then s.segs.gs else 0#64
  | _ => 0#64

/-! ### Addresses -/

/-- Is a 64-bit linear address canonical (R48)? Bits 63:47 are all equal, or 63:56 with 57-bit addresses. -/
def canonical (c : Config) (a : Quad) : Bool :=
  if c.la57 then a.extractLsb' 56 8 == 0#8 || a.extractLsb' 56 8 == 0xFF#8
  else a.extractLsb' 47 17 == 0#17 || a.extractLsb' 47 17 == 0x1FFFF#17

/-- Is a code address settled (R27, D3): canonical and below the wrap? Outside 64-bit mode the wrap is
at 2^32. The argument is not reduced, so that an address past the wrap is told from a low one. -/
def State.codeAddressOk (s : State) (a : Nat) : Bool :=
  if s.mode = .long64 then decide (a < 2 ^ 64) && canonical s.cfg (BitVec.ofNat 64 a)
  else decide (a < 2 ^ 32)

/-- The address of the byte after an instruction of this length, as an effective address takes it
(R46, R79): modulo 2^64. -/
def State.ripNext (s : State) (len : Nat) : Quad := s.rip + BitVec.ofNat 64 len

/-- `pc <- RIP + len` (R27, D3): the 64 bits of `RIP` in 64-bit mode, the 32 bits of `EIP` outside it.
DEDUCED (entry 14): past the wrap the sum is that of the register's own width. -/
def State.advance (s : State) (len : Nat) : State :=
  { s with rip :=
      if s.mode = .long64 then s.ripNext len else ((s.ripNext len).setWidth 32).setWidth 64 }

/-! ### Taking an exception -/

/-- The vector number (R120). -/
def Exc.vector : Exc → Nat
  | .ud => 6
  | .nm => 7
  | .ss => 12
  | .gp => 13
  | .pf _ _ => 14
  | .ac => 17
  | .xm => 19

/-- The error code (R120). -/
def Exc.errorCode : Exc → Option (BitVec 32)
  | .ud => none
  | .nm => none
  | .ss => some 0#32
  | .gp => some 0#32
  | .pf code _ => some code
  | .ac => some 0#32
  | .xm => none

/-- What an exception records in the state (R132): a page fault writes `CR2`. `RIP` stays. -/
def State.recorded (s : State) : Exc → State
  | .pf _ a => { s with cr2 := a }
  | _ => s

/-- `raise E(info)` (R8, R130, R132): the terminal fault outcome, for every exception. -/
def raise (e : Exc) (s : State) : Outcome := .fault (.exception e (s.recorded e))

/-- The outcome of an access that was stopped. -/
def Stop.outcome (s : State) : Stop → Outcome
  | .exc e => raise e s
  | .refuse r => .refused r

end Sys2Proof.Machine
end

