-- ==== Sys2Proof/Machine/Convert.lean ====
section
/-!
DEFINITION. The lane function (spec/40_conversion_primitive.md R100 to R104).
-/

namespace Sys2Proof.Machine

/-- What one lane gives: the result it holds when no exception is unmasked, and whether it signals
Invalid or Precision (R102). -/
structure Converted where
  result : Dword
  inv : Bool
  inexact : Bool
  deriving DecidableEq, Repr

/-- The sign `s = x[31]` (R100). -/
def f32Sign (x : Dword) : Bool := x.getLsbD 31

/-- The biased exponent `e = x[30:23]` (R100). -/
def f32Exp (x : Dword) : Nat := (x.extractLsb' 23 8).toNat

/-- The fraction `f = x[22:0]` (R100). -/
def f32Frac (x : Dword) : Nat := (x.extractLsb' 0 23).toNat

/-- The indefinite integer value `80000000H` (R11). -/
def indefinite : Dword := 0x80000000#32

/-- `twos(s, n)`: the two's complement of a magnitude under a sign (R102). -/
def twos (s : Bool) (n : Nat) : Dword :=
  if s then BitVec.ofNat 32 (2 ^ 32 - n) else BitVec.ofNat 32 n

/-- `CvtT(x, daz)` (R102), arm by arm. -/
def cvtT (x : Dword) (daz : Bool) : Converted :=
  let s := f32Sign x
  let e := f32Exp x
  let f := f32Frac x
  let sig := 2 ^ 23 + f
  if e = 255 then ⟨indefinite, true, false⟩
  else if e = 0 ∧ (f = 0 ∨ daz) then ⟨0#32, false, false⟩
  else if e = 0 then ⟨0#32, false, true⟩
  else if e ≥ 158 then
    if s ∧ e = 158 ∧ f = 0 then ⟨indefinite, false, false⟩ else ⟨indefinite, true, false⟩
  else if e ≥ 150 then ⟨twos s (sig * 2 ^ (e - 150)), false, false⟩
  else if e ≥ 127 then ⟨twos s (sig / 2 ^ (150 - e)), false, sig % 2 ^ (150 - e) != 0⟩
  else ⟨0#32, false, true⟩

end Sys2Proof.Machine
end

