-- ==== Sys2Proof/Machine/Flags.lean ====
section
/-!
DEFINITION. MXCSR: its fields (R24) and the update by one instruction (R105, R107).
-/

namespace Sys2Proof.Machine

/-- `MXCSR.IE`, bit 0. -/
def mxcsrIE (m : BitVec 32) : Bool := m.getLsbD 0

/-- `MXCSR.PE`, bit 5. -/
def mxcsrPE (m : BitVec 32) : Bool := m.getLsbD 5

/-- `MXCSR.DAZ`, bit 6. -/
def mxcsrDAZ (m : BitVec 32) : Bool := m.getLsbD 6

/-- `MXCSR.IM`, bit 7. -/
def mxcsrIM (m : BitVec 32) : Bool := m.getLsbD 7

/-- `MXCSR.PM`, bit 12. -/
def mxcsrPM (m : BitVec 32) : Bool := m.getLsbD 12

/-- `MXCSR[31:16]`, reserved (R24). -/
def mxcsrReserved (m : BitVec 32) : BitVec 16 := m.extractLsb' 16 16

/-- `MXCSR.IE <- 1`. -/
def setIE (m : BitVec 32) : BitVec 32 := m ||| 0x1#32

/-- `MXCSR.PE <- 1`. -/
def setPE (m : BitVec 32) : BitVec 32 := m ||| 0x20#32

/-- What becomes of MXCSR, and whether an unmasked exception is raised. -/
structure SimdFlags where
  mxcsr : BitVec 32
  raises : Bool
  deriving DecidableEq, Repr

/-- The update of R105 in its order: Invalid over all lanes before Precision; an unmasked Invalid leaves
`PE` as it was. Under `{sae}` MXCSR is untouched and nothing is raised (R107). -/
def simdFlags (sae anyI anyP : Bool) (m : BitVec 32) : SimdFlags :=
  if sae then ⟨m, false⟩
  else
    let m1 := if anyI then setIE m else m
    if anyI && !mxcsrIM m then ⟨m1, true⟩
    else
      let m2 := if anyP then setPE m1 else m1
      ⟨m2, anyP && !mxcsrPM m⟩

/-- The exception an unmasked SIMD condition is delivered as (R126). -/
def State.simdExc (s : State) : Exc := if s.osxmmexcpt then .xm else .ud

end Sys2Proof.Machine
end

