-- ==== Sys2Proof/Machine/Operands.lean ====
section
/-!
DEFINITION. The operand forms: register numbers (R74), memory operands (R75 to R79), effective and linear
addresses (R46, R47), the checks on an operand's address (R43, R48, R49, R127), write masks (R73).
-/

namespace Sys2Proof.Machine

/-! ### Vector lengths (R7) -/

/-- `KL`, the number of lanes. -/
def lanesOf : VecLen → Nat
  | .v128 => 4
  | .v256 => 8
  | .v512 => 16

/-- The bytes of a full operand, `VL / 8` (R42). -/
def bytesOfLen (vl : VecLen) : Nat := 4 * lanesOf vl

/-! ### Register numbers (R74) -/

/-- `X ++ field`: a 4-bit register number. -/
def reg4 (hi : Bool) (n : BitVec 3) : BitVec 4 := BitVec.ofBool hi ++ n

/-- A vector register of a legacy or VEX form: 4 bits. -/
def vreg4 (hi : Bool) (n : BitVec 3) : BitVec 5 := 0#1 ++ BitVec.ofBool hi ++ n

/-- A vector register of an EVEX form: 5 bits. -/
def vreg5 (top hi : Bool) (n : BitVec 3) : BitVec 5 := BitVec.ofBool top ++ BitVec.ofBool hi ++ n

/-! ### Memory operands -/

/-- What an effective address starts from (R46). -/
inductive Base where
  | absent
  | gpr (n : BitVec 4)
  | ripNext
  deriving DecidableEq, Repr

/-- A memory operand with the extension bits applied (R46). -/
structure MemRef where
  base : Base
  index : Option (BitVec 4)
  /-- `ss`; the scale is `2^ss`. -/
  scale : BitVec 2
  /-- The displacement `d`, sign-extended and scaled. -/
  disp : Quad
  deriving DecidableEq, Repr

/-- The displacement `d` (R77, R78); `n` is the scale `N` of `disp8`. -/
def dispValue (n : Nat) : Disp → Quad
  | .absent => 0#64
  | .disp8 d => d.signExtend 64 * BitVec.ofNat 64 n
  | .disp32 d => d.signExtend 64

/-- The index register, or none for `X ++ index = 0100b` (R76). -/
def indexReg (x : Bool) (index : BitVec 3) : Option (BitVec 4) :=
  if reg4 x index = 4#4 then none else some (reg4 x index)

/-- The memory operand of R75 and R76 under the extension bits `X` and `B`, with `disp8` scaled by `n`. -/
def memRef (m : Mode) (x b : Bool) (n : Nat) : Mem → MemRef
  | .base rm d => ⟨.gpr (reg4 b rm), none, 0#2, dispValue n d⟩
  | .sib ss index base d => ⟨.gpr (reg4 b base), indexReg x index, ss, dispValue n d⟩
  | .sibNoBase ss index d => ⟨.absent, indexReg x index, ss, d.signExtend 64⟩
  | .disp32 d => ⟨if m = .long64 then .ripNext else .absent, none, 0#2, d.signExtend 64⟩

/-- `base_value` (R46). -/
def State.baseValue (s : State) (ripNext : Quad) : Base → Quad
  | .absent => 0#64
  | .gpr n => s.getGpr n
  | .ripNext => ripNext

/-- `index_value * s` (R46). -/
def State.indexValue (s : State) (r : MemRef) : Quad :=
  match r.index with
  | none => 0#64
  | some n => s.getGpr n <<< r.scale.toNat

/-- The effective address (R46): modulo 2^64, or modulo 2^32 and zero-extended with 32-bit addressing. -/
def State.effectiveAddress (s : State) (addr32 : Bool) (ripNext : Quad) (r : MemRef) : Quad :=
  let ea := s.baseValue ripNext r.base + s.indexValue r + r.disp
  if addr32 then (ea.setWidth 32).setWidth 64 else ea

/-- 32-bit addressing (R46, R80): the default outside 64-bit mode, `67` inside it. -/
def State.addr32 (s : State) (pre : List Prefix) : Bool :=
  s.mode != .long64 || pre.contains .addressSize

/-- The segment override among the prefixes (R62). -/
def segOverride : List Prefix → Option Seg
  | [] => none
  | .segment r :: _ => some r
  | _ :: t => segOverride t

/-- The segment of an operand (R47): the override, else `SS` for base register 4 or 5, else `DS`. -/
def operandSeg (pre : List Prefix) (b : Base) : Seg :=
  match segOverride pre with
  | some r => r
  | none => if b = .gpr 4#4 ∨ b = .gpr 5#4 then .ss else .ds

/-- The linear address `A` (R47). -/
def State.linearAddress (s : State) (pre : List Prefix) (ripNext : Quad) (r : MemRef) : Quad :=
  s.segBase (operandSeg pre r.base) + s.effectiveAddress (s.addr32 pre) ripNext r

/-- Is every byte of the operand at a legal address? Canonical in 64-bit mode (R48; a byte past 2^64
is at the wrapped address, entry 12), within the limit of a flat segment outside it (R49). -/
def State.operandLegal (s : State) (a : Quad) (n : Nat) : Bool :=
  if s.mode = .long64 then (List.range n).all (fun i => canonical s.cfg (a + BitVec.ofNat 64 i))
  else decide (a.toNat + n ≤ 2 ^ 32)

/-- The exception on an operand of `n` bytes at `a` before it is translated (R110 step 4, R128): the
legacy form's alignment, then the legality, then the open alignment check (R127; entry 13). -/
def State.addressExc? (s : State) (cls : EncClass) (seg : Seg) (a : Quad) (n : Nat) : Option Exc :=
  if cls = .legacy ∧ a.toNat % 16 ≠ 0 then some .gp
  else if !s.operandLegal a n then some (if seg = .ss then .ss else .gp)
  else if s.alignmentChecked && decide (a.toNat % n ≠ 0) && Config.alignmentCheckFaults cls n a then
    some .ac
  else none

/-! ### Lanes -/

/-- Lane `j` of a vector (R6, R11). -/
def lane (v : VecReg) (j : Nat) : Dword := v.extractLsb' (32 * j) 32

/-- The vector whose lanes, lane 0 first, are these. -/
def ofLanes : List Dword → VecReg
  | [] => 0#512
  | x :: xs => ofLanes xs <<< 32 ||| x.setWidth 512

/-- The four linear addresses of the doubleword at `a` (R41). -/
def dwordAddrs (a : Quad) : List Nat := (List.range 4).map (fun i => (a + BitVec.ofNat 64 i).toNat)

/-- The doubleword at `a`, the byte at `a` least significant (R41). -/
def State.dwordAt (s : State) (a : Quad) : Dword :=
  s.byteAt .read (a + 3#64).toNat ++ s.byteAt .read (a + 2#64).toNat ++
    s.byteAt .read (a + 1#64).toNat ++ s.byteAt .read a.toNat

/-- Is lane `j` converted and written: no writemask, or `k1[j] = 1` (R73, R114)? -/
def State.laneActive (s : State) (mask : Mask) (j : Nat) : Bool :=
  match mask with
  | .unmasked => true
  | .merging n => (s.getK n).getLsbD j
  | .zeroing n => (s.getK n).getLsbD j

/-- The active lanes (R105), lowest first. -/
def State.activeLanes (s : State) (mask : Mask) (vl : VecLen) : List Nat :=
  (List.range (lanesOf vl)).filter (s.laneActive mask)

/-! ### Source operands -/

/-- Where the source operand is: a vector register, memory, or one doubleword of memory for every
lane (R71, R74). -/
inductive Source where
  | reg (n : BitVec 5)
  | mem (r : MemRef)
  | bcst (r : MemRef)
  deriving DecidableEq, Repr

/-- The source of a legacy or VEX form; `disp8` is not scaled (R74, R78). -/
def sourceRM (m : Mode) (x b : Bool) : RM → Source
  | .reg rm => .reg (vreg4 b rm)
  | .mem mem => .mem (memRef m x b 1 mem)

/-- The source of an EVEX form: `X` is the fifth bit of a register source (R74); `disp8` is scaled by
the operand's width, or by 4 under broadcast (R78). -/
def sourceEvex (m : Mode) (x b : Bool) (vl : VecLen) : EvexSrc → Source
  | .reg rm => .reg (vreg5 x b rm)
  | .mem mem => .mem (memRef m x b (bytesOfLen vl) mem)
  | .bcst mem => .bcst (memRef m x b 4 mem)

/-- Check an operand of `n` bytes and read the doublewords of the active lanes, which are at these
addresses: the address exceptions on the whole operand, then the access to the active lanes' bytes
alone (R51; entry 10). The answer gives lane `j` its doubleword. -/
def State.readOperand (s : State) (cls : EncClass) (seg : Seg) (a : Quad) (n : Nat)
    (active : List Nat) (at_ : Nat → Quad) : Except Stop (Nat → Dword) :=
  match s.addressExc? cls seg a n with
  | some e => .error (.exc e)
  | none =>
    match s.accessStop? .read (active.flatMap (fun j => dwordAddrs (at_ j))) with
    | some st => .error st
    | none => .ok (fun j => s.dwordAt (at_ j))

/-- The source lanes (R110 steps 4 and 5, R114). -/
def State.sourceLanes (s : State) (cls : EncClass) (pre : List Prefix) (vl : VecLen)
    (mask : Mask) (len : Nat) : Source → Except Stop (Nat → Dword)
  | .reg n => .ok (lane (s.getZmm n))
  | .mem r =>
    let a := s.linearAddress pre (s.ripNext len) r
    s.readOperand cls (operandSeg pre r.base) a (bytesOfLen vl) (s.activeLanes mask vl)
      (fun j => a + BitVec.ofNat 64 (4 * j))
  | .bcst r =>
    let a := s.linearAddress pre (s.ripNext len) r
    s.readOperand cls (operandSeg pre r.base) a 4 (s.activeLanes mask vl) (fun _ => a)

end Sys2Proof.Machine
end

