-- ==== Sys2Proof/Machine/Execute.lean ====
section
/-!
DEFINITION. The execution skeleton every form shares (R110): the invalid-opcode conditions (R121), the
conversion of the active lanes (R105, R114) and the write of the destination (R21, R111 to R114).
-/

namespace Sys2Proof.Machine

/-- One form's operands, as R110 step 1 gives them. -/
structure PackedOp where
  cls : EncClass
  vl : VecLen
  pre : List Prefix
  dest : BitVec 5
  src : Source
  mask : Mask
  sae : Bool
  /-- `len` (R81). -/
  len : Nat
  deriving DecidableEq, Repr

/-- `VL <= MAX_VL` (R118). -/
def fits (vl maxVL : VecLen) : Bool := decide (lanesOf vl ≤ lanesOf maxVL)

/-- The feature flags of a form (R2, R118; R121 row 2). -/
def present (c : Config) (cls : EncClass) (vl : VecLen) : Bool :=
  match cls with
  | .legacy => c.hasSSE2
  | .vex => c.hasAVX && fits vl c.maxVL
  | .evex => c.hasAVX512F && (c.hasAVX512VL || vl == .v512) && fits vl c.maxVL

/-- What system software must have enabled (R121 rows 4 to 8, R151). -/
def State.enabled (s : State) : EncClass → Bool
  | .legacy => !s.em && s.osfxsr
  | .vex => s.osxsave && s.avxEnabled
  | .evex => s.osxsave && s.avxEnabled && s.avx512Enabled

/-- The invalid-opcode conditions the decoder does not see (R121 rows 2, 4 to 8 and 14). -/
def State.invalidOpcode (s : State) (cls : EncClass) (vl : VecLen) : Bool :=
  !s.mode.inScope || !present s.cfg cls vl || !s.enabled cls

/-- Does an active lane signal Invalid (R105)? -/
def anyInvalid (active : List Nat) (r : Nat → Converted) : Bool := active.any (fun j => (r j).inv)

/-- Does an active lane signal Precision (R105)? -/
def anyInexact (active : List Nat) (r : Nat → Converted) : Bool := active.any (fun j => (r j).inexact)

/-- Lane `j` of the destination afterwards (R21, R114): below `KL` the result, or for a masked-off lane
the old value (merging) or 0 (zeroing); above, the old value for the legacy form and 0 for the others. -/
def State.destLane (s : State) (op : PackedOp) (r : Nat → Converted) (j : Nat) : Dword :=
  if j < lanesOf op.vl then
    if s.laneActive op.mask j then (r j).result
    else
      match op.mask with
      | .zeroing _ => 0#32
      | _ => lane (s.getZmm op.dest) j
  else
    match op.cls with
    | .legacy => lane (s.getZmm op.dest) j
    | _ => 0#32

/-- The whole destination register afterwards. -/
def State.destReg (s : State) (op : PackedOp) (r : Nat → Converted) : VecReg :=
  ofLanes ((List.range 16).map (s.destLane op r))

/-- Steps 6 to 8 of R110: the flags, the write, the advance. Nothing of the destination is written when
an exception is raised (R105, R132). -/
def State.finish (s : State) (op : PackedOp) (r : Nat → Converted) : Outcome :=
  let active := s.activeLanes op.mask op.vl
  let fl := simdFlags op.sae (anyInvalid active r) (anyInexact active r) s.mxcsr
  if fl.raises then raise s.simdExc { s with mxcsr := fl.mxcsr }
  else .next (({ s with mxcsr := fl.mxcsr }.setZmm op.dest (s.destReg op r)).advance op.len)

/-- Execute one form (R110), in the order of its steps. -/
def execute (op : PackedOp) (s : State) : Outcome :=
  if op.cls = .legacy ∧ !s.mode.inScope then .refused .modeOutOfScope
  else if s.invalidOpcode op.cls op.vl then raise .ud s
  else if s.ts then raise .nm s
  else
    match s.sourceLanes op.cls op.pre op.vl op.mask op.len op.src with
    | .error st => st.outcome s
    | .ok src => s.finish op (fun j => cvtT (src j) (mxcsrDAZ s.mxcsr))

end Sys2Proof.Machine
end

