-- ==== Sys2Proof/Machine/Evex.lean ====
section
/-!
DEFINITION. The EVEX forms, `VCVTTPS2DQ {k1}{z}` at 128, 256 and 512 bits and `{sae}` (R114 to R117).
-/

namespace Sys2Proof.Machine

/-- The operands of an EVEX form (R114): the destination is `R' ++ R ++ reg`. -/
def evexOp (vl : VecLen) (pre : List Prefix) (e : EvexExt) (mask : Mask) (sae : Bool)
    (reg : BitVec 3) (src : Source) (len : Nat) : PackedOp where
  cls := .evex
  vl := vl
  pre := pre
  dest := vreg5 e.r' e.r reg
  src := src
  mask := mask
  sae := sae
  len := len

/-- `EVEX.128`: `EvexOp(4, 128)` (R115). -/
def execEvex128 (pre : List Prefix) (e : EvexExt) (mask : Mask) (reg : BitVec 3) (src : EvexSrc)
    (s : State) : Outcome :=
  execute (evexOp .v128 pre e mask false reg (sourceEvex s.mode e.x e.b .v128 src)
    (Instr.evex128 pre e mask reg src).length) s

/-- `EVEX.256`: `EvexOp(8, 256)` (R116). -/
def execEvex256 (pre : List Prefix) (e : EvexExt) (mask : Mask) (reg : BitVec 3) (src : EvexSrc)
    (s : State) : Outcome :=
  execute (evexOp .v256 pre e mask false reg (sourceEvex s.mode e.x e.b .v256 src)
    (Instr.evex256 pre e mask reg src).length) s

/-- `EVEX.512`: `EvexOp(16, 512)` (R117). -/
def execEvex512 (pre : List Prefix) (e : EvexExt) (mask : Mask) (reg : BitVec 3) (src : EvexSrc)
    (s : State) : Outcome :=
  execute (evexOp .v512 pre e mask false reg (sourceEvex s.mode e.x e.b .v512 src)
    (Instr.evex512 pre e mask reg src).length) s

/-- `EVEX.512` with `{sae}`: a register source, 512 bits whatever `L'L` holds (R72, R107, R117). -/
def execEvex512Sae (pre : List Prefix) (e : EvexExt) (mask : Mask) (ll : BitVec 2) (reg rm : BitVec 3)
    (s : State) : Outcome :=
  execute (evexOp .v512 pre e mask true reg (.reg (vreg5 e.x e.b rm))
    (Instr.evex512Sae pre e mask ll reg rm).length) s

end Sys2Proof.Machine
end

