-- ==== Sys2Proof/Machine/Legacy.lean ====
section
/-!
DEFINITION. The legacy SSE form, `CVTTPS2DQ xmm1, xmm2/m128` (R111).
-/

namespace Sys2Proof.Machine

/-- The operands of the legacy form (R111): `R`, `X`, `B` of the REX byte, 0 without one. -/
def legacyOp (m : Mode) (pre : List Prefix) (r x b : Bool) (reg : BitVec 3) (src : RM) (len : Nat) :
    PackedOp where
  cls := .legacy
  vl := .v128
  pre := pre
  dest := vreg4 r reg
  src := sourceRM m x b src
  mask := .unmasked
  sae := false
  len := len

/-- `F3 0F 5B /r` (R111). -/
def execLegacy (pre : List Prefix) (reg : BitVec 3) (src : RM) (s : State) : Outcome :=
  execute (legacyOp s.mode pre false false false reg src (Instr.legacy pre reg src).length) s

/-- `F3 REX 0F 5B /r` (R111); `W` is ignored (R63). -/
def execLegacyRex (pre : List Prefix) (rex : Rex) (reg : BitVec 3) (src : RM) (s : State) : Outcome :=
  execute (legacyOp s.mode pre rex.r rex.x rex.b reg src (Instr.legacyRex pre rex reg src).length) s

end Sys2Proof.Machine
end

