-- ==== Sys2Proof/Machine/Vex.lean ====
section
/-!
DEFINITION. The VEX forms, `VCVTTPS2DQ xmm1, xmm2/m128` (R112) and `VCVTTPS2DQ ymm1, ymm2/m256` (R113).
-/

namespace Sys2Proof.Machine

/-- The operands of a VEX form (R112, R113). -/
def vexOp (m : Mode) (vl : VecLen) (pre : List Prefix) (r x b : Bool) (reg : BitVec 3) (src : RM)
    (len : Nat) : PackedOp where
  cls := .vex
  vl := vl
  pre := pre
  dest := vreg4 r reg
  src := sourceRM m x b src
  mask := .unmasked
  sae := false
  len := len

/-- `VEX.128`, two-byte prefix: `X = B = 0` (R64, R112). -/
def execVex128C5 (pre : List Prefix) (r : Bool) (reg : BitVec 3) (src : RM) (s : State) : Outcome :=
  execute (vexOp s.mode .v128 pre r false false reg src (Instr.vex128C5 pre r reg src).length) s

/-- `VEX.128`, three-byte prefix; `W` is ignored (R65, R66, R112). -/
def execVex128C4 (pre : List Prefix) (v : Vex3) (reg : BitVec 3) (src : RM) (s : State) : Outcome :=
  execute (vexOp s.mode .v128 pre v.r v.x v.b reg src (Instr.vex128C4 pre v reg src).length) s

/-- `VEX.256`, two-byte prefix: `X = B = 0` (R64, R113). -/
def execVex256C5 (pre : List Prefix) (r : Bool) (reg : BitVec 3) (src : RM) (s : State) : Outcome :=
  execute (vexOp s.mode .v256 pre r false false reg src (Instr.vex256C5 pre r reg src).length) s

/-- `VEX.256`, three-byte prefix; `W` is ignored (R65, R66, R113). -/
def execVex256C4 (pre : List Prefix) (v : Vex3) (reg : BitVec 3) (src : RM) (s : State) : Outcome :=
  execute (vexOp s.mode .v256 pre v.r v.x v.b reg src (Instr.vex256C4 pre v reg src).length) s

end Sys2Proof.Machine
end

