-- ==== Sys2Proof/Machine/Dispatch.lean ====
section
/-!
DEFINITION. The dispatch: one arm per row of the opcode table (R84).
-/

namespace Sys2Proof.Machine

def exec (i : Instr) (s : State) : Host.Outcome State Fault Refusal :=
  match i with
  | .legacy pre reg src => Sys2Proof.Machine.execLegacy pre reg src s
  | .legacyRex pre rex reg src => Sys2Proof.Machine.execLegacyRex pre rex reg src s
  | .vex128C5 pre r reg src => Sys2Proof.Machine.execVex128C5 pre r reg src s
  | .vex128C4 pre vex reg src => Sys2Proof.Machine.execVex128C4 pre vex reg src s
  | .vex256C5 pre r reg src => Sys2Proof.Machine.execVex256C5 pre r reg src s
  | .vex256C4 pre vex reg src => Sys2Proof.Machine.execVex256C4 pre vex reg src s
  | .evex128 pre ext mask reg src => Sys2Proof.Machine.execEvex128 pre ext mask reg src s
  | .evex256 pre ext mask reg src => Sys2Proof.Machine.execEvex256 pre ext mask reg src s
  | .evex512 pre ext mask reg src => Sys2Proof.Machine.execEvex512 pre ext mask reg src s
  | .evex512Sae pre ext mask ll reg rm => Sys2Proof.Machine.execEvex512Sae pre ext mask ll reg rm s

end Sys2Proof.Machine
end

