-- ==== Sys2Proof/Machine/Fetch.lean ====
section
/-!
DEFINITION. Fetching an instruction's bytes (R40, R41, R60), the launch premises (R24, R29, R118), and
the placing of a program at launch (R150, R151).
-/

namespace Sys2Proof.Machine

/-- The linear address of code byte `n`: at `RIP` with a flat code segment; in real-address and
virtual-8086 mode the base of `CS` is added (R33). -/
def State.codeAddress (s : State) (n : Nat) : Nat :=
  if s.mode.inScope then s.rip.toNat + n else s.segs.cs.toNat + s.rip.toNat + n

/-- Fetch one code byte: refused outside the settled addresses (D3), then `#PF` (R125), then refused
outside the launch memory (D11). -/
def State.codeByte (s : State) (a : Nat) : Except Stop Byte :=
  if !s.codeAddressOk a then .error (.refuse (.codeAddress a))
  else
    match s.accessStop? .fetch [a] with
    | some st => .error st
    | none => .ok (s.byteAt .fetch a)

/-- Up to `fuel` code bytes from offset `n` on, and what stops the fetch after them: one more byte than
the longest instruction is `#GP(0)` (R60, R124; entry 16). -/
def State.fetchFrom (s : State) : Nat → Nat → List Byte × Stop
  | 0, _ => ([], .exc .gp)
  | fuel + 1, n =>
    match s.codeByte (s.codeAddress n) with
    | .error st => ([], st)
    | .ok b => (b :: (s.fetchFrom fuel (n + 1)).1, (s.fetchFrom fuel (n + 1)).2)

/-- The code bytes at `RIP`, at most 15. A byte that cannot be fetched matters only when the
instruction reaches it. -/
def State.codeWindow (s : State) : List Byte × Stop := s.fetchFrom maxLength 0

/-- What a fetch comes to: an instruction to execute, or an outcome. -/
inductive Fetched where
  | run (i : Instr)
  | stop (st : Stop)
  deriving DecidableEq, Repr

/-- Decode the code bytes (R110 step 1); priority 1 of R128 is what stops the fetch. -/
def State.fetch (s : State) : Fetched :=
  match decode s.cfg s.mode s.codeWindow.1 with
  | .instr i _ => .run i
  | .invalid _ => .stop (.exc .ud)
  | .refused r => .stop (.refuse (.undecoded r))
  | .more => .stop s.codeWindow.2

/-- The constraints among the parameters (R118). -/
def configOk (c : Config) : Bool :=
  (!c.hasAVX || c.maxVL != .v128) && (!c.hasAVX512F || c.maxVL == .v512) &&
    (!c.hasAVX512VL || c.hasAVX512F) && (!c.hasAVX512F || c.hasAVX) && (!c.hasAVX || c.hasSSE2)

/-- Every segment base is 0 (R29, D1). -/
def SegBases.flat (g : SegBases) : Bool :=
  g.es == 0#64 && g.cs == 0#64 && g.ss == 0#64 && g.ds == 0#64 && g.fs == 0#64 && g.gs == 0#64

/-- A state the spec admits no launch from (R24 with U14, R29 with D1, R118; entry 21). -/
def State.launchRefusal (s : State) : Option Refusal :=
  if !configOk s.cfg then some .configuration
  else if mxcsrReserved s.mxcsr ≠ 0#16 then some .mxcsrReserved
  else if s.mode = .prot32 ∧ !s.segs.flat then some .segmentsNotFlat
  else none

/-- A launch state (R150, R151; entry 2): 64-bit mode, the control bits that enable every form, identity
translation, and these code bytes at `RIP` in ordinary memory. -/
def State.launch (s : State) (code : List Byte) : State :=
  { s with
    mode := .long64
    cr0 := s.cr0 &&& ~~~0xC#64
    cr4 := s.cr4 ||| 0x40600#64
    xcr0 := s.xcr0 ||| 0xE7#64
    xlate := []
    mem := s.mem.writeBytes s.rip.toNat code
    ram := ⟨s.rip.toNat, code.length⟩ :: s.ram }

end Sys2Proof.Machine
end

