-- ==== Sys2Proof/Machine/Step.lean ====
section
/-!
DEFINITION. One step: the launch premises, the fetch, the instruction (R110).
-/

namespace Sys2Proof.Machine

/-- One step of the machine. It adds nothing around `exec`: the instruction advances `RIP` itself. -/
def step (s : State) : Host.Outcome State Fault Refusal :=
  match s.launchRefusal with
  | some r => .refused r
  | none =>
    match s.fetch with
    | .run i => exec i s
    | .stop st => st.outcome s

/-- `s` launched with the instruction of a table word as the next one (entries 2 and 25). -/
def State.withFetchWord (s : State) (nbits w : Nat) : State := s.launch (tableBytes nbits w)

end Sys2Proof.Machine
end

