-- ==== Sys2Proof/Safety.lean ====
section
/-!
DEFINITION. The terms claims are made in: what a state must satisfy, what a completed instruction leaves,
what a lane converts, when a run ends (R155).
-/

namespace Sys2Proof.Machine

/-! ### The invariant of the machine -/

/-- What every step keeps: memory in its canonical form, the reserved bits of MXCSR 0 (R24), the
constraints of R118 among the parameters, no bit above `MAX_VL` (R20), no `ZMM[16]` to `ZMM[31]`
without AVX512F (R22). -/
structure State.Inv (s : State) : Prop where
  mem : s.mem.wf = true
  mxcsr : mxcsrReserved s.mxcsr = 0#16
  config : configOk s.cfg = true
  maxVL : ∀ (n : BitVec 5) (j : Nat), lanesOf s.cfg.maxVL ≤ j → j < 16 → lane (s.getZmm n) j = 0#32
  high : s.cfg.hasAVX512F = false → ∀ n : BitVec 5, 16 ≤ n.toNat → s.getZmm n = 0#512

/-! ### What an instruction changes -/

/-- The frame of R32: between `s` and `t` at most `ZMM[dest]`, `MXCSR.IE` and `MXCSR.PE` (each only from
0 to 1) and `RIP` differ. -/
structure FrameR32 (dest : BitVec 5) (s t : State) : Prop where
  zmm : ∀ n : BitVec 5, n ≠ dest → t.getZmm n = s.getZmm n
  mxcsr : ∀ i : Nat, i ≠ 0 → i ≠ 5 → t.mxcsr.getLsbD i = s.mxcsr.getLsbD i
  ie : mxcsrIE s.mxcsr = true → mxcsrIE t.mxcsr = true
  pe : mxcsrPE s.mxcsr = true → mxcsrPE t.mxcsr = true
  opmask : t.k = s.k
  gpr : t.gpr = s.gpr
  rflags : t.rflags = s.rflags
  segs : t.segs = s.segs
  control : t.cr0 = s.cr0 ∧ t.cr2 = s.cr2 ∧ t.cr4 = s.cr4 ∧ t.xcr0 = s.xcr0
  mode : t.cfg = s.cfg ∧ t.mode = s.mode ∧ t.cpl = s.cpl
  map : t.ram = s.ram ∧ t.xlate = s.xlate
  mem : ∀ a : Nat, t.mem.read a = s.mem.read a

/-- The conversion of a source lane in a state (R102): `DAZ` is the state's. -/
def State.conv (s : State) (x : Dword) : Converted := cvtT x (mxcsrDAZ s.mxcsr)

/-- Some lane below `kl` that is active signals Invalid. -/
def State.someInvalid (s : State) (kl : Nat) (active : Nat → Bool) (src : Nat → Dword) : Bool :=
  (List.range kl).any (fun j => active j && (s.conv (src j)).inv)

/-- Some lane below `kl` that is active signals Precision. -/
def State.someInexact (s : State) (kl : Nat) (active : Nat → Bool) (src : Nat → Dword) : Bool :=
  (List.range kl).any (fun j => active j && (s.conv (src j)).inexact)

/-- No unmasked SIMD exception occurs (R126): what an active lane signals is masked. -/
def State.quiet (s : State) (kl : Nat) (active : Nat → Bool) (src : Nat → Dword) : Bool :=
  (!s.someInvalid kl active src || mxcsrIM s.mxcsr) &&
    (!s.someInexact kl active src || mxcsrPM s.mxcsr)

/-- MXCSR after a completed instruction (R105). -/
def State.flagsAfter (s : State) (kl : Nat) (active : Nat → Bool) (src : Nat → Dword) : BitVec 32 :=
  (s.mxcsr ||| if s.someInvalid kl active src then 1#32 else 0#32) |||
    if s.someInexact kl active src then 0x20#32 else 0#32

/-- What a completed form leaves in `t` (R111 to R117): the active lanes below `kl` hold their
conversions, the other lanes below `kl` hold `off`, the lanes above hold `upper`; MXCSR is `mxcsr`;
`RIP` is `RIP + len` in the width of the register (R27, D3; entry 14); the rest is R32's frame. -/
structure Completed (s t : State) (dest : BitVec 5) (kl : Nat) (active : Nat → Bool)
    (src off upper : Nat → Dword) (mxcsr : BitVec 32) (bytes : List Byte) : Prop where
  lanes : ∀ j, j < kl → active j = true → lane (t.getZmm dest) j = (s.conv (src j)).result
  masked : ∀ j, j < kl → active j = false → lane (t.getZmm dest) j = off j
  above : ∀ j, kl ≤ j → j < 16 → lane (t.getZmm dest) j = upper j
  mxcsr : t.mxcsr = mxcsr
  rip : t.rip.toNat =
    (s.rip.toNat + bytes.length) % (if s.mode = .long64 then 2 ^ 64 else 2 ^ 32)
  frame : FrameR32 dest s t

/-! ### When a form may run -/

/-- R151 for a legacy form: the mode, SSE2, `CR0.EM = 0`, `CR4.OSFXSR = 1`, `CR0.TS = 0`. -/
def State.legacyReady (s : State) : Bool :=
  s.mode.inScope && s.cfg.hasSSE2 && !s.cr0.getLsbD 2 && s.cr4.getLsbD 9 && !s.cr0.getLsbD 3

/-- R151 for the VEX forms: the mode, AVX, `CR4.OSXSAVE = 1`, `XCR0[2:1] = 11b`, `CR0.TS = 0`. -/
def State.vexReady (s : State) : Bool :=
  s.mode.inScope && s.cfg.hasAVX && s.cr4.getLsbD 18 && s.xcr0.getLsbD 1 && s.xcr0.getLsbD 2 &&
    !s.cr0.getLsbD 3

/-- R151 for EVEX.512: the mode, AVX512F, `CR4.OSXSAVE = 1`, `XCR0[2:1] = 11b`, `XCR0[7:5] = 111b`,
`CR0.TS = 0`. -/
def State.evexReady (s : State) : Bool :=
  s.mode.inScope && s.cfg.hasAVX512F && s.cr4.getLsbD 18 && s.xcr0.getLsbD 1 && s.xcr0.getLsbD 2 &&
    s.xcr0.getLsbD 5 && s.xcr0.getLsbD 6 && s.xcr0.getLsbD 7 && !s.cr0.getLsbD 3

/-- The bytes at these linear addresses are mapped for a read and lie in the launch memory. -/
def State.readable (s : State) (addrs : List Nat) : Bool :=
  addrs.all (fun a =>
    match translateByte s.xlate .read s.cpl a with
    | .ok _ => s.ordinary a
    | .error _ => false)

/-- The linear addresses of `n` bytes from `a` on. -/
def bytesFrom (a : Quad) (n : Nat) : List Nat := (List.range n).map (fun i => (a + BitVec.ofNat 64 i).toNat)

/-- `#AC` is out of the question for an operand of `n` bytes at `a` (R127): alignment checking is not
armed, or the operand is aligned. -/
def State.alignmentSettled (s : State) (a : Quad) (n : Nat) : Bool :=
  !s.alignmentChecked || decide (a.toNat % n = 0)

/-- An operand of `n` bytes at `a` that every form may read: legal addresses (R48, R49), readable
bytes, no alignment check (R127). -/
def State.operandOk (s : State) (a : Quad) (n : Nat) : Bool :=
  s.operandLegal a n && s.readable (bytesFrom a n) && s.alignmentSettled a n

/-- Lane `j` of the memory operand at `a`, little-endian (R41). -/
def State.memLane (s : State) (a : Quad) (j : Nat) : Dword :=
  s.byteAt .read (a + BitVec.ofNat 64 (4 * j + 3)).toNat ++
    s.byteAt .read (a + BitVec.ofNat 64 (4 * j + 2)).toNat ++
    s.byteAt .read (a + BitVec.ofNat 64 (4 * j + 1)).toNat ++
    s.byteAt .read (a + BitVec.ofNat 64 (4 * j)).toNat

/-- The lanes a write mask selects (R73, R114). -/
def State.selects (s : State) : Mask → Nat → Bool
  | .unmasked, _ => true
  | .merging n, j => (s.getK n).getLsbD j
  | .zeroing n, j => (s.getK n).getLsbD j

/-- What a masked-off lane holds: the old value under merging, 0 under zeroing (R73, R114). -/
def State.maskedOff (s : State) (dest : BitVec 5) : Mask → Nat → Dword
  | .zeroing _, _ => 0#32
  | _, j => lane (s.getZmm dest) j

end Sys2Proof.Machine

namespace Sys2Proof

open Sys2Proof.Machine

/-! ### The operands of an instruction, as R110 step 1 names them -/

/-- How the instruction is encoded. -/
def Instr.cls : Instr → EncClass
  | .legacy .. => .legacy
  | .legacyRex .. => .legacy
  | .vex128C5 .. => .vex
  | .vex128C4 .. => .vex
  | .vex256C5 .. => .vex
  | .vex256C4 .. => .vex
  | .evex128 .. => .evex
  | .evex256 .. => .evex
  | .evex512 .. => .evex
  | .evex512Sae .. => .evex

/-- The vector length. -/
def Instr.vl : Instr → VecLen
  | .legacy .. => .v128
  | .legacyRex .. => .v128
  | .vex128C5 .. => .v128
  | .vex128C4 .. => .v128
  | .vex256C5 .. => .v256
  | .vex256C4 .. => .v256
  | .evex128 .. => .v128
  | .evex256 .. => .v256
  | .evex512 .. => .v512
  | .evex512Sae .. => .v512

/-- The number of the destination register (R74). -/
def Instr.dest : Instr → BitVec 5
  | .legacy _ reg _ => vreg4 false reg
  | .legacyRex _ rex reg _ => vreg4 rex.r reg
  | .vex128C5 _ r reg _ => vreg4 r reg
  | .vex128C4 _ v reg _ => vreg4 v.r reg
  | .vex256C5 _ r reg _ => vreg4 r reg
  | .vex256C4 _ v reg _ => vreg4 v.r reg
  | .evex128 _ e _ reg _ => vreg5 e.r' e.r reg
  | .evex256 _ e _ reg _ => vreg5 e.r' e.r reg
  | .evex512 _ e _ reg _ => vreg5 e.r' e.r reg
  | .evex512Sae _ e _ _ reg _ => vreg5 e.r' e.r reg

/-- The source operand, and its place in memory if it has one (R71, R74 to R78). -/
def Instr.source (m : Mode) : Instr → Source
  | .legacy _ _ src => sourceRM m false false src
  | .legacyRex _ rex _ src => sourceRM m rex.x rex.b src
  | .vex128C5 _ _ _ src => sourceRM m false false src
  | .vex128C4 _ v _ src => sourceRM m v.x v.b src
  | .vex256C5 _ _ _ src => sourceRM m false false src
  | .vex256C4 _ v _ src => sourceRM m v.x v.b src
  | .evex128 _ e _ _ src => sourceEvex m e.x e.b .v128 src
  | .evex256 _ e _ _ src => sourceEvex m e.x e.b .v256 src
  | .evex512 _ e _ _ src => sourceEvex m e.x e.b .v512 src
  | .evex512Sae _ e _ _ _ rm => .reg (vreg5 e.x e.b rm)

/-- The write mask; none for a legacy or VEX form. -/
def Instr.mask : Instr → Mask
  | .evex128 _ _ mask _ _ => mask
  | .evex256 _ _ mask _ _ => mask
  | .evex512 _ _ mask _ _ => mask
  | .evex512Sae _ _ mask _ _ _ => mask
  | _ => .unmasked

/-- Is `{sae}` in effect (R107)? -/
def Instr.sae : Instr → Bool
  | .evex512Sae .. => true
  | _ => false

/-- The legacy prefixes. -/
def Instr.pre : Instr → List Prefix
  | .legacy pre .. => pre
  | .legacyRex pre .. => pre
  | .vex128C5 pre .. => pre
  | .vex128C4 pre .. => pre
  | .vex256C5 pre .. => pre
  | .vex256C4 pre .. => pre
  | .evex128 pre .. => pre
  | .evex256 pre .. => pre
  | .evex512 pre .. => pre
  | .evex512Sae pre .. => pre

/-- The memory operand, if the source is one: its description, and its width in bytes (R42). -/
def Instr.memory (m : Mode) (i : Instr) : Option (MemRef × Nat) :=
  match i.source m with
  | .reg _ => none
  | .mem r => some (r, bytesOfLen i.vl)
  | .bcst r => some (r, 4)

/-- The segment of a memory operand of the instruction (R47). -/
def Instr.seg (i : Instr) (r : MemRef) : Seg := operandSeg i.pre r.base

end Sys2Proof

namespace Sys2Proof.Machine

/-- The form may run (R151, R118): its class is ready, its feature flags are set, it fits `MAX_VL`. -/
def State.ready (s : State) (i : Instr) : Bool :=
  match i.cls with
  | .legacy => s.legacyReady
  | .vex => s.vexReady && decide (lanesOf i.vl ≤ lanesOf s.cfg.maxVL)
  | .evex => s.evexReady && (s.cfg.hasAVX512VL || i.vl == .v512) &&
      decide (lanesOf i.vl ≤ lanesOf s.cfg.maxVL)

/-- The linear address `A` of a memory operand of the instruction (R47). -/
def State.operandAddress (s : State) (i : Instr) (r : MemRef) : Quad :=
  s.linearAddress i.pre (s.rip + BitVec.ofNat 64 (encode i).length) r

/-- `s` with `CR0.TS` cleared: what `ready` asks besides `CR0.TS = 0` (R122). -/
def State.withoutTS (s : State) : State := { s with cr0 := s.cr0 &&& ~~~8#64 }

/-- What the completion of an instruction leaves (R111 to R117), for these source lanes and these lanes
above the vector length: `Completed` with the instruction's own operands. -/
def Result (s t : State) (i : Instr) (src upper : Nat → Dword) : Prop :=
  Completed s t i.dest (lanesOf i.vl) (s.selects i.mask) src (s.maskedOff i.dest i.mask) upper
    (if i.sae then s.mxcsr else s.flagsAfter (lanesOf i.vl) (s.selects i.mask) src) (encode i)

/-- Lane `j` of the source operand (R110 step 5): of the register, of memory, or the one doubleword of a
broadcast. -/
def State.sourceLane (s : State) (i : Instr) (j : Nat) : Dword :=
  match i.source s.mode with
  | .reg n => lane (s.getZmm n) j
  | .mem r => s.memLane (s.operandAddress i r) j
  | .bcst r => s.memLane (s.operandAddress i r) 0

/-- Nothing the instruction signals on these source lanes is unmasked (R126), or `{sae}` is in effect. -/
def State.quietFor (s : State) (i : Instr) (src : Nat → Dword) : Bool :=
  i.sae || s.quiet (lanesOf i.vl) (s.selects i.mask) src

/-- The bytes of the lanes that the write mask selects, of the operand at `a`, are readable (R51). -/
def State.selectedReadable (s : State) (i : Instr) (a : Quad) : Bool :=
  (List.range (lanesOf i.vl)).all (fun j =>
    !s.selects i.mask j || s.readable (bytesFrom (a + BitVec.ofNat 64 (4 * j)) 4))

/-- The source operand can be read: a register; memory at a legal address (R43, R48, R49) whose selected
bytes are readable, with no open alignment check (R127). -/
def State.sourceOk (s : State) (i : Instr) : Bool :=
  match i.source s.mode with
  | .reg _ => true
  | .mem r =>
    (i.cls != .legacy || decide ((s.operandAddress i r).toNat % 16 = 0)) &&
      s.operandLegal (s.operandAddress i r) (4 * lanesOf i.vl) &&
      s.alignmentSettled (s.operandAddress i r) (4 * lanesOf i.vl) &&
      s.selectedReadable i (s.operandAddress i r)
  | .bcst r => s.operandOk (s.operandAddress i r) 4

/-- MXCSR in the state of a SIMD floating-point fault (R105). -/
def State.flagsAtFault (s : State) (i : Instr) (src : Nat → Dword) : BitVec 32 :=
  if s.someInvalid (lanesOf i.vl) (s.selects i.mask) src && !mxcsrIM s.mxcsr then s.mxcsr ||| 1#32
  else s.flagsAfter (lanesOf i.vl) (s.selects i.mask) src

/-! ### The value of a single-precision number (R100) -/

/-- The exact value of a zero, denormal or normal number. -/
def f32Value (x : Dword) : Rat :=
  let mag : Rat :=
    if f32Exp x = 0 then (f32Frac x : Rat) / 2 ^ 149
    else ((2 ^ 23 + f32Frac x : Nat) : Rat) * 2 ^ f32Exp x / 2 ^ 150
  if f32Sign x then -mag else mag

/-- Truncation toward zero. -/
def truncate (v : Rat) : Int := if v < 0 then v.ceil else v.floor

/-! ### The end of a run (R155) -/

/-- How a run ends: finally, with a fault, with a refusal, or not within the steps given. -/
inductive RunEnd where
  | final (s : State)
  | faulted (f : Fault)
  | refused (r : Refusal)
  | running (s : State)
  deriving DecidableEq, Repr

/-- Run a program of `length` bytes at `base` (R155): final when a completed instruction leaves `RIP` at
its end, not final at the first fault. DESIGN CHOICE (entry 24): the end is the natural number
`base + length`, not reduced, so a program that ends at the wrap has no final end. -/
def runProgram (base length : Nat) : Nat → State → RunEnd
  | 0, s => .running s
  | fuel + 1, s =>
    match step s with
    | .next t => if t.rip.toNat = base + length then .final t else runProgram base length fuel t
    | .fault f => .faulted f
    | .refused r => .refused r

end Sys2Proof.Machine
end

