-- ==== Sys2Proof/Certificates/Slice0/Obligations.lean ====
section
/-!
DEFINITION. The statements for the provers, by family: encoding, conversion, results, faults, the machine.
-/

open Sys2Proof Sys2Proof.Machine

/-! ### Decoding and encoding -/

/-- R60 to R84: decoding the bytes of a well-formed instruction, whatever follows them, gives it back. -/
def Obligations.DecodeOfEncodeIsTheInstruction : Prop :=
  ∀ (c : Config) (m : Mode) (i : Instr) (rest : List Byte), i.wf c m = true →
    decode c m (encode i ++ rest) = .instr i rest

/-- R60 to R84: what the decoder accepts is well formed, and its encoding is the bytes read. -/
def Obligations.EncodeOfDecodeIsTheBytes : Prop :=
  ∀ (c : Config) (m : Mode) (bs rest : List Byte) (i : Instr), decode c m bs = .instr i rest →
    i.wf c m = true ∧ bs = encode i ++ rest

/-- R60, R81: an instruction takes `len` bytes, never more than 13. -/
def Obligations.DecodedLengthIsBytesConsumed : Prop :=
  ∀ (c : Config) (m : Mode) (bs rest : List Byte) (i : Instr), decode c m bs = .instr i rest →
    bs.length = i.length + rest.length ∧ i.length ≤ 13

/-- R22, R74: no decoded instruction names a vector register its mode and encoding lack. -/
def Obligations.DecodedRegistersExist : Prop :=
  ∀ (c : Config) (m : Mode) (bs rest : List Byte) (i : Instr), decode c m bs = .instr i rest →
    (m = .prot32 → i.dest.toNat < 8 ∧ ∀ n, i.source m = .reg n → n.toNat < 8) ∧
    (i.cls ≠ .evex → i.dest.toNat < 16 ∧ ∀ n, i.source m = .reg n → n.toNat < 16)

/-- R74: `reg` and `r/m` of the ModRM byte, `mod = 11b` a register source and every other `mod` a memory
source; the numbers `R ++ reg` and `B ++ r/m` of a legacy or VEX form, `R' ++ R ++ reg` and
`X ++ B ++ r/m` of an EVEX form, for every constructor. -/
def Obligations.RegisterNumbers : Prop :=
  (∀ (mod : BitVec 2) (reg rm r : BitVec 3) (src : RM) (bs rest : List Byte),
    takeModRM ((mod ++ reg ++ rm) :: bs) = some (r, src, rest) →
    r = reg ∧ (mod = 3#2 → src = .reg rm) ∧ (mod ≠ 3#2 → ∃ mem, src = .mem mem)) ∧
  (∀ (m : Mode) (pre : List Prefix) (rex : Rex) (r : Bool) (v : Vex3) (e : EvexExt) (mask : Mask)
    (ll : BitVec 2) (reg rm : BitVec 3) (src : RM) (esrc : EvexSrc),
    let number := fun (four three : Bool) (n : BitVec 3) => 16 * four.toNat + 8 * three.toNat + n.toNat
    let reads := fun (i : Instr) (n : Nat) => ∃ k, i.source m = .reg k ∧ k.toNat = n;
    (Instr.legacy pre reg src).dest.toNat = number false false reg ∧
    (Instr.legacyRex pre rex reg src).dest.toNat = number false rex.r reg ∧
    (Instr.vex128C5 pre r reg src).dest.toNat = number false r reg ∧
    (Instr.vex128C4 pre v reg src).dest.toNat = number false v.r reg ∧
    (Instr.vex256C5 pre r reg src).dest.toNat = number false r reg ∧
    (Instr.vex256C4 pre v reg src).dest.toNat = number false v.r reg ∧
    (Instr.evex128 pre e mask reg esrc).dest.toNat = number e.r' e.r reg ∧
    (Instr.evex256 pre e mask reg esrc).dest.toNat = number e.r' e.r reg ∧
    (Instr.evex512 pre e mask reg esrc).dest.toNat = number e.r' e.r reg ∧
    (Instr.evex512Sae pre e mask ll reg rm).dest.toNat = number e.r' e.r reg ∧
    reads (.legacy pre reg (.reg rm)) (number false false rm) ∧
    reads (.legacyRex pre rex reg (.reg rm)) (number false rex.b rm) ∧
    reads (.vex128C5 pre r reg (.reg rm)) (number false false rm) ∧
    reads (.vex128C4 pre v reg (.reg rm)) (number false v.b rm) ∧
    reads (.vex256C5 pre r reg (.reg rm)) (number false false rm) ∧
    reads (.vex256C4 pre v reg (.reg rm)) (number false v.b rm) ∧
    reads (.evex128 pre e mask reg (.reg rm)) (number e.x e.b rm) ∧
    reads (.evex256 pre e mask reg (.reg rm)) (number e.x e.b rm) ∧
    reads (.evex512 pre e mask reg (.reg rm)) (number e.x e.b rm) ∧
    reads (.evex512Sae pre e mask ll reg rm) (number e.x e.b rm))

/-- R63 to R65, R68, R74: the register numbers from the bytes. In 64-bit mode, behind any prefixes, the bit
of the fourth or fifth place of a number is the REX bit, or the complement of the VEX or EVEX payload bit. -/
def Obligations.RegisterNumbersFromTheBytes : Prop :=
  ∀ (c : Config) (ps : List Prefix) (m : Byte) (bs rest : List Byte) (i : Instr),
    let reg := (m.extractLsb' 3 3).toNat
    let rm := (m.extractLsb' 0 3).toNat
    let one := fun (b : Bool) => b.toNat
    let decoded := fun (head : List Byte) =>
      decode c .long64 (encodePre ps ++ (head ++ (0x5B#8 :: m :: bs))) = .instr i rest
    let numbers := fun (d n : Nat) => i.dest.toNat = d ∧ ∀ k, i.source .long64 = .reg k → k.toNat = n;
    (decoded [0x0F#8] → numbers reg rm) ∧
    (∀ x : Byte, x.extractLsb' 4 4 = 4#4 → decoded [x, 0x0F#8] →
      numbers (8 * one (bit x 2) + reg) (8 * one (bit x 0) + rm)) ∧
    (∀ p : Byte, decoded [0xC5#8, p] → numbers (8 * one (!bit p 7) + reg) rm) ∧
    (∀ p1 p2 : Byte, decoded [0xC4#8, p1, p2] →
      numbers (8 * one (!bit p1 7) + reg) (8 * one (!bit p1 5) + rm)) ∧
    (∀ p0 p1 p2 : Byte, decoded [0x62#8, p0, p1, p2] →
      numbers (16 * one (!bit p0 4) + 8 * one (!bit p0 7) + reg)
        (16 * one (!bit p0 6) + 8 * one (!bit p0 5) + rm))

/-- Words of 95_test_vectors.md V8, bit by bit from the encoding of each row. -/
def Obligations.SampleWordsDecode : Prop :=
  let d := decode Config.standard .long64
  d [0xF3#8, 0x0F#8, 0x5B#8, 0xC1#8] = .instr (.legacy [.rep] 0#3 (.reg 1#3)) [] ∧
  d [0xF3#8, 0x41#8, 0x0F#8, 0x5B#8, 0x5C#8, 0x88#8, 0x10#8] =
    .instr (.legacyRex [.rep] ⟨false, false, false, true⟩ 3#3
      (.mem (.sib 2#2 1#3 0#3 (.disp8 0x10#8)))) [] ∧
  d [0xC5#8, 0x7A#8, 0x5B#8, 0xC1#8] = .instr (.vex128C5 [] true 0#3 (.reg 1#3)) [] ∧
  d [0xC4#8, 0x41#8, 0x7E#8, 0x5B#8, 0xC1#8] =
    .instr (.vex256C4 [] ⟨true, false, true, false⟩ 0#3 (.reg 1#3)) [] ∧
  d [0x62#8, 0x81#8, 0x7E#8, 0x48#8, 0x5B#8, 0xCE#8] =
    .instr (.evex512 [] ⟨false, true, true, true⟩ .unmasked 1#3 (.reg 6#3)) [] ∧
  d [0x62#8, 0xF1#8, 0x7E#8, 0xD9#8, 0x5B#8, 0x08#8] =
    .instr (.evex512 [] ⟨false, false, false, false⟩ (.zeroing 1#3) 1#3 (.bcst (.base 0#3 .absent))) [] ∧
  d [0x62#8, 0xF1#8, 0x7E#8, 0x58#8, 0x5B#8, 0xD3#8] =
    .instr (.evex512Sae [] ⟨false, false, false, false⟩ .unmasked 2#2 2#3 3#3) []

/-- R66, R69, R82: a `vvvv` other than `1111b` under an otherwise matching VEX or EVEX prefix is the
`#UD` encoding. -/
def Obligations.WrongVvvvIsInvalid : Prop :=
  ∀ (c : Config) (reg : BitVec 3) (src : RM) (rest : List Byte), src.wf = true →
    (∀ p : Byte, p.extractLsb' 0 2 = 2#2 → p.extractLsb' 3 4 ≠ 15#4 →
      decode c .long64 (0xC5#8 :: p :: 0x5B#8 :: (encodeRM reg src ++ rest)) = .invalid .vvvv) ∧
    (∀ p1 p2 : Byte, p1.extractLsb' 0 5 = 1#5 → p2.extractLsb' 0 2 = 2#2 →
      p2.extractLsb' 3 4 ≠ 15#4 →
      decode c .long64 (0xC4#8 :: p1 :: p2 :: 0x5B#8 :: (encodeRM reg src ++ rest)) =
        .invalid .vvvv) ∧
    (∀ p0 p1 p2 : Byte, p0.extractLsb' 0 4 = 1#4 → p1.extractLsb' 0 3 = 6#3 → bit p1 7 = false →
      p1.extractLsb' 3 4 ≠ 15#4 →
      decode c .long64 (0x62#8 :: p0 :: p1 :: p2 :: 0x5B#8 :: (encodeRM reg src ++ rest)) =
        .invalid .vvvv)

/-- R69, R70, R73, R82: the reserved values of the EVEX payload are `#UD` encodings: `P0[3:2]`, `P1[2]`,
`V̄'`, `z` without a mask, and `L'L = 11b` without `{sae}`. -/
def Obligations.EvexReservedFieldsAreInvalid : Prop :=
  ∀ (c : Config) (reg : BitVec 3) (src : RM) (rest : List Byte) (p0 p1 p2 : Byte), src.wf = true →
    p0.extractLsb' 0 2 = 1#2 → p1.extractLsb' 0 2 = 2#2 → bit p1 7 = false →
    (p0.extractLsb' 2 2 ≠ 0#2 ∨ bit p1 2 = false ∨ bit p2 3 = false ∨
      (bit p2 7 = true ∧ p2.extractLsb' 0 3 = 0#3) ∨
      (p2.extractLsb' 5 2 = 3#2 ∧ (bit p2 4 = false ∨ ∃ m, src = .mem m))) →
    ∃ r, decode c .long64 (0x62#8 :: p0 :: p1 :: p2 :: 0x5B#8 :: (encodeRM reg src ++ rest)) =
      .invalid r

/-- R62, R82: `LOCK` at any place among the prefixes of any form is a `#UD` encoding; `tail` is the
encoding after its prefixes. -/
def Obligations.LockPrefixIsInvalid : Prop :=
  ∀ (c : Config) (m : Mode) (i : Instr) (ps qs : List Prefix) (tail rest : List Byte),
    i.wf c m = true → i.pre = ps ++ qs → encode i = encodePre i.pre ++ tail →
    decode c m (encodePre ps ++ 0xF0#8 :: (encodePre qs ++ (tail ++ rest))) = .invalid .lock

/-- R66, R69, R82: a VEX or EVEX form (`tail`, its encoding after its prefixes) behind any prefixes with
`66`, `F2` or `F3` at any place among them, and behind any prefixes and a REX byte, is a `#UD` encoding of
row 9. `LOCK` is row 3 (`LockPrefixIsInvalid`), `67` outside 64-bit mode is refused before (entry 17). -/
def Obligations.PrefixBeforeVexIsInvalid : Prop :=
  ∀ (c : Config) (m : Mode) (i : Instr) (ps : List Prefix) (tail rest : List Byte),
    i.wf c m = true → i.cls ≠ .legacy → encode i = encodePre i.pre ++ tail →
    .lock ∉ ps → (m = .prot32 → .addressSize ∉ ps) →
    (.operandSize ∈ ps ∨ .repne ∈ ps ∨ .rep ∈ ps →
      decode c m (encodePre ps ++ (tail ++ rest)) = .invalid .prefixBeforeVex) ∧
    (m = .long64 → ∀ x : Rex,
      decode c m (encodePre ps ++ x.byte :: (tail ++ rest)) = .invalid .prefixBeforeVex)

/-- R62 (D18): `66` or `F2` with the mandatory `F3`, and a repeated prefix, are refused by name. -/
def Obligations.RedundantLegacyPrefixIsRefused : Prop :=
  ∀ (c : Config) (m : Mode) (i : Instr) (rest : List Byte), i.wf c m = true → i.cls = .legacy →
    (∀ p ∈ [0x66#8, 0xF2#8],
      decode c m (p :: (encode i ++ rest)) = .refused .conflictingPrefix) ∧
    (∀ p ∈ i.pre, decode c m (p.byte :: (encode i ++ rest)) = .refused .repeatedPrefix)

/-- R72: `b = 1` with a register source is `{sae}` at 512 bits for `L'L = 10b`, and for every `L'L` when
`SAE_IGNORES_LL`; otherwise refused. `b = 0` with a register source has no `{sae}`: `L'L` selects the length. -/
def Obligations.RegisterSourceEvexB : Prop :=
  ∀ (c : Config) (m : Mode) (pre : List Prefix) (e : EvexExt) (mask : Mask) (ll : BitVec 2)
    (reg rm : BitVec 3) (rest : List Byte), evexWf m pre e mask = true →
    let bytes := fun b : Bool =>
      encodePre pre ++ (encodeEvex e mask ll b ++ (modRMByte 3#2 reg rm :: rest))
    decode c m (bytes true) =
      (if ll = 2#2 ∨ c.saeIgnoresLL = true then .instr (.evex512Sae pre e mask ll reg rm) rest
        else .refused .saeLength) ∧
    decode c m (bytes false) =
      (if ll = 0#2 then .instr (.evex128 pre e mask reg (.reg rm)) rest
        else if ll = 1#2 then .instr (.evex256 pre e mask reg (.reg rm)) rest
        else if ll = 2#2 then .instr (.evex512 pre e mask reg (.reg rm)) rest
        else .invalid .vectorLength)

/-! ### Addresses -/

/-- R78: the scale `N` of `disp8` is 16, 32 or 64 for a full EVEX vector, 4 under broadcast, 1 for legacy
and VEX; the rest of the operand is the same. -/
def Obligations.Disp8IsScaled : Prop :=
  ∀ (m : Mode) (x b : Bool) (rm index base : BitVec 3) (ss : BitVec 2) (d : BitVec 8) (mem : Mem),
    (mem = .base rm (.disp8 d) ∨ mem = .sib ss index base (.disp8 d)) →
    let scaled := fun n : Nat =>
      { memRef m x b 1 mem with disp := BitVec.ofInt 64 (d.toInt * (n : Int)) }
    sourceEvex m x b .v128 (.mem mem) = .mem (scaled 16) ∧
    sourceEvex m x b .v256 (.mem mem) = .mem (scaled 32) ∧
    sourceEvex m x b .v512 (.mem mem) = .mem (scaled 64) ∧
    (∀ vl, sourceEvex m x b vl (.bcst mem) = .bcst (scaled 4)) ∧
    sourceRM m x b (.mem mem) = .mem (scaled 1)

/-- R74 to R77: the rows of R75's table and of R76, byte by byte: which operand the ModRM byte
`mod ++ reg ++ rm`, the SIB byte `ss ++ index ++ base` and the displacement bytes name, and where it ends. -/
def Obligations.ModRmAndSibBytes : Prop :=
  ∀ (reg rm index base : BitVec 3) (ss : BitVec 2) (d0 d1 d2 d3 : Byte) (rest : List Byte),
    let disp := d3 ++ d2 ++ d1 ++ d0
    let four := d0 :: d1 :: d2 :: d3 :: rest
    let sib := ss ++ index ++ base
    takeModRM ((3#2 ++ reg ++ rm) :: rest) = some (reg, .reg rm, rest) ∧
    takeModRM ((0#2 ++ reg ++ 5#3) :: four) = some (reg, .mem (.disp32 disp), rest) ∧
    (rm ≠ 4#3 →
      (rm ≠ 5#3 → takeModRM ((0#2 ++ reg ++ rm) :: rest) = some (reg, .mem (.base rm .absent), rest)) ∧
      takeModRM ((1#2 ++ reg ++ rm) :: d0 :: rest) = some (reg, .mem (.base rm (.disp8 d0)), rest) ∧
      takeModRM ((2#2 ++ reg ++ rm) :: four) = some (reg, .mem (.base rm (.disp32 disp)), rest)) ∧
    (base ≠ 5#3 → takeModRM ((0#2 ++ reg ++ 4#3) :: sib :: rest) =
      some (reg, .mem (.sib ss index base .absent), rest)) ∧
    takeModRM ((0#2 ++ reg ++ 4#3) :: (ss ++ index ++ 5#3) :: four) =
      some (reg, .mem (.sibNoBase ss index disp), rest) ∧
    takeModRM ((1#2 ++ reg ++ 4#3) :: sib :: d0 :: rest) =
      some (reg, .mem (.sib ss index base (.disp8 d0)), rest) ∧
    takeModRM ((2#2 ++ reg ++ 4#3) :: sib :: four) =
      some (reg, .mem (.sib ss index base (.disp32 disp)), rest)

/-- R75 to R77, R79: the base, index, scale and displacement of a memory operand under the extension bits
`X` and `B`. Base `B ++ r/m` or `B ++ base`, none for `SIB.base = 101b` with `mod = 00b`; no index exactly
for `X ++ index = 0100b`, so `R12` is one; RIP-relative in 64-bit mode only, with `RIP_next = RIP + len`;
under `67` the sum is truncated to 32 bits; no displacement is 0, a `disp32` is sign-extended, not scaled. -/
def Obligations.MemoryOperandForms : Prop :=
  (∀ (m : Mode) (x b : Bool) (n : Nat) (rm index base : BitVec 3) (ss : BitVec 2) (d : Disp)
    (d32 : BitVec 32),
    let names := fun (r : MemRef) (low : BitVec 3) => ∃ g, r.base = .gpr g ∧ g.toNat = 8 * b.toNat + low.toNat
    let indexed := fun (r : MemRef) =>
      (x = false ∧ index = 4#3 → r.index = none) ∧
      (x = true ∨ index ≠ 4#3 → ∃ g, r.index = some g ∧ g.toNat = 8 * x.toNat + index.toNat) ∧
      r.scale = ss
    let displaced := fun (r : MemRef) =>
      (d = .absent → r.disp = 0#64) ∧ (d = .disp32 d32 → r.disp = BitVec.ofInt 64 d32.toInt)
    let plain := memRef m x b n (.base rm d)
    let sib := memRef m x b n (.sib ss index base d)
    let noBase := memRef m x b n (.sibNoBase ss index d32)
    let disp32 := memRef m x b n (.disp32 d32)
    names plain rm ∧ plain.index = none ∧ displaced plain ∧
    names sib base ∧ indexed sib ∧ displaced sib ∧
    noBase.base = .absent ∧ indexed noBase ∧ noBase.disp = BitVec.ofInt 64 d32.toInt ∧
    (m = .long64 → disp32.base = .ripNext) ∧ (m ≠ .long64 → disp32.base = .absent) ∧
    disp32.index = none ∧ disp32.disp = BitVec.ofInt 64 d32.toInt) ∧
  (∀ (s : State) (i : Instr) (x b : Bool) (n : Nat) (d32 : BitVec 32), s.mode = .long64 →
    let next := s.rip + BitVec.ofNat 64 (encode i).length
    ((s.effectiveAddress (i.pre.contains .addressSize) next
        (memRef s.mode x b n (.disp32 d32))).toNat : Int) =
      (s.rip.toNat + (encode i).length + d32.toInt) %
        (if .addressSize ∈ i.pre then 2 ^ 32 else 2 ^ 64))

/-- R46: the effective address is base plus scaled index plus displacement modulo 2^64, or with 32-bit
addressing (`67`, or outside 64-bit mode) the sum of the low 32 bits modulo 2^32, zero-extended; no form
writes a base or index register. -/
def Obligations.EffectiveAddressIsTheSum : Prop :=
  (∀ (s : State) (ripNext : Quad) (r : MemRef),
    let base := match r.base with
      | .absent => 0#64
      | .gpr n => s.getGpr n
      | .ripNext => ripNext
    let index := match r.index with | none => 0#64 | some n => s.getGpr n;
    (s.effectiveAddress false ripNext r).toNat =
      (base.toNat + index.toNat * 2 ^ r.scale.toNat + r.disp.toNat) % 2 ^ 64 ∧
    (s.effectiveAddress true ripNext r).toNat =
      (base.toNat % 2 ^ 32 + index.toNat % 2 ^ 32 * 2 ^ r.scale.toNat + r.disp.toNat % 2 ^ 32) %
        2 ^ 32) ∧
  (∀ (s : State) (pre : List Prefix),
    s.addr32 pre = true ↔ s.mode ≠ .long64 ∨ .addressSize ∈ pre) ∧
  (∀ (i : Instr) (s t : State), exec i s = .next t → t.gpr = s.gpr)

/-- R47: the segment of an operand is the override if there is one, else `SS` for base register 4 or 5
after `B` (not for `R12` or `R13`), else `DS`. In 64-bit mode the linear address is the effective address,
plus the base of `FS` or `GS` for these two, modulo 2^64; outside it the low 32 bits of the effective
address. `RIP_next` is `RIP + len`. -/
def Obligations.LinearAddressAndSegment : Prop :=
  ∀ (s : State) (i : Instr) (r : MemRef),
    let next := s.rip + BitVec.ofNat 64 (encode i).length;
    (∀ g, noRepeat i.pre = true → .segment g ∈ i.pre → i.seg r = g) ∧
    ((∀ g, .segment g ∉ i.pre) →
      (∀ n, r.base = .gpr n → i.seg r = if n.toNat = 4 ∨ n.toNat = 5 then .ss else .ds) ∧
      (r.base = .ripNext ∨ r.base = .absent → i.seg r = .ds) ∧
      ∀ (m : Mode) (x b : Bool) (n : Nat) (low index : BitVec 3) (ss : BitVec 2) (d : Disp),
        i.seg (memRef m x b n (.base low d)) =
          (if b = false ∧ (low = 4#3 ∨ low = 5#3) then .ss else .ds) ∧
        i.seg (memRef m x b n (.sib ss index low d)) =
          (if b = false ∧ (low = 4#3 ∨ low = 5#3) then .ss else .ds)) ∧
    (s.mode = .long64 →
      let ea := s.effectiveAddress (i.pre.contains .addressSize) next r;
      (i.seg r = .fs → (s.operandAddress i r).toNat = (s.segs.fs.toNat + ea.toNat) % 2 ^ 64) ∧
      (i.seg r = .gs → (s.operandAddress i r).toNat = (s.segs.gs.toNat + ea.toNat) % 2 ^ 64) ∧
      (i.seg r ≠ .fs → i.seg r ≠ .gs → s.operandAddress i r = ea)) ∧
    (s.mode ≠ .long64 →
      (s.operandAddress i r).toNat = (s.effectiveAddress true next r).toNat % 2 ^ 32)

/-- R48: a linear address is canonical when bits 63:47 (63:56 with 57-bit addresses) are all equal. -/
def Obligations.CanonicalMeansEqualHighBits : Prop :=
  ∀ (c : Config) (a : Quad), canonical c a = true ↔
    ∀ k : Nat, (if c.la57 then 56 else 47) ≤ k → k < 64 → a.getLsbD k = a.getLsbD 63

/-! ### The conversion -/

/-- R11, R100, R102, R104: a finite value is truncated toward zero; the result is that integer in two's
complement, inexact exactly when the value is no integer; an integer that does not fit is Invalid. -/
def Obligations.ConversionTruncatesTowardZero : Prop :=
  ∀ x : Dword, f32Exp x ≠ 255 →
    (-(2 ^ 31) ≤ truncate (f32Value x) ∧ truncate (f32Value x) ≤ 2 ^ 31 - 1 →
      (cvtT x false).result.toInt = truncate (f32Value x) ∧ (cvtT x false).inv = false ∧
        ((cvtT x false).inexact = true ↔ (truncate (f32Value x) : Rat) ≠ f32Value x)) ∧
    (truncate (f32Value x) < -(2 ^ 31) ∨ 2 ^ 31 - 1 < truncate (f32Value x) →
      cvtT x false = ⟨0x80000000#32, true, false⟩)

/-- R102, R103: a NaN of either kind and an infinity are Invalid and give `80000000H`. -/
def Obligations.NonFiniteIsInvalid : Prop :=
  ∀ (x : Dword) (daz : Bool), x.extractLsb' 23 8 = 255#8 → cvtT x daz = ⟨0x80000000#32, true, false⟩

/-- R101, R24: under `DAZ` a denormal converts to 0 exactly; without it to 0 inexactly; `DAZ` changes nothing
else; `MXCSR.DE` is never set. In a form that completes, a selected denormal lane gives 0; with
`MXCSR.DAZ`, bit 6, at 0 and without `{sae}` it sets `PE`, bit 5; with bit 6 at 1 selected lanes that are
all denormal leave MXCSR as it was. -/
def Obligations.DenormalsFollowDaz : Prop :=
  (∀ x : Dword, x.extractLsb' 23 8 = 0#8 → x.extractLsb' 0 23 ≠ 0#23 →
    cvtT x true = ⟨0#32, false, false⟩ ∧ cvtT x false = ⟨0#32, false, true⟩) ∧
  (∀ x : Dword, x.extractLsb' 23 8 ≠ 0#8 ∨ x.extractLsb' 0 23 = 0#23 → cvtT x true = cvtT x false) ∧
  (∀ (i : Instr) (s t : State), exec i s = .next t →
    let denormal := fun j : Nat => (s.sourceLane i j).extractLsb' 23 8 = 0#8 ∧
      (s.sourceLane i j).extractLsb' 0 23 ≠ 0#23;
    (∀ j, j < lanesOf i.vl → s.selects i.mask j = true → denormal j →
      lane (t.getZmm i.dest) j = 0#32 ∧
      (s.mxcsr.getLsbD 6 = false → i.sae = false → t.mxcsr.getLsbD 5 = true)) ∧
    (s.mxcsr.getLsbD 6 = true →
      (∀ j, j < lanesOf i.vl → s.selects i.mask j = true → denormal j) → t.mxcsr = s.mxcsr)) ∧
  (∀ (i : Instr) (s t : State), exec i s = .next t → t.mxcsr.getLsbD 1 = s.mxcsr.getLsbD 1) ∧
  (∀ (i : Instr) (e : Exc) (s f : State), exec i s = .fault (.exception e f) →
    f.mxcsr.getLsbD 1 = s.mxcsr.getLsbD 1)

/-! ### Results: each form completes, with what (R111 to R117) -/

/-- R111, register source: both encodings of the legacy form complete; four lanes converted, the upper
bits unmodified. -/
def Obligations.LegacyRegisterResult : Prop :=
  ∀ (s : State) (pre : List Prefix) (rex : Rex) (reg rm : BitVec 3), s.legacyReady = true →
    (s.quiet 4 (fun _ => true) (lane (s.getZmm (vreg4 false rm))) = true →
      ∃ t, exec (.legacy pre reg (.reg rm)) s = .next t ∧
        Result s t (.legacy pre reg (.reg rm)) (lane (s.getZmm (vreg4 false rm)))
          (lane (s.getZmm (vreg4 false reg)))) ∧
    (s.quiet 4 (fun _ => true) (lane (s.getZmm (vreg4 rex.b rm))) = true →
      ∃ t, exec (.legacyRex pre rex reg (.reg rm)) s = .next t ∧
        Result s t (.legacyRex pre rex reg (.reg rm)) (lane (s.getZmm (vreg4 rex.b rm)))
          (lane (s.getZmm (vreg4 rex.r reg))))

/-- R111, memory source: 16 bytes at a 16-byte boundary. -/
def Obligations.LegacyMemoryResult : Prop :=
  ∀ (s : State) (i : Instr) (pre : List Prefix) (rex : Rex) (reg : BitVec 3) (m : Mem) (a : Quad),
    (i = .legacy pre reg (.mem m) ∧
        a = s.operandAddress i (memRef s.mode false false 1 m) ∨
      i = .legacyRex pre rex reg (.mem m) ∧
        a = s.operandAddress i (memRef s.mode rex.x rex.b 1 m)) →
    s.legacyReady = true → a.toNat % 16 = 0 → s.operandOk a 16 = true →
    s.quiet 4 (fun _ => true) (s.memLane a) = true →
    ∃ t, exec i s = .next t ∧ Result s t i (s.memLane a) (lane (s.getZmm i.dest))

/-- R112, R113, register source: the VEX forms, both prefixes; the upper bits are zeroed. -/
def Obligations.VexRegisterResult : Prop :=
  ∀ (s : State) (i : Instr) (pre : List Prefix) (r : Bool) (v : Vex3) (reg rm : BitVec 3)
    (n : BitVec 5),
    (i = .vex128C5 pre r reg (.reg rm) ∧ n = vreg4 false rm ∨
      i = .vex128C4 pre v reg (.reg rm) ∧ n = vreg4 v.b rm ∨
      i = .vex256C5 pre r reg (.reg rm) ∧ n = vreg4 false rm ∨
      i = .vex256C4 pre v reg (.reg rm) ∧ n = vreg4 v.b rm) →
    s.vexReady = true → lanesOf i.vl ≤ lanesOf s.cfg.maxVL →
    s.quiet (lanesOf i.vl) (fun _ => true) (lane (s.getZmm n)) = true →
    ∃ t, exec i s = .next t ∧ Result s t i (lane (s.getZmm n)) (fun _ => 0#32)

/-- R112, R113, memory source: 16 or 32 bytes, any alignment. -/
def Obligations.VexMemoryResult : Prop :=
  ∀ (s : State) (i : Instr) (pre : List Prefix) (r : Bool) (v : Vex3) (reg : BitVec 3) (m : Mem)
    (a : Quad),
    (i = .vex128C5 pre r reg (.mem m) ∧
        a = s.operandAddress i (memRef s.mode false false 1 m) ∨
      i = .vex128C4 pre v reg (.mem m) ∧
        a = s.operandAddress i (memRef s.mode v.x v.b 1 m) ∨
      i = .vex256C5 pre r reg (.mem m) ∧
        a = s.operandAddress i (memRef s.mode false false 1 m) ∨
      i = .vex256C4 pre v reg (.mem m) ∧
        a = s.operandAddress i (memRef s.mode v.x v.b 1 m)) →
    s.vexReady = true → lanesOf i.vl ≤ lanesOf s.cfg.maxVL →
    s.operandOk a (4 * lanesOf i.vl) = true →
    s.quiet (lanesOf i.vl) (fun _ => true) (s.memLane a) = true →
    ∃ t, exec i s = .next t ∧ Result s t i (s.memLane a) (fun _ => 0#32)

/-- R114 to R117, register source: the three EVEX lengths under a write mask; the bits above `VL` are
zeroed whatever the mask holds. -/
def Obligations.EvexRegisterResult : Prop :=
  ∀ (s : State) (i : Instr) (pre : List Prefix) (e : EvexExt) (mask : Mask) (reg rm : BitVec 3),
    (i = .evex128 pre e mask reg (.reg rm) ∨ i = .evex256 pre e mask reg (.reg rm) ∨
      i = .evex512 pre e mask reg (.reg rm)) →
    s.evexReady = true → (i.vl ≠ .v512 → s.cfg.hasAVX512VL = true) →
    lanesOf i.vl ≤ lanesOf s.cfg.maxVL →
    s.quiet (lanesOf i.vl) (s.selects mask) (lane (s.getZmm (vreg5 e.x e.b rm))) = true →
    ∃ t, exec i s = .next t ∧ Result s t i (lane (s.getZmm (vreg5 e.x e.b rm))) (fun _ => 0#32)

/-- R114 to R117, memory source, with R51: only the bytes of the selected lanes need be readable; legality
is asked of the whole operand. -/
def Obligations.EvexMemoryResult : Prop :=
  ∀ (s : State) (i : Instr) (pre : List Prefix) (e : EvexExt) (mask : Mask) (reg : BitVec 3) (m : Mem)
    (a : Quad),
    (i = .evex128 pre e mask reg (.mem m) ∨ i = .evex256 pre e mask reg (.mem m) ∨
      i = .evex512 pre e mask reg (.mem m)) →
    a = s.operandAddress i (memRef s.mode e.x e.b (4 * lanesOf i.vl) m) →
    s.evexReady = true → (i.vl ≠ .v512 → s.cfg.hasAVX512VL = true) →
    lanesOf i.vl ≤ lanesOf s.cfg.maxVL → s.operandLegal a (4 * lanesOf i.vl) = true →
    s.alignmentSettled a (4 * lanesOf i.vl) = true → s.selectedReadable i a = true →
    s.quiet (lanesOf i.vl) (s.selects mask) (s.memLane a) = true →
    ∃ t, exec i s = .next t ∧ Result s t i (s.memLane a) (fun _ => 0#32)

/-- R71, R114 to R117, broadcast: the doubleword at `A` is the source of every lane; four bytes are read. -/
def Obligations.EvexBroadcastResult : Prop :=
  ∀ (s : State) (i : Instr) (pre : List Prefix) (e : EvexExt) (mask : Mask) (reg : BitVec 3) (m : Mem)
    (a : Quad),
    (i = .evex128 pre e mask reg (.bcst m) ∨ i = .evex256 pre e mask reg (.bcst m) ∨
      i = .evex512 pre e mask reg (.bcst m)) →
    a = s.operandAddress i (memRef s.mode e.x e.b 4 m) →
    s.evexReady = true → (i.vl ≠ .v512 → s.cfg.hasAVX512VL = true) →
    lanesOf i.vl ≤ lanesOf s.cfg.maxVL → s.operandOk a 4 = true →
    s.quiet (lanesOf i.vl) (s.selects mask) (fun _ => s.memLane a 0) = true →
    ∃ t, exec i s = .next t ∧ Result s t i (fun _ => s.memLane a 0) (fun _ => 0#32)

/-- R107: under `{sae}` the instruction completes whatever MXCSR masks, with the results of R102 under the
state's `DAZ`, and MXCSR is unchanged; it is otherwise the form without `{sae}` at `IM = PM = 1`. -/
def Obligations.SaeSuppressesAllExceptions : Prop :=
  ∀ (s : State) (pre : List Prefix) (e : EvexExt) (mask : Mask) (ll : BitVec 2) (reg rm : BitVec 3),
    s.evexReady = true → s.cfg.maxVL = .v512 →
    ∃ t, exec (.evex512Sae pre e mask ll reg rm) s = .next t ∧ t.mxcsr = s.mxcsr ∧
      Result s t (.evex512Sae pre e mask ll reg rm) (lane (s.getZmm (vreg5 e.x e.b rm)))
        (fun _ => 0#32) ∧
      ∃ u, exec (.evex512 pre e mask reg (.reg rm)) { s with mxcsr := s.mxcsr ||| 0x1080#32 } =
        .next u ∧ t = { u with mxcsr := s.mxcsr }

/-- R106: with `IM = PM = 1` no form raises a SIMD floating-point exception, and each active lane of a form
that completes holds its conversion, `80000000H` in an Invalid one; a form with a register source completes. -/
def Obligations.MaskedResponseByLane : Prop :=
  ∀ (i : Instr) (s : State), mxcsrIM s.mxcsr = true → mxcsrPM s.mxcsr = true → s.ready i = true →
    (∀ e f, exec i s = .fault (.exception e f) → e ≠ .xm ∧ e ≠ .ud) ∧
    (∀ t, exec i s = .next t → ∀ j, j < lanesOf i.vl → s.selects i.mask j = true →
      lane (t.getZmm i.dest) j = (s.conv (s.sourceLane i j)).result ∧
      ((s.conv (s.sourceLane i j)).inv = true → lane (t.getZmm i.dest) j = 0x80000000#32)) ∧
    (∀ n, i.source s.mode = .reg n → ∃ t, exec i s = .next t)

/-- R21: what each class of form does above its vector length. -/
def Obligations.UpperBitsByForm : Prop :=
  ∀ (i : Instr) (s t : State) (j : Nat), exec i s = .next t → lanesOf i.vl ≤ j → j < 16 →
    lane (t.getZmm i.dest) j = if i.cls = .legacy then lane (s.getZmm i.dest) j else 0#32

/-- R108: a selected lane of the result depends only on the same lane of the source and on `DAZ`, whatever
the registers that hold source and destination, the same one or two; a lane that the mask bit deselects does
not depend on the source at all. -/
def Obligations.LanesAreIndependent : Prop :=
  (∀ (i i' : Instr) (s s' t t' : State) (j : Nat), exec i s = .next t → exec i' s' = .next t' →
    j < lanesOf i.vl → j < lanesOf i'.vl → s.selects i.mask j = true → s'.selects i'.mask j = true →
    mxcsrDAZ s.mxcsr = mxcsrDAZ s'.mxcsr → s.sourceLane i j = s'.sourceLane i' j →
    lane (t.getZmm i.dest) j = lane (t'.getZmm i'.dest) j) ∧
  (∀ (i : Instr) (s t : State) (j : Nat), exec i s = .next t → j < lanesOf i.vl →
    s.selects i.mask j = false → lane (t.getZmm i.dest) j = s.maskedOff i.dest i.mask j)

/-- R25: of MXCSR a form reads only `DAZ`, `IM` and `PM`: any other MXCSR that agrees on them gives the
same registers and the same `RIP`. It writes only `IE` and `PE`, never from 1 to 0, and under `{sae}` nothing. -/
def Obligations.OtherMxcsrFieldsAreNotRead : Prop :=
  ∀ (i : Instr) (s t : State), exec i s = .next t →
    (∀ m : BitVec 32, mxcsrDAZ m = mxcsrDAZ s.mxcsr → mxcsrIM m = mxcsrIM s.mxcsr →
      mxcsrPM m = mxcsrPM s.mxcsr →
      ∃ t', exec i { s with mxcsr := m } = .next t' ∧ t'.zmm = t.zmm ∧ t'.rip = t.rip) ∧
    (∀ k, k ≠ 0 → k ≠ 5 → t.mxcsr.getLsbD k = s.mxcsr.getLsbD k) ∧
    (∀ k, s.mxcsr.getLsbD k = true → t.mxcsr.getLsbD k = true) ∧
    (i.sae = true → t.mxcsr = s.mxcsr)

/-- R133: a form with a register source executes identically at every privilege level. -/
def Obligations.UnprivilegedForms : Prop :=
  ∀ (i : Instr) (s t : State) (n : BitVec 5) (p : BitVec 2), i.source s.mode = .reg n →
    exec i s = .next t → exec i { s with cpl := p } = .next { t with cpl := p }

/-! ### Frames and faults -/

/-- R32: a form that completes writes only its destination register, `MXCSR.IE` and `MXCSR.PE` (only from
0 to 1) and `RIP`; every byte of memory reads as before. -/
def Obligations.CompletionFrame : Prop :=
  ∀ (i : Instr) (s t : State), exec i s = .next t → FrameR32 i.dest s t

/-- R132: the state of a fault is the state before, but for the flags of R105 at a SIMD floating-point fault
and `CR2` at a page fault; so for an instruction, and for a step, whatever it fetched. -/
def Obligations.FaultsArePrecise : Prop :=
  (∀ (i : Instr) (e : Exc) (s f : State), exec i s = .fault (.exception e f) →
    (∀ code a, e = .pf code a → f = { s with cr2 := a }) ∧
    ((∀ code a, e ≠ .pf code a) →
      f = s ∧ e ≠ .xm ∨
      f = { s with mxcsr := s.flagsAtFault i (s.sourceLane i) } ∧
        e = if s.cr4.getLsbD 10 then .xm else .ud)) ∧
  (∀ (e : Exc) (s f : State), step s = .fault (.exception e f) →
    (∀ code a, e = .pf code a → f = { s with cr2 := a }) ∧
    ((∀ code a, e ≠ .pf code a) → ∃ m, f = { s with mxcsr := m } ∧
      (∀ k, k ≠ 0 → k ≠ 5 → m.getLsbD k = s.mxcsr.getLsbD k) ∧
      (∀ k, s.mxcsr.getLsbD k = true → m.getLsbD k = true)))

/-- R122: `CR0.TS = 1` raises `#NM` in every form that has no invalid-opcode condition, before any memory
access; a form that has one, in its bytes or in the state, raises `#UD` first. -/
def Obligations.TaskSwitchedRaisesNm : Prop :=
  ∀ (i : Instr) (s : State), s.mode.inScope = true → s.cr0.getLsbD 3 = true →
    (s.withoutTS.ready i = true → exec i s = .fault (.exception .nm s)) ∧
    (s.withoutTS.ready i = false → exec i s = .fault (.exception .ud s)) ∧
    (∀ r, s.launchRefusal = none → decode s.cfg s.mode s.codeWindow.1 = .invalid r →
      step s = .fault (.exception .ud s))

/-- R121 rows 2, 4 to 8 and 14, R118: the conditions that raise `#UD` in each class of form. -/
def Obligations.InvalidOpcodeConditions : Prop :=
  ∀ (i : Instr) (s : State),
    (i.cls = .legacy → s.mode.inScope = true →
      (s.cfg.hasSSE2 = false ∨ s.cr0.getLsbD 2 = true ∨ s.cr4.getLsbD 9 = false) →
      exec i s = .fault (.exception .ud s)) ∧
    (i.cls = .vex →
      (s.cfg.hasAVX = false ∨ lanesOf s.cfg.maxVL < lanesOf i.vl ∨ s.cr4.getLsbD 18 = false ∨
        s.xcr0.getLsbD 1 = false ∨ s.xcr0.getLsbD 2 = false ∨ s.mode.inScope = false) →
      exec i s = .fault (.exception .ud s)) ∧
    (i.cls = .evex →
      (s.cfg.hasAVX512F = false ∨ (s.cfg.hasAVX512VL = false ∧ i.vl ≠ .v512) ∨
        lanesOf s.cfg.maxVL < lanesOf i.vl ∨ s.cr4.getLsbD 18 = false ∨ s.xcr0.getLsbD 1 = false ∨
        s.xcr0.getLsbD 2 = false ∨ s.xcr0.getLsbD 5 = false ∨ s.xcr0.getLsbD 6 = false ∨
        s.xcr0.getLsbD 7 = false ∨ s.mode.inScope = false) →
      exec i s = .fault (.exception .ud s))

/-- R43, R124, R128 (D27): a legacy form with a memory operand off the 16-byte boundary raises `#GP(0)`,
whatever else is wrong with its address. -/
def Obligations.LegacyMisalignmentRaisesGp : Prop :=
  ∀ (i : Instr) (s : State) (r : MemRef) (n : Nat), i.cls = .legacy → i.memory s.mode = some (r, n) →
    s.ready i = true → (s.operandAddress i r).toNat % 16 ≠ 0 → exec i s = .fault (.exception .gp s)

/-- R48, R49, R123, R124: an operand with a byte at a non-canonical address, or beyond the limit of a flat
segment outside 64-bit mode, raises `#SS(0)` through `SS` and `#GP(0)` otherwise. -/
def Obligations.IllegalOperandAddressFaults : Prop :=
  ∀ (i : Instr) (s : State) (r : MemRef) (n : Nat), i.memory s.mode = some (r, n) →
    s.ready i = true → (i.cls = .legacy → (s.operandAddress i r).toNat % 16 = 0) →
    ((s.mode = .long64 ∧
        ∃ k, k < n ∧ canonical s.cfg (s.operandAddress i r + BitVec.ofNat 64 k) = false) ∨
      (s.mode = .prot32 ∧ 2 ^ 32 - 1 < (s.operandAddress i r).toNat + n - 1)) →
    exec i s = .fault (.exception (if i.seg r = .ss then .ss else .gp) s)

/-- R125, R132: where `Translate` fails for a byte of a selected lane, the form raises `#PF` with that
code, and `CR2` records the byte's linear address. -/
def Obligations.OperandPageFault : Prop :=
  ∀ (i : Instr) (s : State) (r : MemRef) (j k : Nat) (code : BitVec 32),
    i.source s.mode = .mem r → s.ready i = true →
    s.alignmentSettled (s.operandAddress i r) (4 * lanesOf i.vl) = true →
    s.operandLegal (s.operandAddress i r) (4 * lanesOf i.vl) = true →
    (i.cls = .legacy → (s.operandAddress i r).toNat % 16 = 0) →
    j < lanesOf i.vl → s.selects i.mask j = true → k < 4 →
    translateByte s.xlate .read s.cpl (s.operandAddress i r + BitVec.ofNat 64 (4 * j + k)).toNat =
      .error code →
    ∃ j' k' code', j' < lanesOf i.vl ∧ s.selects i.mask j' = true ∧ k' < 4 ∧
      translateByte s.xlate .read s.cpl (s.operandAddress i r + BitVec.ofNat 64 (4 * j' + k')).toNat =
        .error code' ∧
      exec i s = .fault (.exception
        (.pf code' (s.operandAddress i r + BitVec.ofNat 64 (4 * j' + k')))
        { s with cr2 := s.operandAddress i r + BitVec.ofNat 64 (4 * j' + k') })

/-- R51, R125: under broadcast the one doubleword is read when some lane is selected; where `Translate`
fails for a byte of it, the form raises `#PF`. -/
def Obligations.BroadcastPageFault : Prop :=
  ∀ (i : Instr) (s : State) (r : MemRef) (j k : Nat) (code : BitVec 32),
    i.source s.mode = .bcst r → s.ready i = true →
    s.alignmentSettled (s.operandAddress i r) 4 = true →
    s.operandLegal (s.operandAddress i r) 4 = true →
    j < lanesOf i.vl → s.selects i.mask j = true → k < 4 →
    translateByte s.xlate .read s.cpl (s.operandAddress i r + BitVec.ofNat 64 k).toNat = .error code →
    ∃ k' code', k' < 4 ∧
      translateByte s.xlate .read s.cpl (s.operandAddress i r + BitVec.ofNat 64 k').toNat =
        .error code' ∧
      exec i s = .fault (.exception (.pf code' (s.operandAddress i r + BitVec.ofNat 64 k'))
        { s with cr2 := s.operandAddress i r + BitVec.ofNat 64 k' })

/-- R5, R44, R54 (D11): a memory operand whose read bytes all have a translation and one of which is at a
linear address outside the launch memory is refused, naming such a byte of the operand; so for a full
operand (the bytes of the selected lanes) and under broadcast (the four bytes, if a lane is selected). -/
def Obligations.OperandOutsideLaunchMemoryIsRefused : Prop :=
  ∀ (i : Instr) (s : State) (r : MemRef) (j k : Nat), s.ready i = true →
    j < lanesOf i.vl → s.selects i.mask j = true → k < 4 →
    let byte := fun n : Nat => (s.operandAddress i r + BitVec.ofNat 64 n).toNat
    let mapped := fun n : Nat => ∃ p, translateByte s.xlate .read s.cpl (byte n) = .ok p;
    (i.source s.mode = .mem r →
      s.alignmentSettled (s.operandAddress i r) (4 * lanesOf i.vl) = true →
      s.operandLegal (s.operandAddress i r) (4 * lanesOf i.vl) = true →
      (i.cls = .legacy → (s.operandAddress i r).toNat % 16 = 0) →
      (∀ j k, j < lanesOf i.vl → s.selects i.mask j = true → k < 4 → mapped (4 * j + k)) →
      s.ordinary (byte (4 * j + k)) = false →
      ∃ j' k', j' < lanesOf i.vl ∧ s.selects i.mask j' = true ∧ k' < 4 ∧
        s.ordinary (byte (4 * j' + k')) = false ∧
        exec i s = .refused (.notOrdinaryMemory (byte (4 * j' + k')))) ∧
    (i.source s.mode = .bcst r →
      s.alignmentSettled (s.operandAddress i r) 4 = true →
      s.operandLegal (s.operandAddress i r) 4 = true →
      (∀ k, k < 4 → mapped k) → s.ordinary (byte k) = false →
      ∃ k', k' < 4 ∧ s.ordinary (byte k') = false ∧
        exec i s = .refused (.notOrdinaryMemory (byte k')))

/-- R127 (D22; entries 13 and 31, the model's choice): with alignment checking armed and a misaligned
operand, a VEX or EVEX form with a full memory operand, or with the 4-byte broadcast, raises `#AC(0)` with
the state as before, or completes as it does unarmed; which of the two is a free value. -/
def Obligations.ArmedAlignmentCheckFaultsOrCompletes : Prop :=
  ∀ (i : Instr) (s : State) (r : MemRef), s.ready i = true → s.alignmentChecked = true →
    (i.cls ≠ .legacy → i.source s.mode = .mem r →
      s.operandLegal (s.operandAddress i r) (4 * lanesOf i.vl) = true →
      s.selectedReadable i (s.operandAddress i r) = true →
      s.quietFor i (s.memLane (s.operandAddress i r)) = true →
      (s.operandAddress i r).toNat % (4 * lanesOf i.vl) ≠ 0 →
      exec i s = .fault (.exception .ac s) ∨
        ∃ t, exec i s = .next t ∧ Result s t i (s.memLane (s.operandAddress i r)) (fun _ => 0#32)) ∧
    (i.source s.mode = .bcst r →
      s.operandLegal (s.operandAddress i r) 4 = true →
      s.readable (bytesFrom (s.operandAddress i r) 4) = true →
      s.quietFor i (fun _ => s.memLane (s.operandAddress i r) 0) = true →
      (s.operandAddress i r).toNat % 4 ≠ 0 →
      exec i s = .fault (.exception .ac s) ∨
        ∃ t, exec i s = .next t ∧
          Result s t i (fun _ => s.memLane (s.operandAddress i r) 0) (fun _ => 0#32))

/-- R105, R126: a form whose source can be read raises `#XM`, or `#UD` when `CR4.OSXMMEXCPT = 0`, exactly
when it signals something unmasked without `{sae}`, and then only the flags of R105 differ from the state
before; otherwise it completes, with the flags set and the results written. -/
def Obligations.SimdExceptionOrResult : Prop :=
  ∀ (i : Instr) (s : State), s.ready i = true → s.sourceOk i = true →
    (s.quietFor i (s.sourceLane i) = false →
      exec i s = .fault (.exception (if s.cr4.getLsbD 10 then .xm else .ud)
        { s with mxcsr := s.flagsAtFault i (s.sourceLane i) })) ∧
    (s.quietFor i (s.sourceLane i) = true → ∃ t, exec i s = .next t ∧
      Result s t i (s.sourceLane i)
        (fun j => if i.cls = .legacy then lane (s.getZmm i.dest) j else 0#32))

/-- R4, D1: a legacy form in real-address or virtual-8086 mode is refused by name. -/
def Obligations.LegacyOutOfScopeIsRefused : Prop :=
  ∀ (i : Instr) (s : State), i.cls = .legacy → s.mode.inScope = false →
    exec i s = .refused .modeOutOfScope

/-! ### The machine -/

/-- R110: when the bytes at `RIP` decode to an instruction, the step is that instruction's execution and
nothing more. -/
def Obligations.StepRunsTheDecodedInstruction : Prop :=
  ∀ (s : State) (i : Instr) (rest : List Byte), s.launchRefusal = none →
    decode s.cfg s.mode s.codeWindow.1 = .instr i rest → step s = exec i s

/-- R40, R60, R110, R125, R128: when the bytes of a well-formed instruction stand at `RIP`, the step executes
it, whatever stands after them. That it does so even where nothing can be fetched after them is entry 29
(DEDUCED: the model's reading of R125 and R128, that an instruction's fetch touches its own bytes only). -/
def Obligations.StepRunsTheInstructionAtRip : Prop :=
  ∀ (s : State) (i : Instr), s.launchRefusal = none → i.wf s.cfg s.mode = true →
    (List.range (encode i).length).map (fun k => s.codeByte (s.rip.toNat + k)) =
      (encode i).map Except.ok →
    step s = exec i s

/-- R82, R121: a `#UD` encoding at `RIP` raises `#UD` with the state as before. -/
def Obligations.InvalidEncodingRaisesUd : Prop :=
  ∀ (s : State) (r : UdReason), s.launchRefusal = none →
    decode s.cfg s.mode s.codeWindow.1 = .invalid r → step s = .fault (.exception .ud s)

/-- R60, R124, R128: fifteen prefix bytes with no end of the instruction in sight raise `#GP(0)`. -/
def Obligations.OverlongInstructionRaisesGp : Prop :=
  ∀ (s : State) (ps : List Prefix), s.launchRefusal = none → s.mode.inScope = true →
    ps.length = 15 →
    (List.range 15).map (fun k => s.codeByte (s.rip.toNat + k)) =
      ps.map (fun p => Except.ok p.byte) →
    step s = .fault (.exception .gp s)

/-- R125, R128: a page fault on the first code byte is raised before anything else. -/
def Obligations.FetchPageFault : Prop :=
  ∀ (s : State) (code : BitVec 32), s.launchRefusal = none → s.mode.inScope = true →
    s.codeAddressOk s.rip.toNat = true →
    translateByte s.xlate .fetch s.cpl s.rip.toNat = .error code →
    step s = .fault (.exception (.pf code s.rip) { s with cr2 := s.rip })

/-- The invariant: canonical memory, reserved MXCSR bits 0 (R24), consistent parameters (R118), nothing
above `MAX_VL` (R20), no high registers without AVX512F (R22). Every step keeps it. -/
def Obligations.StepKeepsInvariant : Prop :=
  ∀ s t : State, s.Inv → step s = .next t → t.Inv

/-- The state after reset meets the invariant. -/
def Obligations.ResetMeetsInvariant : Prop := State.reset.Inv

/-- R32, R44, R53, R133: no step changes memory, a general or opmask register, RFLAGS, a segment or control
register, the mode, the privilege level or the configuration, and none clears a bit of MXCSR. -/
def Obligations.StepWritesNoOtherState : Prop :=
  ∀ s t : State, step s = .next t →
    t.mem = s.mem ∧ t.gpr = s.gpr ∧ t.k = s.k ∧ t.rflags = s.rflags ∧ t.segs = s.segs ∧
    t.cr0 = s.cr0 ∧ t.cr2 = s.cr2 ∧ t.cr4 = s.cr4 ∧ t.xcr0 = s.xcr0 ∧ t.mode = s.mode ∧
    t.cpl = s.cpl ∧ t.cfg = s.cfg ∧ t.ram = s.ram ∧ t.xlate = s.xlate ∧
    ∀ k, s.mxcsr.getLsbD k = true → t.mxcsr.getLsbD k = true

/-- R33: the values it gives for the state after power-up. -/
def Obligations.ResetValues : Prop :=
  (∀ n, State.reset.getZmm n = 0#512) ∧ (∀ n, State.reset.getK n = 0#64) ∧
  (∀ n, n ≠ 0#4 → n ≠ 2#4 → State.reset.getGpr n = 0#64) ∧
  State.reset.mxcsr = 0x00001F80#32 ∧ State.reset.cr0 = 0x60000010#64 ∧ State.reset.cr4 = 0#64 ∧
  State.reset.xcr0 = 1#64 ∧ State.reset.rflags = 2#64 ∧ State.reset.mode = .real ∧
  State.reset.segs.cs = 0xFFFF0000#64 ∧ State.reset.rip = 0xFFF0#64 ∧
  State.reset.codeAddress 0 = 0xFFFFFFF0
end

