-- ==== Sys2Proof/Laws/Decode.lean ====
section
/-!
SUPPORT. The pieces of decoding and encoding: prefixes, ModRM with what belongs to it, payload bytes.
-/

namespace Sys2Proof

-- One theorem at a time, as in Sys2Proof/Tests/Slice0.lean.
set_option Elab.async false

/-! ### Prefixes -/

/-- The prefix a byte is written for. -/
@[simp] theorem Prefix.ofByte_byte (p : Prefix) : Prefix.ofByte p.byte = some p := by
  cases p with
  | segment r => cases r <;> decide
  | _ => decide

/-- A byte that is a prefix is that prefix's byte. -/
theorem Prefix.byte_of_ofByte {b : Byte} {p : Prefix} (h : Prefix.ofByte b = some p) : p.byte = b := by
  revert b; cases p with
  | segment r => cases r <;> decide +kernel
  | _ => decide +kernel

/-- The scan reads prefixes up to the first byte that is none. -/
theorem scanPrefixes_encodePre (pre : List Prefix) {b : Byte} (bs : List Byte)
    (h : Prefix.ofByte b = none) : scanPrefixes (encodePre pre ++ b :: bs) = (pre, b :: bs) := by
  induction pre with
  | nil => simp [encodePre, scanPrefixes, h]
  | cons p t ih => simp only [encodePre] at ih; simp [encodePre, scanPrefixes, ih]

/-- The scan splits the bytes. -/
theorem scanPrefixes_split (bs : List Byte) :
    encodePre (scanPrefixes bs).1 ++ (scanPrefixes bs).2 = bs := by
  induction bs with
  | nil => rfl
  | cons b bs ih =>
    unfold scanPrefixes
    split
    · rfl
    · rename_i p hp
      simp only [encodePre] at ih
      simp [encodePre, Prefix.byte_of_ofByte hp, ih]

/-! ### ModRM and SIB bytes -/

@[simp] theorem modRMByte_mod (a : BitVec 2) (b c : BitVec 3) : (modRMByte a b c).extractLsb' 6 2 = a := by
  revert a b c; decide +kernel

@[simp] theorem modRMByte_reg (a : BitVec 2) (b c : BitVec 3) : (modRMByte a b c).extractLsb' 3 3 = b := by
  revert a b c; decide +kernel

@[simp] theorem modRMByte_rm (a : BitVec 2) (b c : BitVec 3) : (modRMByte a b c).extractLsb' 0 3 = c := by
  revert a b c; decide +kernel

/-- A byte is its three fields. -/
theorem modRMByte_fields (x : Byte) :
    modRMByte (x.extractLsb' 6 2) (x.extractLsb' 3 3) (x.extractLsb' 0 3) = x := by
  revert x; decide +kernel

/-- The four bytes of a displacement give it back. -/
theorem takeDisp32_encode (d : BitVec 32) (rest : List Byte) :
    takeDisp32 (encodeDisp32 d ++ rest) = some (d, rest) := by
  simp only [encodeDisp32, List.cons_append, List.nil_append, takeDisp32, Option.some.injEq,
    Prod.mk.injEq, and_true]
  apply BitVec.eq_of_getLsbD_eq
  intro i hi
  simp only [BitVec.getLsbD_append, BitVec.getLsbD_extractLsb']
  split
  · simp_all
  · split
    · rename_i h1 h2; simp [show i - 8 < 8 by omega, show 8 + (i - 8) = i by omega]
    · split
      · rename_i h1 h2 h3
        simp [show i - 8 - 8 < 8 by omega, show 16 + (i - 8 - 8) = i by omega]
      · simp [show i - 8 - 8 - 8 < 8 by omega, show 24 + (i - 8 - 8 - 8) = i by omega]

/-- What is read as a displacement is its encoding. -/
theorem takeDisp32_eq {bs rest : List Byte} {d : BitVec 32} (h : takeDisp32 bs = some (d, rest)) :
    bs = encodeDisp32 d ++ rest := by
  unfold takeDisp32 at h
  split at h
  · rename_i b0 b1 b2 b3 r
    simp only [Option.some.injEq, Prod.mk.injEq] at h
    obtain ⟨rfl, rfl⟩ := h
    simp only [encodeDisp32, List.cons_append, List.nil_append, List.cons.injEq, and_true]
    refine ⟨?_, ?_, ?_, ?_⟩ <;>
    · apply BitVec.eq_of_getLsbD_eq
      intro i hi
      simp only [BitVec.getLsbD_extractLsb', BitVec.getLsbD_append, hi, decide_true, Bool.true_and]
      simp [hi, show ¬ 8 + i < 8 by omega, show ¬ 16 + i < 8 by omega,
        show ¬ 24 + i < 8 by omega, show 8 + i - 8 = i by omega, show 16 + i - 8 - 8 = i by omega,
        show 24 + i - 8 - 8 - 8 = i by omega, show ¬ 16 + i - 8 < 8 by omega,
        show ¬ 24 + i - 8 < 8 by omega, show ¬ 24 + i - 8 - 8 < 8 by omega]
  · cases h

/-- The displacement that `mod` announces. -/
theorem takeDisp_encode (d : Disp) (rest : List Byte) :
    takeDisp d.mod (encodeDisp d ++ rest) = some (d, rest) := by
  cases d with
  | absent => simp [takeDisp, Disp.mod, encodeDisp]
  | disp8 d => simp [takeDisp, Disp.mod, encodeDisp]
  | disp32 d => simp [takeDisp, Disp.mod, encodeDisp, takeDisp32_encode]

/-- What is read as a displacement announces itself with `mod` and is its encoding. -/
theorem takeDisp_eq {mod : BitVec 2} {bs rest : List Byte} {d : Disp} (hm : mod ≠ 3#2)
    (h : takeDisp mod bs = some (d, rest)) : mod = d.mod ∧ bs = encodeDisp d ++ rest := by
  unfold takeDisp at h
  split at h
  · split at h
    · cases h; simp_all [Disp.mod, encodeDisp]
    · cases h
  · split at h
    · split at h
      · rename_i d' r' hd
        cases h
        exact ⟨by simp_all [Disp.mod], takeDisp32_eq hd⟩
      · cases h
    · cases h
      refine ⟨?_, rfl⟩
      rename_i h1 h2
      revert mod; decide

/-- No displacement form has `mod = 11b`. -/
theorem Disp.mod_ne_three (d : Disp) : d.mod ≠ 3#2 := by cases d <;> simp [Disp.mod]

/-- `mod = 00b` announces no displacement. -/
theorem Disp.mod_eq_zero {d : Disp} : d.mod = 0#2 ↔ d = .absent := by
  cases d <;> simp [Disp.mod]

/-! ### Source operands -/

/-- ModRM and what belongs to it give back a well-formed operand. -/
theorem takeModRM_encodeRM (reg : BitVec 3) (src : RM) (rest : List Byte) (h : src.wf = true) :
    takeModRM (encodeRM reg src ++ rest) = some (reg, src, rest) := by
  cases src with
  | reg rm => simp [encodeRM, takeModRM]
  | mem m =>
    cases m with
    | base rm d =>
      have h' : rm ≠ 4#3 ∧ ¬ (d.mod = 0#2 ∧ rm = 5#3) := by
        simp only [RM.wf, Mem.wf, Bool.and_eq_true, bne_iff_ne, Bool.not_eq_true', Bool.and_eq_false_iff,
          beq_eq_false_iff_ne] at h
        rw [Disp.mod_eq_zero]; tauto
      simp [encodeRM, encodeMem, takeModRM, takeMem, Disp.mod_ne_three, h'.1, h'.2, takeDisp_encode]
    | sib ss index b d =>
      have h' : ¬ (d.mod = 0#2 ∧ b = 5#3) := by
        simp only [RM.wf, Mem.wf, Bool.not_eq_true', Bool.and_eq_false_iff,
          beq_eq_false_iff_ne] at h
        rw [Disp.mod_eq_zero]; tauto
      simp [encodeRM, encodeMem, takeModRM, takeMem, takeSib, Disp.mod_ne_three, h', takeDisp_encode]
    | sibNoBase ss index d =>
      simp [encodeRM, encodeMem, takeModRM, takeMem, takeSib, takeDisp32_encode]
    | disp32 d => simp [encodeRM, encodeMem, takeModRM, takeMem, takeDisp32_encode]

/-- A memory operand that is read is well formed and is its encoding. -/
theorem takeMem_eq {x : Byte} {bs rest : List Byte} {m : Mem} (hm : x.extractLsb' 6 2 ≠ 3#2)
    (h : takeMem (x.extractLsb' 6 2) (x.extractLsb' 0 3) bs = some (m, rest)) :
    m.wf = true ∧ x :: bs = encodeMem (x.extractLsb' 3 3) m ++ rest := by
  unfold takeMem takeSib at h
  have hx := modRMByte_fields x
  generalize x.extractLsb' 6 2 = mod at *
  generalize x.extractLsb' 3 3 = reg at *
  generalize x.extractLsb' 0 3 = rm at *
  split at h
  · subst_vars
    split at h
    · cases h
    · rename_i y ys
      have hy := modRMByte_fields y
      generalize y.extractLsb' 6 2 = ss at *
      generalize y.extractLsb' 3 3 = index at *
      generalize y.extractLsb' 0 3 = b at *
      subst_vars
      split at h
      · rename_i hc
        split at h
        · rename_i hd
          cases h
          simp [encodeMem, Mem.wf, hc.1, hc.2, takeDisp32_eq hd]
        · cases h
      · rename_i hc
        split at h
        · rename_i hd
          cases h
          obtain ⟨rfl, rfl⟩ := takeDisp_eq hm hd
          rw [Disp.mod_eq_zero] at hc
          simp only [encodeMem, Mem.wf, List.cons_append, and_true, Bool.not_eq_true',
            Bool.and_eq_false_iff, beq_eq_false_iff_ne]
          tauto
        · cases h
  · rename_i h4
    subst_vars
    split at h
    · rename_i hc
      split at h
      · rename_i hd
        cases h
        simp [encodeMem, Mem.wf, hc.1, hc.2, takeDisp32_eq hd]
      · cases h
    · rename_i hc
      split at h
      · rename_i hd
        cases h
        obtain ⟨rfl, rfl⟩ := takeDisp_eq hm hd
        rw [Disp.mod_eq_zero] at hc
        simp only [encodeMem, Mem.wf, List.cons_append, and_true, Bool.and_eq_true, bne_iff_ne,
          Bool.not_eq_true', Bool.and_eq_false_iff, beq_eq_false_iff_ne]
        tauto
      · cases h

/-- An operand that is read is well formed and is its encoding. -/
theorem takeModRM_eq {bs rest : List Byte} {reg : BitVec 3} {src : RM}
    (h : takeModRM bs = some (reg, src, rest)) : src.wf = true ∧ bs = encodeRM reg src ++ rest := by
  unfold takeModRM at h
  split at h
  · cases h
  · rename_i x bs
    split at h
    · rename_i h3
      cases h
      have hx := modRMByte_fields x
      rw [h3] at hx
      simp [RM.wf, encodeRM, hx]
    · rename_i h3
      split at h
      · rename_i hmem
        cases h
        exact takeMem_eq h3 hmem
      · cases h

/-! ### Payload bytes -/

/-- The REX byte's bits. -/
theorem Rex.byte_bits (x : Rex) : x.byte.extractLsb' 4 4 = 4#4 ∧ Prefix.ofByte x.byte = none ∧
    bit x.byte 3 = x.w ∧ bit x.byte 2 = x.r ∧ bit x.byte 1 = x.x ∧ bit x.byte 0 = x.b := by
  obtain ⟨w, r, x, b⟩ := x
  revert w r x b; decide

/-- A byte `0100 W R X B` is its REX byte. -/
theorem Rex.byte_eq (b : Byte) (h : b.extractLsb' 4 4 = 4#4) :
    Rex.byte ⟨bit b 3, bit b 2, bit b 1, bit b 0⟩ = b := by
  revert b; decide +kernel

/-- The payload of a two-byte VEX prefix. -/
theorem vex2_bits (r l : Bool) (p : Byte) (h : p = fld (!r) ++ 15#4 ++ fld l ++ 2#2) :
    p.extractLsb' 0 2 = 2#2 ∧ p.extractLsb' 3 4 = 15#4 ∧ bit p 2 = l ∧ bit p 7 = !r := by
  subst h; revert r l; decide

/-- A two-byte VEX payload of this instruction is its bits. -/
theorem vex2_eq (p : Byte) (h1 : p.extractLsb' 0 2 = 2#2) (h2 : p.extractLsb' 3 4 = 15#4) :
    fld (!!bit p 7) ++ 15#4 ++ fld (bit p 2) ++ 2#2 = p := by
  revert p; decide +kernel

/-- The first payload byte of a three-byte VEX prefix. -/
theorem vex3_bits (v : Vex3) (p : Byte) (h : p = fld (!v.r) ++ fld (!v.x) ++ fld (!v.b) ++ 1#5) :
    p.extractLsb' 0 5 = 1#5 ∧ bit p 7 = !v.r ∧ bit p 6 = !v.x ∧ bit p 5 = !v.b := by
  subst h; obtain ⟨r, x, b, w⟩ := v; revert r x b w; decide

/-- A first payload byte with map 1 is its bits. -/
theorem vex3_eq (p : Byte) (h : p.extractLsb' 0 5 = 1#5) :
    fld (!!bit p 7) ++ fld (!!bit p 6) ++ fld (!!bit p 5) ++ 1#5 = p := by
  revert p; decide +kernel

/-- The second payload byte of a three-byte VEX prefix. -/
theorem vex3W_bits (w l : Bool) (p : Byte) (h : p = fld w ++ 15#4 ++ fld l ++ 2#2) :
    p.extractLsb' 0 2 = 2#2 ∧ p.extractLsb' 3 4 = 15#4 ∧ bit p 2 = l ∧ bit p 7 = w := by
  subst h; revert w l; decide

/-- A second payload byte of this instruction is its bits. -/
theorem vex3W_eq (p : Byte) (h1 : p.extractLsb' 0 2 = 2#2) (h2 : p.extractLsb' 3 4 = 15#4) :
    fld (bit p 7) ++ 15#4 ++ fld (bit p 2) ++ 2#2 = p := by
  revert p; decide +kernel

/-- `P0` of an EVEX prefix. -/
theorem evexP0_bits (e : EvexExt) (p : Byte)
    (h : p = fld (!e.r) ++ fld (!e.x) ++ fld (!e.b) ++ fld (!e.r') ++ 1#4) :
    p.extractLsb' 0 2 = 1#2 ∧ p.extractLsb' 2 2 = 0#2 ∧ bit p 7 = !e.r ∧ bit p 6 = !e.x ∧
      bit p 5 = !e.b ∧ bit p 4 = !e.r' := by
  subst h; obtain ⟨r, x, b, r'⟩ := e; revert r x b r'; decide

/-- `P0` of this instruction is its bits. -/
theorem evexP0_eq (p : Byte) (h1 : p.extractLsb' 0 2 = 1#2) (h2 : p.extractLsb' 2 2 = 0#2) :
    fld (!!bit p 7) ++ fld (!!bit p 6) ++ fld (!!bit p 5) ++ fld (!!bit p 4) ++ 1#4 = p := by
  revert p; decide +kernel

/-- `P1` of this instruction is one byte. -/
theorem evexP1_eq (p : Byte) (h1 : p.extractLsb' 0 2 = 2#2) (h2 : bit p 7 = false)
    (h3 : bit p 2 = true) (h4 : p.extractLsb' 3 4 = 15#4) : p = 0x7E#8 := by
  revert p; decide +kernel

/-- `P2` of an EVEX prefix. -/
theorem evexP2_bits (z b : Bool) (ll : BitVec 2) (aaa : BitVec 3) (p : Byte)
    (h : p = fld z ++ ll ++ fld b ++ 1#1 ++ aaa) :
    bit p 3 = true ∧ bit p 7 = z ∧ p.extractLsb' 0 3 = aaa ∧ p.extractLsb' 5 2 = ll ∧ bit p 4 = b := by
  subst h; revert z b ll aaa; decide +kernel

/-- `P2` with `V̄' = 1` is its bits. -/
theorem evexP2_eq (p : Byte) (h : bit p 3 = true) :
    fld (bit p 7) ++ p.extractLsb' 5 2 ++ fld (bit p 4) ++ 1#1 ++ p.extractLsb' 0 3 = p := by
  revert p; decide +kernel

/-- A well-formed mask is read back from its bits. -/
theorem Mask.ofBits_bits (k : Mask) (h : k.wf = true) :
    Mask.ofBits k.z k.aaa = k ∧ (k.z = true → k.aaa ≠ 0#3) := by
  cases k with
  | unmasked => decide
  | merging n => simp_all [Mask.wf, Mask.ofBits, Mask.z, Mask.aaa]
  | zeroing n => simp_all [Mask.wf, Mask.ofBits, Mask.z, Mask.aaa]

/-- The mask that bits name is well formed and has those bits. -/
theorem Mask.ofBits_eq (z : Bool) (aaa : BitVec 3) (h : z = true → aaa ≠ 0#3) :
    (Mask.ofBits z aaa).wf = true ∧ (Mask.ofBits z aaa).z = z ∧ (Mask.ofBits z aaa).aaa = aaa := by
  revert z aaa; decide

end Sys2Proof
end

