-- ==== Sys2Proof/Laws/Flags.lean ====
section
/-!
SUPPORT. What the update of MXCSR can do (R105, R107), said once.
-/

namespace Sys2Proof.Machine

@[simp] theorem setIE_getLsbD (m : BitVec 32) (i : Nat) :
    (setIE m).getLsbD i = (m.getLsbD i || decide (i = 0)) := by
  rcases Nat.eq_zero_or_pos i with h | h
  · simp [setIE, h]
  · have : ¬ i = 0 := by omega
    simp [setIE, BitVec.getLsbD_one, this]

theorem bit5_getLsbD (i : Nat) : (0x20#32).getLsbD i = decide (i = 5) := by
  by_cases h : i < 32
  · have := (by decide : ∀ i, i < 32 → (0x20#32).getLsbD i = decide (i = 5)) i h
    exact this
  · have h5 : ¬ i = 5 := by omega
    simpa [h5] using BitVec.getLsbD_of_ge (0x20#32) i (by omega)

@[simp] theorem setPE_getLsbD (m : BitVec 32) (i : Nat) :
    (setPE m).getLsbD i = (m.getLsbD i || decide (i = 5)) := by
  simp [setPE, bit5_getLsbD]

/-- The update sets `IE`, sets `PE`, or leaves them, and touches no other bit. -/
theorem simdFlags_sets (sae i p : Bool) (m : BitVec 32) :
    ∃ a b : Bool, ∀ n, (simdFlags sae i p m).mxcsr.getLsbD n =
      ((m.getLsbD n || (a && decide (n = 0))) || (b && decide (n = 5))) := by
  cases sae <;> cases i <;> cases p <;> cases hi : mxcsrIM m <;> simp only [simdFlags, hi] <;>
    first
    | (refine ⟨false, false, fun n => ?_⟩; simp; done)
    | (refine ⟨true, false, fun n => ?_⟩; simp; done)
    | (refine ⟨false, true, fun n => ?_⟩; simp; done)
    | (refine ⟨true, true, fun n => ?_⟩; simp)

/-- Every bit but `IE` and `PE` stays. -/
theorem simdFlags_other (sae i p : Bool) (m : BitVec 32) (n : Nat) (h0 : n ≠ 0) (h5 : n ≠ 5) :
    (simdFlags sae i p m).mxcsr.getLsbD n = m.getLsbD n := by
  obtain ⟨a, b, h⟩ := simdFlags_sets sae i p m
  simp [h, h0, h5]

/-- No bit is cleared (R25). -/
theorem simdFlags_sticky (sae i p : Bool) (m : BitVec 32) (n : Nat) (hm : m.getLsbD n = true) :
    (simdFlags sae i p m).mxcsr.getLsbD n = true := by
  obtain ⟨a, b, h⟩ := simdFlags_sets sae i p m
  simp [h, hm]

/-- Under `{sae}` nothing happens. -/
@[simp] theorem simdFlags_sae (i p : Bool) (m : BitVec 32) : simdFlags true i p m = ⟨m, false⟩ := rfl

/-- An exception is raised exactly when a signalled condition is unmasked. -/
theorem simdFlags_raises (i p : Bool) (m : BitVec 32) :
    (simdFlags false i p m).raises = ((i && !mxcsrIM m) || (p && !mxcsrPM m)) := by
  cases i <;> cases p <;> by_cases h : mxcsrIM m <;> simp [simdFlags, h]

/-- When none is raised, the flags of the signalled conditions are set. -/
theorem simdFlags_quiet (i p : Bool) (m : BitVec 32) (h : (simdFlags false i p m).raises = false) :
    (simdFlags false i p m).mxcsr =
      (m ||| if i then 1#32 else 0#32) ||| if p then 0x20#32 else 0#32 := by
  rw [simdFlags_raises] at h
  cases i <;> cases p <;> simp_all [simdFlags, setIE, setPE]

/-- The reserved bits stay. -/
theorem simdFlags_reserved (sae i p : Bool) (m : BitVec 32) :
    mxcsrReserved (simdFlags sae i p m).mxcsr = mxcsrReserved m := by
  apply BitVec.eq_of_getLsbD_eq
  intro n hn
  have := simdFlags_other sae i p m (16 + n) (by omega) (by omega)
  simpa [mxcsrReserved, hn] using this

end Sys2Proof.Machine
end

