-- ==== Sys2Proof/Laws/State.lean ====
section
/-!
SUPPORT. One lemma per field per update of the state, so that no proof unfolds a record update.
-/

namespace Sys2Proof.Machine

/-! ### `setZmm` -/

@[simp] theorem State.setZmm_cfg (s : State) (n : BitVec 5) (v : VecReg) : (s.setZmm n v).cfg = s.cfg := rfl

@[simp] theorem State.setZmm_mode (s : State) (n : BitVec 5) (v : VecReg) : (s.setZmm n v).mode = s.mode := rfl

@[simp] theorem State.setZmm_cpl (s : State) (n : BitVec 5) (v : VecReg) : (s.setZmm n v).cpl = s.cpl := rfl

@[simp] theorem State.setZmm_k (s : State) (n : BitVec 5) (v : VecReg) : (s.setZmm n v).k = s.k := rfl

@[simp] theorem State.setZmm_mxcsr (s : State) (n : BitVec 5) (v : VecReg) : (s.setZmm n v).mxcsr = s.mxcsr := rfl

@[simp] theorem State.setZmm_gpr (s : State) (n : BitVec 5) (v : VecReg) : (s.setZmm n v).gpr = s.gpr := rfl

@[simp] theorem State.setZmm_rip (s : State) (n : BitVec 5) (v : VecReg) : (s.setZmm n v).rip = s.rip := rfl

@[simp] theorem State.setZmm_rflags (s : State) (n : BitVec 5) (v : VecReg) : (s.setZmm n v).rflags = s.rflags := rfl

@[simp] theorem State.setZmm_segs (s : State) (n : BitVec 5) (v : VecReg) : (s.setZmm n v).segs = s.segs := rfl

@[simp] theorem State.setZmm_cr0 (s : State) (n : BitVec 5) (v : VecReg) : (s.setZmm n v).cr0 = s.cr0 := rfl

@[simp] theorem State.setZmm_cr2 (s : State) (n : BitVec 5) (v : VecReg) : (s.setZmm n v).cr2 = s.cr2 := rfl

@[simp] theorem State.setZmm_cr4 (s : State) (n : BitVec 5) (v : VecReg) : (s.setZmm n v).cr4 = s.cr4 := rfl

@[simp] theorem State.setZmm_xcr0 (s : State) (n : BitVec 5) (v : VecReg) : (s.setZmm n v).xcr0 = s.xcr0 := rfl

@[simp] theorem State.setZmm_mem (s : State) (n : BitVec 5) (v : VecReg) : (s.setZmm n v).mem = s.mem := rfl

@[simp] theorem State.setZmm_ram (s : State) (n : BitVec 5) (v : VecReg) : (s.setZmm n v).ram = s.ram := rfl

@[simp] theorem State.setZmm_xlate (s : State) (n : BitVec 5) (v : VecReg) : (s.setZmm n v).xlate = s.xlate := rfl

@[simp] theorem State.getZmm_setZmm_self (s : State) (n : BitVec 5) (v : VecReg) :
    (s.setZmm n v).getZmm n = v := by
  simp [State.getZmm, State.setZmm]

@[simp] theorem State.getZmm_setZmm_ne (s : State) {n m : BitVec 5} (v : VecReg) (h : m ≠ n) :
    (s.setZmm n v).getZmm m = s.getZmm m := by
  have : n.toNat ≠ m.toNat := fun e => h (BitVec.eq_of_toNat_eq e.symm)
  simp [State.getZmm, State.setZmm, Vector.getElem_set_ne, this]

/-! ### `advance` -/

@[simp] theorem State.advance_cfg (s : State) (len : Nat) : (s.advance len).cfg = s.cfg := rfl

@[simp] theorem State.advance_mode (s : State) (len : Nat) : (s.advance len).mode = s.mode := rfl

@[simp] theorem State.advance_cpl (s : State) (len : Nat) : (s.advance len).cpl = s.cpl := rfl

@[simp] theorem State.advance_zmm (s : State) (len : Nat) : (s.advance len).zmm = s.zmm := rfl

@[simp] theorem State.advance_k (s : State) (len : Nat) : (s.advance len).k = s.k := rfl

@[simp] theorem State.advance_mxcsr (s : State) (len : Nat) : (s.advance len).mxcsr = s.mxcsr := rfl

@[simp] theorem State.advance_gpr (s : State) (len : Nat) : (s.advance len).gpr = s.gpr := rfl

@[simp] theorem State.advance_rflags (s : State) (len : Nat) : (s.advance len).rflags = s.rflags := rfl

@[simp] theorem State.advance_segs (s : State) (len : Nat) : (s.advance len).segs = s.segs := rfl

@[simp] theorem State.advance_cr0 (s : State) (len : Nat) : (s.advance len).cr0 = s.cr0 := rfl

@[simp] theorem State.advance_cr2 (s : State) (len : Nat) : (s.advance len).cr2 = s.cr2 := rfl

@[simp] theorem State.advance_cr4 (s : State) (len : Nat) : (s.advance len).cr4 = s.cr4 := rfl

@[simp] theorem State.advance_xcr0 (s : State) (len : Nat) : (s.advance len).xcr0 = s.xcr0 := rfl

@[simp] theorem State.advance_mem (s : State) (len : Nat) : (s.advance len).mem = s.mem := rfl

@[simp] theorem State.advance_ram (s : State) (len : Nat) : (s.advance len).ram = s.ram := rfl

@[simp] theorem State.advance_xlate (s : State) (len : Nat) : (s.advance len).xlate = s.xlate := rfl

/-- `pc <- RIP + len`, in the width of the instruction pointer (R27, D3). -/
theorem State.advance_rip (s : State) (len : Nat) :
    (s.advance len).rip.toNat = (s.rip.toNat + len) % (if s.mode = .long64 then 2 ^ 64 else 2 ^ 32) := by
  unfold State.advance State.ripNext
  split
  · simp [BitVec.toNat_add]
  · simp [BitVec.toNat_add]; omega

@[simp] theorem State.getZmm_advance (s : State) (len : Nat) (n : BitVec 5) :
    (s.advance len).getZmm n = s.getZmm n := rfl

/-! ### `recorded` -/

@[simp] theorem State.recorded_cfg (s : State) (e : Exc) : (s.recorded e).cfg = s.cfg := by cases e <;> rfl

@[simp] theorem State.recorded_mode (s : State) (e : Exc) : (s.recorded e).mode = s.mode := by cases e <;> rfl

@[simp] theorem State.recorded_cpl (s : State) (e : Exc) : (s.recorded e).cpl = s.cpl := by cases e <;> rfl

@[simp] theorem State.recorded_zmm (s : State) (e : Exc) : (s.recorded e).zmm = s.zmm := by cases e <;> rfl

@[simp] theorem State.recorded_k (s : State) (e : Exc) : (s.recorded e).k = s.k := by cases e <;> rfl

@[simp] theorem State.recorded_mxcsr (s : State) (e : Exc) : (s.recorded e).mxcsr = s.mxcsr := by cases e <;> rfl

@[simp] theorem State.recorded_gpr (s : State) (e : Exc) : (s.recorded e).gpr = s.gpr := by cases e <;> rfl

@[simp] theorem State.recorded_rip (s : State) (e : Exc) : (s.recorded e).rip = s.rip := by cases e <;> rfl

@[simp] theorem State.recorded_rflags (s : State) (e : Exc) : (s.recorded e).rflags = s.rflags := by cases e <;> rfl

@[simp] theorem State.recorded_segs (s : State) (e : Exc) : (s.recorded e).segs = s.segs := by cases e <;> rfl

@[simp] theorem State.recorded_cr0 (s : State) (e : Exc) : (s.recorded e).cr0 = s.cr0 := by cases e <;> rfl

@[simp] theorem State.recorded_cr4 (s : State) (e : Exc) : (s.recorded e).cr4 = s.cr4 := by cases e <;> rfl

@[simp] theorem State.recorded_xcr0 (s : State) (e : Exc) : (s.recorded e).xcr0 = s.xcr0 := by cases e <;> rfl

@[simp] theorem State.recorded_mem (s : State) (e : Exc) : (s.recorded e).mem = s.mem := by cases e <;> rfl

@[simp] theorem State.recorded_ram (s : State) (e : Exc) : (s.recorded e).ram = s.ram := by cases e <;> rfl

@[simp] theorem State.recorded_xlate (s : State) (e : Exc) : (s.recorded e).xlate = s.xlate := by cases e <;> rfl

theorem State.recorded_cr2_pf (s : State) (c : BitVec 32) (a : Quad) :
    (s.recorded (.pf c a)).cr2 = a := rfl

/-- Every exception but a page fault leaves the state as it is (R132). -/
theorem State.recorded_of_ne_pf (s : State) (e : Exc) (h : ∀ c a, e ≠ .pf c a) : s.recorded e = s := by
  cases e <;> first | rfl | exact absurd rfl (h _ _)

/-! ### A write of MXCSR -/

@[simp] theorem State.getZmm_withMxcsr (s : State) (m : BitVec 32) (n : BitVec 5) :
    ({ s with mxcsr := m } : State).getZmm n = s.getZmm n := rfl

end Sys2Proof.Machine
end

