-- ==== Sys2Proof/Laws/Lanes.lean ====
section
/-!
SUPPORT. Vectors as lanes (R6, R11): reading back what was packed, and two vectors with equal lanes.
-/

namespace Sys2Proof.Machine

theorem lane_getLsbD (v : VecReg) (j i : Nat) (h : i < 32) :
    (lane v j).getLsbD i = v.getLsbD (32 * j + i) := by
  simp [lane, h]

theorem lane_zero (j : Nat) : lane 0#512 j = 0#32 := by
  apply BitVec.eq_of_getLsbD_eq
  intro i hi
  simp [lane_getLsbD _ _ _ hi]

/-- Lane `j` of a packed list is its `j`-th element. -/
theorem lane_ofLanes (xs : List Dword) (h : xs.length ≤ 16) (j : Nat) :
    lane (ofLanes xs) j = xs.getD j 0#32 := by
  induction xs generalizing j with
  | nil => simp [ofLanes, lane_zero]
  | cons x xs ih =>
    have hl15 : xs.length ≤ 15 := by simp at h; omega
    have hl : xs.length ≤ 16 := by omega
    apply BitVec.eq_of_getLsbD_eq
    intro i hi
    rw [lane_getLsbD _ _ _ hi]
    cases j with
    | zero =>
      simp [ofLanes, BitVec.getLsbD_setWidth, hi]
      intro _ ; omega
    | succ j =>
      have h1 : 32 * (j + 1) + i - 32 = 32 * j + i := by omega
      have h2 : x.getLsbD (32 * (j + 1) + i) = false := BitVec.getLsbD_of_ge _ _ (by omega)
      have h3 := congrArg (fun b : Dword => b.getLsbD i) (ih hl j)
      simp only [lane_getLsbD _ _ _ hi] at h3
      simp only [ofLanes, BitVec.getLsbD_or, BitVec.getLsbD_shiftLeft, BitVec.getLsbD_setWidth, h1, h2,
        List.getD_cons_succ, Bool.and_false, Bool.or_false]
      by_cases hb : 32 * (j + 1) + i < 512
      · have : ¬ (32 * (j + 1) + i < 32) := by omega
        simp [hb, this, h3]
      · have hj : xs.length ≤ j := by omega
        simp [hb, List.getElem?_eq_none hj]

/-- Two vectors with the same sixteen lanes are equal. -/
theorem eq_of_lanes {v w : VecReg} (h : ∀ j, j < 16 → lane v j = lane w j) : v = w := by
  apply BitVec.eq_of_getLsbD_eq
  intro i hi
  have := congrArg (fun b : Dword => b.getLsbD (i % 32)) (h (i / 32) (by omega))
  simpa [lane_getLsbD _ _ _ (Nat.mod_lt i (by decide : 0 < 32)), Nat.div_add_mod] using this

end Sys2Proof.Machine
end

