-- ==== Sys2Proof/Laws/Execute.lean ====
section
/-!
SUPPORT. What the shared execution of a form can do, said once (R110): when it completes, with what, and
which faults it has.
-/

namespace Sys2Proof.Machine

/-- The destination register, lane by lane. -/
theorem State.lane_destReg (s : State) (op : PackedOp) (r : Nat → Converted) (j : Nat) (h : j < 16) :
    lane (s.destReg op r) j = s.destLane op r j := by
  have hl : ((List.range 16).map (s.destLane op r)).length ≤ 16 := by simp
  rw [State.destReg, lane_ofLanes _ hl]
  simp [List.getD_eq_getElem?_getD, h]

/-- The lanes of the conversion of `src` in a state. -/
def State.results (s : State) (src : Nat → Dword) : Nat → Converted :=
  fun j => cvtT (src j) (mxcsrDAZ s.mxcsr)

/-- The flags of one conversion. -/
def State.flagsOf (s : State) (op : PackedOp) (src : Nat → Dword) : SimdFlags :=
  simdFlags op.sae (anyInvalid (s.activeLanes op.mask op.vl) (s.results src))
    (anyInexact (s.activeLanes op.mask op.vl) (s.results src)) s.mxcsr

/-- The state a completed form leaves. -/
def State.completed (s : State) (op : PackedOp) (src : Nat → Dword) : State :=
  ({ s with mxcsr := (s.flagsOf op src).mxcsr }.setZmm op.dest
    (s.destReg op (s.results src))).advance op.len

/-- Everything that can come of a form, in the order of R110. -/
theorem execute_cases (op : PackedOp) (s : State) :
    (op.cls = .legacy ∧ s.mode.inScope = false ∧ execute op s = .refused .modeOutOfScope) ∨
    (s.invalidOpcode op.cls op.vl = true ∧ execute op s = raise .ud s) ∨
    (s.invalidOpcode op.cls op.vl = false ∧ s.ts = true ∧ execute op s = raise .nm s) ∨
    (s.invalidOpcode op.cls op.vl = false ∧ s.ts = false ∧
      ∃ st, s.sourceLanes op.cls op.pre op.vl op.mask op.len op.src = .error st ∧
        execute op s = st.outcome s) ∨
    (s.invalidOpcode op.cls op.vl = false ∧ s.ts = false ∧
      ∃ src, s.sourceLanes op.cls op.pre op.vl op.mask op.len op.src = .ok src ∧
        (((s.flagsOf op src).raises = true ∧
            execute op s = raise s.simdExc { s with mxcsr := (s.flagsOf op src).mxcsr }) ∨
          ((s.flagsOf op src).raises = false ∧ execute op s = .next (s.completed op src)))) := by
  by_cases h0 : op.cls = .legacy ∧ s.mode.inScope = false
  · exact .inl ⟨h0.1, h0.2, by simp [execute, h0.1, h0.2]⟩
  have h0' : ¬ (op.cls = .legacy ∧ (!s.mode.inScope) = true) := by simpa using h0
  cases h1 : s.invalidOpcode op.cls op.vl with
  | true => exact .inr (.inl ⟨rfl, by simp only [execute, h0', h1, if_false, if_true]⟩)
  | false =>
    cases h2 : s.ts with
    | true =>
      exact .inr (.inr (.inl ⟨rfl, rfl, by
        simp only [execute, h0', h1, h2, if_false, if_true, Bool.false_eq_true]⟩))
    | false =>
      have hx : execute op s = match s.sourceLanes op.cls op.pre op.vl op.mask op.len op.src with
          | .error st => st.outcome s
          | .ok src => s.finish op (s.results src) := by
        simp only [execute, h0', h1, h2, if_false, Bool.false_eq_true]; rfl
      cases h3 : s.sourceLanes op.cls op.pre op.vl op.mask op.len op.src with
      | error st => exact .inr (.inr (.inr (.inl ⟨rfl, rfl, st, rfl, by rw [hx, h3]⟩)))
      | ok src =>
        refine .inr (.inr (.inr (.inr ⟨rfl, rfl, src, rfl, ?_⟩)))
        rw [hx, h3]
        cases h4 : (s.flagsOf op src).raises with
        | true =>
          refine .inl ⟨rfl, ?_⟩
          have : (simdFlags op.sae (anyInvalid (s.activeLanes op.mask op.vl) (s.results src))
            (anyInexact (s.activeLanes op.mask op.vl) (s.results src)) s.mxcsr).raises = true := h4
          simp only [State.finish, this, if_true]; rfl
        | false =>
          refine .inr ⟨rfl, ?_⟩
          have : (simdFlags op.sae (anyInvalid (s.activeLanes op.mask op.vl) (s.results src))
            (anyInexact (s.activeLanes op.mask op.vl) (s.results src)) s.mxcsr).raises = false := h4
          simp only [State.finish, this, Bool.false_eq_true, if_false]; rfl

/-- A form that completes: it was present and enabled, its source was read, nothing was raised. -/
theorem execute_next {op : PackedOp} {s t : State} (h : execute op s = .next t) :
    s.invalidOpcode op.cls op.vl = false ∧ s.ts = false ∧
      ∃ src, s.sourceLanes op.cls op.pre op.vl op.mask op.len op.src = .ok src ∧
        (s.flagsOf op src).raises = false ∧ t = s.completed op src := by
  rcases execute_cases op s with ⟨_, _, e⟩ | ⟨_, e⟩ | ⟨_, _, e⟩ | ⟨_, _, st, _, e⟩ |
    ⟨h1, h2, src, h3, ⟨_, e⟩ | ⟨h4, e⟩⟩ <;> rw [h] at e
  · cases e
  · cases e
  · cases e
  · cases st <;> cases e
  · cases e
  · cases e; exact ⟨h1, h2, src, h3, h4, rfl⟩

/-- When a form completes. -/
theorem execute_completes {op : PackedOp} {s : State} {src : Nat → Dword}
    (h1 : s.invalidOpcode op.cls op.vl = false) (h2 : s.ts = false)
    (h3 : s.sourceLanes op.cls op.pre op.vl op.mask op.len op.src = .ok src)
    (h4 : (s.flagsOf op src).raises = false) : execute op s = .next (s.completed op src) := by
  rcases execute_cases op s with ⟨h, hm, _⟩ | ⟨h, _⟩ | ⟨_, h, _⟩ | ⟨_, _, st, h, _⟩ |
    ⟨_, _, src', h, ⟨h5, _⟩ | ⟨_, e⟩⟩
  · simp [State.invalidOpcode, hm] at h1
  · simp [h1] at h
  · simp [h2] at h
  · simp [h3] at h
  · rw [h3] at h; cases h; simp [h4] at h5
  · rw [h3] at h; cases h; exact e

/-! ### The completed state -/

theorem State.completed_getZmm_ne (s : State) (op : PackedOp) (src : Nat → Dword) {n : BitVec 5}
    (h : n ≠ op.dest) : (s.completed op src).getZmm n = s.getZmm n := by
  simp [State.completed, h]

theorem State.completed_lane (s : State) (op : PackedOp) (src : Nat → Dword) {j : Nat} (h : j < 16) :
    lane ((s.completed op src).getZmm op.dest) j = s.destLane op (s.results src) j := by
  simp [State.completed, State.lane_destReg, h]

@[simp] theorem State.completed_mxcsr (s : State) (op : PackedOp) (src : Nat → Dword) :
    (s.completed op src).mxcsr = (s.flagsOf op src).mxcsr := rfl

theorem State.completed_rip (s : State) (op : PackedOp) (src : Nat → Dword) :
    (s.completed op src).rip.toNat =
      (s.rip.toNat + op.len) % (if s.mode = .long64 then 2 ^ 64 else 2 ^ 32) :=
  State.advance_rip _ _

end Sys2Proof.Machine
end

