-- ==== Sys2Proof/Laws/Memory.lean ====
section
/-!
SUPPORT. Memory: every operation keeps the canonical form, a read after a write.
-/

namespace Sys2Proof.Machine

theorem Memory.risesFrom_mono {lo lo' : Nat} (h : lo' ≤ lo) (m : Memory) (hm : m.risesFrom lo = true) :
    m.risesFrom lo' = true := by
  cases m with
  | nil => rfl
  | cons p t =>
    obtain ⟨k, v⟩ := p
    simp only [Memory.risesFrom, Bool.and_eq_true, decide_eq_true_eq] at hm ⊢
    exact ⟨⟨h.trans hm.1.1, hm.1.2⟩, hm.2⟩

theorem Memory.write_risesFrom (m : Memory) (a : Nat) (b : Byte) :
    ∀ lo, m.risesFrom lo = true → lo ≤ a → (m.write a b).risesFrom lo = true := by
  induction m with
  | nil =>
    intro lo _ h
    by_cases hb : b = unlistedByte <;> simp [Memory.write, Memory.risesFrom, hb, h]
  | cons p t ih =>
    obtain ⟨k, v⟩ := p
    intro lo hm h
    simp only [Memory.risesFrom, Bool.and_eq_true, decide_eq_true_eq, bne_iff_ne] at hm
    obtain ⟨⟨h1, h2⟩, h3⟩ := hm
    unfold Memory.write
    split
    · split
      · simp [Memory.risesFrom, h1, h2, h3]
      · rename_i hlt hb
        simp [Memory.risesFrom, h, hb, h2, h3, Nat.succ_le_of_lt hlt]
    · split
      · split
        · exact Memory.risesFrom_mono (by omega) t h3
        · rename_i heq hb
          subst heq
          simp [Memory.risesFrom, h, hb, h3]
      · rename_i h4 h5
        simp only [Memory.risesFrom, Bool.and_eq_true, decide_eq_true_eq, bne_iff_ne]
        exact ⟨⟨h1, h2⟩, ih (k + 1) h3 (by omega)⟩

/-- A write keeps the canonical form. -/
theorem Memory.write_wf (m : Memory) (a : Nat) (b : Byte) (h : m.wf = true) : (m.write a b).wf = true :=
  Memory.write_risesFrom m a b 0 h (Nat.zero_le a)

/-- Writing bytes keeps the canonical form. -/
theorem Memory.writeBytes_wf (bs : List Byte) :
    ∀ (m : Memory) (a : Nat), m.wf = true → (m.writeBytes a bs).wf = true := by
  induction bs with
  | nil => exact fun m a h => h
  | cons b bs ih => exact fun m a h => ih _ _ (Memory.write_wf m a b h)

theorem Memory.read_of_risesFrom (m : Memory) :
    ∀ lo a, m.risesFrom lo = true → a < lo → m.read a = unlistedByte := by
  induction m with
  | nil => exact fun _ _ _ _ => rfl
  | cons p t ih =>
    obtain ⟨k, v⟩ := p
    intro lo a hm h
    simp only [Memory.risesFrom, Bool.and_eq_true, decide_eq_true_eq] at hm
    have hk : k ≠ a := by omega
    simp only [Memory.read, hk, if_false]
    exact ih (k + 1) a hm.2 (by omega)

theorem Memory.read_write_from (m : Memory) (a : Nat) (b : Byte) (c : Nat) :
    ∀ lo, m.risesFrom lo = true → (m.write a b).read c = if c = a then b else m.read c := by
  induction m with
  | nil =>
    intro lo _
    by_cases hb : b = unlistedByte
    · simp [Memory.write, Memory.read, hb]
    · simp [Memory.write, Memory.read, hb, eq_comm]
  | cons p t ih =>
    obtain ⟨k, v⟩ := p
    intro lo hm
    simp only [Memory.risesFrom, Bool.and_eq_true, decide_eq_true_eq] at hm
    have hlow : ∀ d, d < k + 1 → Memory.read t d = unlistedByte :=
      fun d hd => Memory.read_of_risesFrom t (k + 1) d hm.2 hd
    have ih' := ih (k + 1) hm.2
    unfold Memory.write
    by_cases h1 : a < k
    · have hka : k ≠ a := by omega
      have ha : Memory.read t a = unlistedByte := hlow a (by omega)
      by_cases hb : b = unlistedByte
      · by_cases hc : c = a
        · subst hc; simp [h1, hb, Memory.read, hka, ha]
        · simp [h1, hb, hc]
      · by_cases hc : c = a
        · subst hc; simp [h1, hb, Memory.read]
        · have : a ≠ c := fun e => hc e.symm
          simp [h1, hb, hc, Memory.read, this]
    · by_cases h2 : a = k
      · subst h2
        have ha : Memory.read t a = unlistedByte := hlow a (by omega)
        by_cases hb : b = unlistedByte
        · by_cases hc : c = a
          · subst hc; simp [hb, ha]
          · have : a ≠ c := fun e => hc e.symm
            simp [hb, hc, Memory.read, this]
        · by_cases hc : c = a
          · subst hc; simp [hb, Memory.read]
          · have : a ≠ c := fun e => hc e.symm
            simp [hb, hc, Memory.read, this]
      · simp only [h1, h2, if_false, Memory.read]
        by_cases hk : k = c
        · have : c ≠ a := by omega
          simp [hk, this]
        · simp [hk, ih']

/-- A read after a write, at the same place and elsewhere. -/
theorem Memory.read_write (m : Memory) (a : Nat) (b : Byte) (c : Nat) (h : m.wf = true) :
    (m.write a b).read c = if c = a then b else m.read c :=
  Memory.read_write_from m a b c 0 h

/-- Placing a program keeps the canonical form. -/
theorem State.launch_mem_wf (s : State) (code : List Byte) (h : s.mem.wf = true) :
    (s.launch code).mem.wf = true :=
  Memory.writeBytes_wf code _ _ h

/-- Memory right after reset is in canonical form. -/
theorem State.reset_mem_wf : State.reset.mem.wf = true := rfl

end Sys2Proof.Machine
end

