-- ==== Sys2Proof/Laws/PerInstr.lean ====
section
/-!
SUPPORT. One lemma per constructor of Instr about the instruction as syntax: the encoder writes as many
bytes as R81 counts.
-/

namespace Sys2Proof

theorem encodeDisp_length (d : Disp) : (encodeDisp d).length = d.length := by
  cases d <;> rfl

theorem encodeMem_length (reg : BitVec 3) (m : Mem) : (encodeMem reg m).length = m.length := by
  cases m <;> simp [encodeMem, Mem.length, encodeDisp_length, encodeDisp32] <;> omega

theorem encodeRM_length (reg : BitVec 3) (src : RM) : (encodeRM reg src).length = src.length := by
  cases src <;> simp [encodeRM, RM.length, encodeMem_length]

theorem encodeEvexSrc_length (reg : BitVec 3) (src : EvexSrc) :
    (encodeEvexSrc reg src).length = src.length := by
  cases src <;> simp [encodeEvexSrc, EvexSrc.length, encodeMem_length]

namespace Laws.EncodedLength

/-- The encoding of the instruction has the length of R81. -/
def Statement (i : Instr) : Prop := (encode i).length = i.length

theorem legacy (pre : List Prefix) (reg : BitVec 3) (src : RM) :
    Statement (.legacy pre reg src) := by
  simp [Statement, encode, encodePre, Instr.length, encodeRM_length]; omega

theorem legacyRex (pre : List Prefix) (rex : Rex) (reg : BitVec 3) (src : RM) :
    Statement (.legacyRex pre rex reg src) := by
  simp [Statement, encode, encodePre, Instr.length, encodeRM_length]; omega

theorem vex128C5 (pre : List Prefix) (r : Bool) (reg : BitVec 3) (src : RM) :
    Statement (.vex128C5 pre r reg src) := by
  simp [Statement, encode, encodePre, encodeVex2, Instr.length, encodeRM_length]; omega

theorem vex128C4 (pre : List Prefix) (vex : Vex3) (reg : BitVec 3) (src : RM) :
    Statement (.vex128C4 pre vex reg src) := by
  simp [Statement, encode, encodePre, encodeVex3, Instr.length, encodeRM_length]; omega

theorem vex256C5 (pre : List Prefix) (r : Bool) (reg : BitVec 3) (src : RM) :
    Statement (.vex256C5 pre r reg src) := by
  simp [Statement, encode, encodePre, encodeVex2, Instr.length, encodeRM_length]; omega

theorem vex256C4 (pre : List Prefix) (vex : Vex3) (reg : BitVec 3) (src : RM) :
    Statement (.vex256C4 pre vex reg src) := by
  simp [Statement, encode, encodePre, encodeVex3, Instr.length, encodeRM_length]; omega

theorem evex128 (pre : List Prefix) (ext : EvexExt) (mask : Mask) (reg : BitVec 3) (src : EvexSrc) :
    Statement (.evex128 pre ext mask reg src) := by
  simp [Statement, encode, encodePre, encodeEvex, Instr.length, encodeEvexSrc_length]; omega

theorem evex256 (pre : List Prefix) (ext : EvexExt) (mask : Mask) (reg : BitVec 3) (src : EvexSrc) :
    Statement (.evex256 pre ext mask reg src) := by
  simp [Statement, encode, encodePre, encodeEvex, Instr.length, encodeEvexSrc_length]; omega

theorem evex512 (pre : List Prefix) (ext : EvexExt) (mask : Mask) (reg : BitVec 3) (src : EvexSrc) :
    Statement (.evex512 pre ext mask reg src) := by
  simp [Statement, encode, encodePre, encodeEvex, Instr.length, encodeEvexSrc_length]; omega

theorem evex512Sae (pre : List Prefix) (ext : EvexExt) (mask : Mask) (ll : BitVec 2)
    (reg rm : BitVec 3) : Statement (.evex512Sae pre ext mask ll reg rm) := by
  simp [Statement, encode, encodePre, encodeEvex, encodeRM, Instr.length]

end Laws.EncodedLength

/-- The encoder writes as many bytes as R81 counts. -/
theorem encode_length (i : Instr) : (encode i).length = i.length := by
  cases i with
  | legacy pre reg src => exact Laws.EncodedLength.legacy pre reg src
  | legacyRex pre rex reg src => exact Laws.EncodedLength.legacyRex pre rex reg src
  | vex128C5 pre r reg src => exact Laws.EncodedLength.vex128C5 pre r reg src
  | vex128C4 pre v reg src => exact Laws.EncodedLength.vex128C4 pre v reg src
  | vex256C5 pre r reg src => exact Laws.EncodedLength.vex256C5 pre r reg src
  | vex256C4 pre v reg src => exact Laws.EncodedLength.vex256C4 pre v reg src
  | evex128 pre e k reg src => exact Laws.EncodedLength.evex128 pre e k reg src
  | evex256 pre e k reg src => exact Laws.EncodedLength.evex256 pre e k reg src
  | evex512 pre e k reg src => exact Laws.EncodedLength.evex512 pre e k reg src
  | evex512Sae pre e k ll reg rm => exact Laws.EncodedLength.evex512Sae pre e k ll reg rm

end Sys2Proof
end

