-- ==== Sys2Proof/Laws/Op.lean ====
section
/-!
SUPPORT. Every instruction is the shared execution of its operands (R110), and what follows from that for
all of them at once.
-/

namespace Sys2Proof.Machine

/-- The operands of an instruction (R110 step 1). -/
def opOf (m : Mode) (i : Instr) : PackedOp where
  cls := i.cls
  vl := i.vl
  pre := i.pre
  dest := i.dest
  src := i.source m
  mask := i.mask
  sae := i.sae
  len := i.length

/-- Each arm of `exec` is the shared execution of the instruction's operands. -/
theorem exec_eq (i : Instr) (s : State) : exec i s = execute (opOf s.mode i) s := by
  cases i <;> rfl

theorem laneActive_eq_selects (s : State) (k : Mask) : s.laneActive k = s.selects k := by
  funext j; cases k <;> rfl

theorem any_activeLanes (s : State) (k : Mask) (vl : VecLen) (f : Nat → Bool) :
    (s.activeLanes k vl).any f = (List.range (lanesOf vl)).any (fun j => s.selects k j && f j) := by
  simp [State.activeLanes, List.any_filter, laneActive_eq_selects]

theorem flagsOf_eq (s : State) (i : Instr) (src : Nat → Dword) :
    s.flagsOf (opOf s.mode i) src = simdFlags i.sae
      (s.someInvalid (lanesOf i.vl) (s.selects i.mask) src)
      (s.someInexact (lanesOf i.vl) (s.selects i.mask) src) s.mxcsr := by
  simp [State.flagsOf, opOf, anyInvalid, anyInexact, any_activeLanes, State.someInvalid,
    State.someInexact, State.conv, State.results]

theorem flagsOf_raises_iff (s : State) (i : Instr) (src : Nat → Dword) :
    (s.flagsOf (opOf s.mode i) src).raises = !s.quietFor i src := by
  rw [flagsOf_eq, State.quietFor, State.quiet]
  cases i.sae
  · simp [simdFlags_raises]
  · simp

/-- MXCSR of a completed form (R105, R107). -/
theorem flagsOf_mxcsr_of_quiet (s : State) (i : Instr) (src : Nat → Dword)
    (h : s.quietFor i src = true) :
    (s.flagsOf (opOf s.mode i) src).mxcsr =
      if i.sae then s.mxcsr else s.flagsAfter (lanesOf i.vl) (s.selects i.mask) src := by
  have hr : (s.flagsOf (opOf s.mode i) src).raises = false := by simp [flagsOf_raises_iff, h]
  rw [flagsOf_eq] at hr ⊢
  cases hs : i.sae
  · rw [hs] at hr
    simp [simdFlags_quiet _ _ _ hr, State.flagsAfter]
  · simp

/-- MXCSR where an unmasked exception is raised is R105's at the fault. -/
theorem flagsOf_mxcsr_of_raises (s : State) (i : Instr) (src : Nat → Dword)
    (h : (s.flagsOf (opOf s.mode i) src).raises = true) :
    (s.flagsOf (opOf s.mode i) src).mxcsr = s.flagsAtFault i src := by
  rw [flagsOf_raises_iff] at h
  rw [flagsOf_eq]
  have hs : i.sae = false := by cases hs : i.sae <;> simp [State.quietFor, hs] at h ⊢
  rw [hs]
  unfold simdFlags State.flagsAtFault State.flagsAfter setIE setPE
  generalize s.someInvalid (lanesOf i.vl) (s.selects i.mask) src = a
  generalize s.someInexact (lanesOf i.vl) (s.selects i.mask) src = b
  cases a <;> cases b <;> cases mxcsrIM s.mxcsr <;> simp

theorem lanesOf_le (vl : VecLen) : lanesOf vl ≤ 16 := by cases vl <;> decide

/-- The frame of a completed form (R32). -/
theorem completed_frame (s : State) (op : PackedOp) (src : Nat → Dword) :
    FrameR32 op.dest s (s.completed op src) where
  zmm _ h := s.completed_getZmm_ne op src h
  mxcsr _ h0 h5 := simdFlags_other _ _ _ _ _ h0 h5
  ie := simdFlags_sticky _ _ _ _ 0
  pe := simdFlags_sticky _ _ _ _ 5
  opmask := rfl
  gpr := rfl
  rflags := rfl
  segs := rfl
  control := ⟨rfl, rfl, rfl, rfl⟩
  mode := ⟨rfl, rfl, rfl⟩
  map := ⟨rfl, rfl⟩
  mem _ := rfl

/-- What stands above the vector length (R21). -/
def State.upperOf (s : State) (i : Instr) : Nat → Dword :=
  match i.cls with
  | .legacy => lane (s.getZmm i.dest)
  | _ => fun _ => 0#32

/-- The completed state is the result R111 to R117 give. -/
theorem completed_result (s : State) (i : Instr) (src : Nat → Dword) (h : s.quietFor i src = true) :
    Result s (s.completed (opOf s.mode i) src) i src (s.upperOf i) where
  lanes j hj ha := by
    have h16 : j < 16 := lt_of_lt_of_le hj (lanesOf_le _)
    rw [show i.dest = (opOf s.mode i).dest from rfl, State.completed_lane _ _ _ h16]
    simp [State.destLane, opOf, hj, laneActive_eq_selects, ha, State.results, State.conv]
  masked j hj ha := by
    have h16 : j < 16 := lt_of_lt_of_le hj (lanesOf_le _)
    rw [show i.dest = (opOf s.mode i).dest from rfl, State.completed_lane _ _ _ h16]
    simp only [State.destLane, opOf, hj, laneActive_eq_selects, ha, if_true, if_false,
      Bool.false_eq_true]
    cases i.mask <;> rfl
  above j hj h16 := by
    rw [show i.dest = (opOf s.mode i).dest from rfl, State.completed_lane _ _ _ h16]
    have : ¬ j < lanesOf i.vl := by omega
    simp only [State.destLane, opOf, this, if_false, State.upperOf]
    cases i.cls <;> rfl
  mxcsr := flagsOf_mxcsr_of_quiet s i src h
  rip := by
    rw [encode_length]
    exact s.completed_rip _ _
  frame := completed_frame s (opOf s.mode i) src

/-- `ready` is what the skeleton asks before it reads the source (R110 steps 2 and 3). -/
theorem ready_iff (s : State) (i : Instr) :
    s.ready i = true ↔ s.invalidOpcode i.cls i.vl = false ∧ s.ts = false := by
  cases hc : i.cls <;> cases hv : s.cfg.hasAVX512VL <;>
    simp [hv, State.ready, hc, State.invalidOpcode, State.legacyReady, State.vexReady, State.evexReady,
      present, State.enabled, State.em, State.osfxsr, State.osxsave, State.avxEnabled,
      State.avx512Enabled, State.ts, fits] <;> tauto

/-- A ready form completes when its source lanes can be read and signal nothing unmasked. -/
theorem exec_completes {i : Instr} {s : State} {src : Nat → Dword} (hr : s.ready i = true)
    (hs : s.sourceLanes i.cls i.pre i.vl i.mask i.length (i.source s.mode) = .ok src)
    (hq : s.quietFor i src = true) :
    exec i s = .next (s.completed (opOf s.mode i) src) ∧
      Result s (s.completed (opOf s.mode i) src) i src (s.upperOf i) := by
  obtain ⟨h1, h2⟩ := (ready_iff s i).mp hr
  refine ⟨?_, completed_result s i src hq⟩
  rw [exec_eq]
  exact execute_completes h1 h2 hs (by simp [flagsOf_raises_iff, hq])

/-- An instruction that completes was ready, and left the result of its source lanes. -/
theorem exec_next {i : Instr} {s t : State} (h : exec i s = .next t) :
    s.ready i = true ∧ ∃ src,
      s.sourceLanes i.cls i.pre i.vl i.mask i.length (i.source s.mode) = .ok src ∧
      s.quietFor i src = true ∧ t = s.completed (opOf s.mode i) src := by
  rw [exec_eq] at h
  obtain ⟨h1, h2, src, h3, h4, rfl⟩ := execute_next h
  refine ⟨(ready_iff s i).mpr ⟨h1, h2⟩, src, h3, ?_, rfl⟩
  simpa [flagsOf_raises_iff] using h4

end Sys2Proof.Machine
end

