-- ==== Sys2Proof/Laws/Operand.lean ====
section
/-!
SUPPORT. Reading a memory operand, said once: when it gives its lanes, and what stops it (R43, R48 to R51).
-/

namespace Sys2Proof.Machine

/-! ### Addresses -/

theorem add_ofNat_add (a : Quad) (m n : Nat) :
    a + BitVec.ofNat 64 m + BitVec.ofNat 64 n = a + BitVec.ofNat 64 (m + n) := by
  rw [BitVec.add_assoc, BitVec.ofNat_add]

theorem dwordAddrs_eq (a : Quad) : dwordAddrs a = bytesFrom a 4 := rfl

/-- The doubleword at lane `j`'s place is the lane of the memory operand (R41). -/
theorem dwordAt_lane (s : State) (a : Quad) (j : Nat) :
    s.dwordAt (a + BitVec.ofNat 64 (4 * j)) = s.memLane a j := by
  simp only [State.dwordAt, State.memLane]
  rw [show (3#64) = BitVec.ofNat 64 3 from rfl, show (2#64) = BitVec.ofNat 64 2 from rfl,
    show (1#64) = BitVec.ofNat 64 1 from rfl, add_ofNat_add, add_ofNat_add, add_ofNat_add]

theorem dwordAt_zero (s : State) (a : Quad) : s.dwordAt a = s.memLane a 0 := by
  simpa using dwordAt_lane s a 0

/-- The address of an instruction's memory operand, as the skeleton computes it. -/
theorem operandAddress_eq (s : State) (i : Instr) (r : MemRef) :
    s.linearAddress i.pre (s.ripNext i.length) r = s.operandAddress i r := by
  rw [State.operandAddress, encode_length, State.ripNext]

/-! ### Accesses -/

theorem readable_iff (s : State) (addrs : List Nat) : s.readable addrs = true ↔
    ∀ a ∈ addrs, (∃ p, translateByte s.xlate .read s.cpl a = .ok p) ∧ s.ordinary a = true := by
  simp only [State.readable, List.all_eq_true]
  refine forall₂_congr fun a _ => ?_
  cases translateByte s.xlate .read s.cpl a <;> simp

/-- An access is not stopped exactly when its bytes are readable. -/
theorem accessStop_none_iff (s : State) (addrs : List Nat) :
    s.accessStop? .read addrs = none ↔ s.readable addrs = true := by
  rw [readable_iff]
  unfold State.accessStop?
  cases h : addrs.findSome? (fun a => s.pageFault? .read a) with
  | some e =>
    obtain ⟨a, ha, he⟩ := List.exists_of_findSome?_eq_some h
    refine ⟨fun hc => (by cases hc), fun hc => ?_⟩
    obtain ⟨⟨p, hp⟩, _⟩ := hc a ha
    simp [State.pageFault?, hp] at he
  | none =>
    rw [List.findSome?_eq_none_iff] at h
    cases h2 : addrs.find? (fun a => !s.ordinary a) with
    | some a =>
      have ha := List.mem_of_find?_eq_some h2
      have hb := List.find?_some h2
      refine ⟨fun hc => (by simp at hc), fun hc => ?_⟩
      simp [(hc a ha).2] at hb
    | none =>
      rw [List.find?_eq_none] at h2
      refine ⟨fun _ a ha => ?_, fun _ => rfl⟩
      have h3 := h a ha
      have h4 := h2 a ha
      cases ht : translateByte s.xlate .read s.cpl a with
      | error c => simp [State.pageFault?, ht] at h3
      | ok p => exact ⟨⟨p, rfl⟩, by simpa using h4⟩

/-- What stops an access: a page fault of one of its bytes, or a byte outside the launch memory. -/
theorem accessStop_some {s : State} {acc : Access} {addrs : List Nat} {st : Stop}
    (h : s.accessStop? acc addrs = some st) :
    (∃ a ∈ addrs, ∃ c, translateByte s.xlate acc s.cpl a = .error c ∧
      st = .exc (.pf c (BitVec.ofNat 64 a))) ∨
    ((∀ a ∈ addrs, s.pageFault? acc a = none) ∧
      ∃ a ∈ addrs, s.ordinary a = false ∧ st = .refuse (.notOrdinaryMemory a)) := by
  unfold State.accessStop? at h
  cases h1 : addrs.findSome? (fun a => s.pageFault? acc a) with
  | some e =>
    rw [h1] at h
    cases h
    obtain ⟨a, ha, he⟩ := List.exists_of_findSome?_eq_some h1
    refine .inl ⟨a, ha, ?_⟩
    cases ht : translateByte s.xlate acc s.cpl a with
    | error c => exact ⟨c, rfl, by simp [State.pageFault?, ht] at he; rw [← he]⟩
    | ok p => simp [State.pageFault?, ht] at he
  | none =>
    rw [h1] at h
    have hn := List.findSome?_eq_none_iff.mp h1
    cases h2 : addrs.find? (fun a => !s.ordinary a) with
    | some a =>
      simp only [h2] at h
      cases h
      exact .inr ⟨hn, a, List.mem_of_find?_eq_some h2, by simpa using List.find?_some h2, rfl⟩
    | none => simp [h2] at h

/-- A page fault of any byte stops the access with a page fault. -/
theorem accessStop_of_pageFault {s : State} {acc : Access} {addrs : List Nat} {a : Nat}
    {c : BitVec 32} (ha : a ∈ addrs) (ht : translateByte s.xlate acc s.cpl a = .error c) :
    ∃ b ∈ addrs, ∃ c', translateByte s.xlate acc s.cpl b = .error c' ∧
      s.accessStop? acc addrs = some (.exc (.pf c' (BitVec.ofNat 64 b))) := by
  have hp : s.pageFault? acc a = some (.pf c (BitVec.ofNat 64 a)) := by simp [State.pageFault?, ht]
  cases h : s.accessStop? acc addrs with
  | some st =>
    rcases accessStop_some h with ⟨b, hb, c', hc', rfl⟩ | ⟨hn, _⟩
    · exact ⟨b, hb, c', hc', rfl⟩
    · simp [hn a ha] at hp
  | none =>
    unfold State.accessStop? at h
    cases h1 : addrs.findSome? (fun a => s.pageFault? acc a) with
    | some e => simp [h1] at h
    | none => simp [List.findSome?_eq_none_iff.mp h1 a ha] at hp

/-! ### Operands -/

/-- No address exception: aligned if the form asks it, legal, and no alignment check (R110 step 4). -/
theorem addressExc_none {s : State} {cls : EncClass} {seg : Seg} {a : Quad} {n : Nat}
    (h1 : cls = .legacy → a.toNat % 16 = 0) (h2 : s.operandLegal a n = true)
    (h3 : s.alignmentSettled a n = true) : s.addressExc? cls seg a n = none := by
  have h1' : ¬ (cls = .legacy ∧ a.toNat % 16 ≠ 0) := fun h => h.2 (h1 h.1)
  have h3' : (s.alignmentChecked && decide (a.toNat % n ≠ 0) &&
      Config.alignmentCheckFaults cls n a) = false := by
    rcases Bool.or_eq_true _ _ ▸ h3 with h | h
    · simp at h; simp [h]
    · have : a.toNat % n = 0 := by simpa using h
      simp [this]
  simp only [State.addressExc?, if_neg h1', h2, Bool.not_true, h3', Bool.false_eq_true, if_false]

theorem mem_activeLanes {s : State} {k : Mask} {vl : VecLen} {j : Nat} :
    j ∈ s.activeLanes k vl ↔ j < lanesOf vl ∧ s.selects k j = true := by
  simp [State.activeLanes, laneActive_eq_selects]

theorem mem_bytesFrom {a : Quad} {n b : Nat} :
    b ∈ bytesFrom a n ↔ ∃ k, k < n ∧ (a + BitVec.ofNat 64 k).toNat = b := by
  simp [bytesFrom]

/-- The bytes read of a full memory operand: those of the selected lanes (R51). -/
theorem mem_laneBytes {s : State} {k : Mask} {vl : VecLen} {a : Quad} {b : Nat} :
    b ∈ (s.activeLanes k vl).flatMap (fun j => dwordAddrs (a + BitVec.ofNat 64 (4 * j))) ↔
      ∃ j n, j < lanesOf vl ∧ s.selects k j = true ∧ n < 4 ∧
        (a + BitVec.ofNat 64 (4 * j + n)).toNat = b := by
  simp only [List.mem_flatMap, mem_activeLanes, dwordAddrs_eq, mem_bytesFrom, add_ofNat_add]
  constructor
  · rintro ⟨j, ⟨h1, h2⟩, n, h3, h4⟩; exact ⟨j, n, h1, h2, h3, h4⟩
  · rintro ⟨j, n, h1, h2, h3, h4⟩; exact ⟨j, ⟨h1, h2⟩, n, h3, h4⟩

/-- The bytes read under broadcast: those of the one doubleword, if a lane is selected. -/
theorem mem_bcstBytes {s : State} {k : Mask} {vl : VecLen} {a : Quad} {b : Nat} :
    b ∈ (s.activeLanes k vl).flatMap (fun _ => dwordAddrs a) ↔
      (∃ j, j < lanesOf vl ∧ s.selects k j = true) ∧ ∃ n, n < 4 ∧ (a + BitVec.ofNat 64 n).toNat = b := by
  simp only [List.mem_flatMap, mem_activeLanes, dwordAddrs_eq, mem_bytesFrom]
  constructor
  · rintro ⟨j, h, n, h3, h4⟩; exact ⟨⟨j, h⟩, n, h3, h4⟩
  · rintro ⟨⟨j, h⟩, n, h3, h4⟩; exact ⟨j, h, n, h3, h4⟩

/-- The source lanes of an instruction with a full memory operand. -/
theorem sourceLanes_mem {s : State} {i : Instr} {r : MemRef}
    (h1 : i.cls = .legacy → (s.operandAddress i r).toNat % 16 = 0)
    (h2 : s.operandLegal (s.operandAddress i r) (4 * lanesOf i.vl) = true)
    (h3 : s.alignmentSettled (s.operandAddress i r) (4 * lanesOf i.vl) = true)
    (h4 : s.selectedReadable i (s.operandAddress i r) = true) :
    s.sourceLanes i.cls i.pre i.vl i.mask i.length (.mem r) =
      .ok (s.memLane (s.operandAddress i r)) := by
  have hx : s.accessStop? .read ((s.activeLanes i.mask i.vl).flatMap
      (fun j => dwordAddrs (s.operandAddress i r + BitVec.ofNat 64 (4 * j)))) = none := by
    rw [accessStop_none_iff, readable_iff]
    intro b hb
    obtain ⟨j, n, hj, hs, hn, rfl⟩ := mem_laneBytes.mp hb
    simp only [State.selectedReadable, List.all_eq_true, List.mem_range] at h4
    have := h4 j hj
    rw [hs] at this
    refine (readable_iff _ _).mp (by simpa using this) _ (mem_bytesFrom.mpr ⟨n, hn, ?_⟩)
    rw [add_ofNat_add]
  simp only [State.sourceLanes, operandAddress_eq, State.readOperand, bytesOfLen]
  rw [addressExc_none h1 h2 h3]
  simp only [hx]
  congr 1
  funext j
  exact dwordAt_lane s _ j

/-- The source lanes of an instruction with a broadcast operand. -/
theorem sourceLanes_bcst {s : State} {i : Instr} {r : MemRef}
    (h1 : i.cls = .legacy → (s.operandAddress i r).toNat % 16 = 0)
    (h2 : s.operandOk (s.operandAddress i r) 4 = true) :
    s.sourceLanes i.cls i.pre i.vl i.mask i.length (.bcst r) =
      .ok (fun _ => s.memLane (s.operandAddress i r) 0) := by
  simp only [State.operandOk, Bool.and_eq_true] at h2
  have hx : s.accessStop? .read ((s.activeLanes i.mask i.vl).flatMap
      (fun _ => dwordAddrs (s.operandAddress i r))) = none := by
    rw [accessStop_none_iff, readable_iff]
    intro b hb
    obtain ⟨_, n, hn, rfl⟩ := mem_bcstBytes.mp hb
    exact (readable_iff _ _).mp h2.1.2 _ (mem_bytesFrom.mpr ⟨n, hn, rfl⟩)
  simp only [State.sourceLanes, operandAddress_eq, State.readOperand]
  rw [addressExc_none h1 h2.1.1 h2.2]
  simp only [hx]
  congr 1
  funext _
  exact dwordAt_zero s _

/-- Whatever is read as the source lanes of an instruction is its source operand. -/
theorem sourceLanes_ok {s : State} {i : Instr} {src : Nat → Dword}
    (h : s.sourceLanes i.cls i.pre i.vl i.mask i.length (i.source s.mode) = .ok src) :
    src = s.sourceLane i := by
  have key : ∀ seg a n act at_, s.readOperand i.cls seg a n act at_ = .ok src →
      src = fun j => s.dwordAt (at_ j) := by
    intro seg a n act at_ h
    unfold State.readOperand at h
    repeat' split at h
    all_goals cases h
    rfl
  funext j
  unfold State.sourceLane
  cases hs : i.source s.mode with
  | reg n => rw [hs] at h; cases h; rfl
  | mem r =>
    rw [hs] at h
    rw [key _ _ _ _ _ h, operandAddress_eq]
    exact dwordAt_lane s _ j
  | bcst r =>
    rw [hs] at h
    rw [key _ _ _ _ _ h, operandAddress_eq]
    exact dwordAt_zero s _

/-- A readable operand's selected lanes are readable. -/
theorem selectedReadable_of_readable {s : State} {i : Instr} {a : Quad}
    (h : s.readable (bytesFrom a (4 * lanesOf i.vl)) = true) : s.selectedReadable i a = true := by
  simp only [State.selectedReadable, List.all_eq_true, List.mem_range]
  intro j hj
  have : s.readable (bytesFrom (a + BitVec.ofNat 64 (4 * j)) 4) = true := by
    rw [readable_iff] at h ⊢
    intro b hb
    obtain ⟨n, hn, rfl⟩ := mem_bytesFrom.mp hb
    refine h _ (mem_bytesFrom.mpr ⟨4 * j + n, by omega, ?_⟩)
    rw [add_ofNat_add]
  simp [this]

/-- What stops the source of an instruction stops the instruction, with its outcome. -/
theorem exec_stopped {i : Instr} {s : State} {st : Stop} (hr : s.ready i = true)
    (hs : s.sourceLanes i.cls i.pre i.vl i.mask i.length (i.source s.mode) = .error st) :
    exec i s = st.outcome s := by
  obtain ⟨h1, h2⟩ := (ready_iff s i).mp hr
  rw [exec_eq]
  rcases execute_cases (opOf s.mode i) s with ⟨hl, hm, _⟩ | ⟨h, _⟩ | ⟨_, h, _⟩ | ⟨_, _, st', h, e⟩ |
    ⟨_, _, src', h, _⟩
  · simp [State.invalidOpcode, hm] at h1
  · exact absurd h (by rw [show (opOf s.mode i).cls = i.cls from rfl,
      show (opOf s.mode i).vl = i.vl from rfl, h1]; decide)
  · simp [h2] at h
  · have : s.sourceLanes i.cls i.pre i.vl i.mask i.length (i.source s.mode) = .error st' := h
    rw [hs] at this; cases this; exact e
  · have : s.sourceLanes i.cls i.pre i.vl i.mask i.length (i.source s.mode) = .ok src' := h
    rw [hs] at this; cases this

end Sys2Proof.Machine
end

