-- ==== Sys2Proof/Tests/Slice0.lean ====
section
/-!
SUPPORT. Tests against the spec's own words and vectors, and a witness for every statement with hypotheses.
-/

namespace Sys2Proof.Tests

open Sys2Proof.Machine

-- One theorem at a time: many kernel evaluations at once ask for more threads than the check's memory limit allows.
set_option Elab.async false

/-! ### Helpers -/

/-- The state after, if there is one. -/
def after : Outcome → Option State
  | .next t => some t
  | _ => none

/-- The exception raised, and MXCSR in the state of the fault. -/
def raised : Outcome → Option (Exc × BitVec 32)
  | .fault (.exception e f) => some (e, f.mxcsr)
  | _ => none

/-- Was the outcome a refusal? -/
def wasRefused : Outcome → Bool
  | .refused _ => true
  | _ => false

theorem next_of_after {o : Outcome} (h : (after o).isSome = true) : ∃ t, o = .next t := by
  cases o with
  | next t => exact ⟨t, rfl⟩
  | fault _ => cases h
  | refused _ => cases h

theorem fault_of_raised {o : Outcome} (h : (raised o).isSome = true) :
    ∃ e f, o = .fault (.exception e f) := by
  cases o with
  | next _ => cases h
  | fault f => cases f with | exception e f => exact ⟨e, f, rfl⟩
  | refused _ => cases h

/-- A launch with these code bytes at `RIP`, every form enabled. -/
def start (code : List Byte) : State := State.reset.launch code

/-- Put lanes, lane 0 first, into a vector register. -/
def putZmm (s : State) (n : BitVec 5) (xs : List Dword) : State := s.setZmm n (ofLanes xs)

/-- Put a value into a general register. -/
def putGpr (s : State) (n : Fin 16) (v : Quad) : State := { s with gpr := s.gpr.set n v }

/-- Put a value into an opmask register. -/
def putK (s : State) (n : Fin 8) (v : Quad) : State := { s with k := s.k.set n v }

/-- Put bytes into memory. -/
def putMem (s : State) (a : Nat) (bs : List Byte) : State := { s with mem := s.mem.writeBytes a bs }

/-- Lanes `0` to `n - 1` of a register after a step, lane 0 first. -/
def lanesAfter (s : State) (d : BitVec 5) (n : Nat) : Option (List Dword) :=
  (after (step s)).map (fun t => (List.range n).map (lane (t.getZmm d)))

/-- MXCSR after a step. -/
def mxcsrAfter (s : State) : Option (BitVec 32) := (after (step s)).map State.mxcsr

/-- How far a step moved `RIP`. -/
def ripMoved (s : State) : Option Quad := (after (step s)).map (fun t => t.rip - s.rip)

/-- The decoder in 64-bit mode on the standard configuration. -/
def dec (bs : List Byte) : Decoded := decode Config.standard .long64 bs

/-! ### WellFormed: an ill-formed term for each check, refused -/

theorem test_wf_ok :
    (Instr.legacy [.rep, .segment .fs, .addressSize] 0#3 (.reg 1#3)).wf Config.standard .long64 = true := by
  decide

theorem test_wf_legacy_needs_F3 :
    (Instr.legacy [] 0#3 (.reg 1#3)).wf Config.standard .long64 = false := by decide

theorem test_wf_no_repeat :
    (Instr.legacy [.rep, .rep] 0#3 (.reg 1#3)).wf Config.standard .long64 = false ∧
    (Instr.legacy [.rep, .segment .es, .segment .fs] 0#3 (.reg 1#3)).wf Config.standard .long64 = false ∧
    (Instr.legacy [.rep, .addressSize, .addressSize] 0#3 (.reg 1#3)).wf Config.standard .long64 = false := by
  decide

theorem test_wf_other_prefixes :
    (Instr.legacy [.rep, .operandSize] 0#3 (.reg 1#3)).wf Config.standard .long64 = false ∧
    (Instr.legacy [.repne, .rep] 0#3 (.reg 1#3)).wf Config.standard .long64 = false ∧
    (Instr.legacy [.lock, .rep] 0#3 (.reg 1#3)).wf Config.standard .long64 = false ∧
    (Instr.vex128C5 [.rep] false 0#3 (.reg 1#3)).wf Config.standard .long64 = false := by decide

theorem test_wf_addressing16 :
    (Instr.vex128C5 [.addressSize] false 0#3 (.reg 1#3)).wf Config.standard .prot32 = false := by decide

theorem test_wf_memory :
    (Instr.legacy [.rep] 0#3 (.mem (.base 4#3 .absent))).wf Config.standard .long64 = false ∧
    (Instr.legacy [.rep] 0#3 (.mem (.base 5#3 .absent))).wf Config.standard .long64 = false ∧
    (Instr.legacy [.rep] 0#3 (.mem (.sib 0#2 0#3 5#3 .absent))).wf Config.standard .long64 = false := by
  decide

theorem test_wf_rex_outside_64 :
    (Instr.legacyRex [.rep] ⟨false, false, false, false⟩ 0#3 (.reg 1#3)).wf Config.standard .prot32 =
      false := by decide

theorem test_wf_extension_bits :
    (Instr.vex128C5 [] true 0#3 (.reg 1#3)).wf Config.standard .prot32 = false ∧
    (Instr.vex256C4 [] ⟨false, false, true, false⟩ 0#3 (.reg 1#3)).wf Config.standard .prot32 = false ∧
    (Instr.evex512 [] ⟨false, false, false, true⟩ .unmasked 0#3 (.reg 1#3)).wf Config.standard .prot32 =
      false := by decide

theorem test_wf_mask :
    (Instr.evex128 [] ⟨false, false, false, false⟩ (.merging 0#3) 0#3 (.reg 1#3)).wf Config.standard
      .long64 = false ∧
    (Instr.evex256 [] ⟨false, false, false, false⟩ (.zeroing 0#3) 0#3 (.reg 1#3)).wf Config.standard
      .long64 = false := by decide

theorem test_wf_sae_length :
    (Instr.evex512Sae [] ⟨false, false, false, false⟩ .unmasked 0#2 0#3 1#3).wf
      { Config.standard with saeIgnoresLL := false } .long64 = false := by decide

theorem test_wf_mode :
    (Instr.legacy [.rep] 0#3 (.reg 1#3)).wf Config.standard .real = false ∧
    (Instr.vex128C5 [] false 0#3 (.reg 1#3)).wf Config.standard .virtual8086 = false ∧
    (Instr.evex512 [] ⟨false, false, false, false⟩ .unmasked 0#3 (.reg 1#3)).wf Config.standard .real =
      false := by decide

/-! ### Decoding: words of V8, one or more for each constructor -/

theorem test_decode_legacy : dec [0xF3#8, 0x0F#8, 0x5B#8, 0x10#8] =
    .instr (.legacy [.rep] 2#3 (.mem (.base 0#3 .absent))) [] := by decide

theorem test_decode_legacyRex : dec [0xF3#8, 0x45#8, 0x0F#8, 0x5B#8, 0xCA#8] =
    .instr (.legacyRex [.rep] ⟨false, true, false, true⟩ 1#3 (.reg 2#3)) [] := by decide

theorem test_decode_vex128C5 : dec [0xC5#8, 0xFA#8, 0x5B#8, 0x0D#8, 0x17#8, 0#8, 0#8, 0#8] =
    .instr (.vex128C5 [] false 1#3 (.mem (.disp32 0x17#32))) [] := by decide

theorem test_decode_vex128C4 : dec [0xC4#8, 0x41#8, 0x7A#8, 0x5B#8, 0xC1#8] =
    .instr (.vex128C4 [] ⟨true, false, true, false⟩ 0#3 (.reg 1#3)) [] := by decide

theorem test_decode_vex256C5 : dec [0xC5#8, 0xFE#8, 0x5B#8, 0x4C#8, 0x8B#8, 0x10#8] =
    .instr (.vex256C5 [] false 1#3 (.mem (.sib 2#2 1#3 3#3 (.disp8 0x10#8)))) [] := by decide

theorem test_decode_vex256C4 : dec [0xC4#8, 0x41#8, 0x7E#8, 0x5B#8, 0xC1#8] =
    .instr (.vex256C4 [] ⟨true, false, true, false⟩ 0#3 (.reg 1#3)) [] := by decide

theorem test_decode_evex128 : dec [0x62#8, 0xF1#8, 0x7E#8, 0x0A#8, 0x5B#8, 0x48#8, 0x04#8] =
    .instr (.evex128 [] ⟨false, false, false, false⟩ (.merging 2#3) 1#3
      (.mem (.base 0#3 (.disp8 4#8)))) [] := by decide

theorem test_decode_evex256 : dec [0x62#8, 0xF1#8, 0x7E#8, 0x29#8, 0x5B#8, 0x50#8, 0x01#8] =
    .instr (.evex256 [] ⟨false, false, false, false⟩ (.merging 1#3) 2#3
      (.mem (.base 0#3 (.disp8 1#8)))) [] := by decide

theorem test_decode_evex512 : dec [0x62#8, 0x01#8, 0x7E#8, 0x48#8, 0x5B#8, 0xF5#8] =
    .instr (.evex512 [] ⟨true, true, true, true⟩ .unmasked 6#3 (.reg 5#3)) [] := by decide

theorem test_decode_evex512Sae : dec [0x62#8, 0xF1#8, 0x7E#8, 0x18#8, 0x5B#8, 0xD3#8] =
    .instr (.evex512Sae [] ⟨false, false, false, false⟩ .unmasked 0#2 2#3 3#3) [] := by decide

theorem test_decode_prefixes :
    dec [0x64#8, 0xC5#8, 0xFA#8, 0x5B#8, 0x03#8] =
      .instr (.vex128C5 [.segment .fs] false 0#3 (.mem (.base 3#3 .absent))) [] ∧
    dec [0x67#8, 0xC5#8, 0xFA#8, 0x5B#8, 0x00#8] =
      .instr (.vex128C5 [.addressSize] false 0#3 (.mem (.base 0#3 .absent))) [] := by decide

/-- V10: the `#UD` encodings. -/
theorem test_decode_invalid :
    dec [0xC5#8, 0xF2#8, 0x5B#8, 0xC1#8] = .invalid .vvvv ∧
    dec [0xC4#8, 0xE1#8, 0x3A#8, 0x5B#8, 0xC1#8] = .invalid .vvvv ∧
    dec [0x62#8, 0xF1#8, 0x76#8, 0x48#8, 0x5B#8, 0xCA#8] = .invalid .vvvv ∧
    dec [0x62#8, 0xF1#8, 0x7E#8, 0x40#8, 0x5B#8, 0xCA#8] = .invalid .vPrime ∧
    dec [0x62#8, 0xF1#8, 0x7E#8, 0xC8#8, 0x5B#8, 0xCA#8] = .invalid .zeroingUnmasked ∧
    dec [0x62#8, 0xF1#8, 0x7E#8, 0x68#8, 0x5B#8, 0xCA#8] = .invalid .vectorLength ∧
    dec [0x62#8, 0xF5#8, 0x7E#8, 0x48#8, 0x5B#8, 0xCA#8] = .invalid .reservedBits ∧
    dec [0xF0#8, 0xF3#8, 0x0F#8, 0x5B#8, 0xC1#8] = .invalid .lock ∧
    dec [0xF3#8, 0xC5#8, 0xFA#8, 0x5B#8, 0xC1#8] = .invalid .prefixBeforeVex := by decide

/-- V10: the refused encodings. -/
theorem test_decode_refused :
    dec [0x62#8, 0xF1#8, 0xFE#8, 0x48#8, 0x5B#8, 0xCA#8] = .refused .otherInstruction ∧
    dec [0xC5#8, 0xF9#8, 0x5B#8, 0xC1#8] = .refused .otherInstruction ∧
    dec [0x66#8, 0xF3#8, 0x0F#8, 0x5B#8, 0xC1#8] = .refused .conflictingPrefix ∧
    dec [0x0F#8, 0x5B#8, 0xC1#8] = .refused .otherInstruction := by decide

/-- R62, D18: a REX byte that another prefix follows, beside `LOCK` and before VEX and EVEX (entry 17). -/
theorem test_decode_misplaced_rex :
    dec [0x48#8, 0xF3#8, 0x0F#8, 0x5B#8, 0xC1#8] = .refused .misplacedRex ∧
    dec [0xF0#8, 0x48#8, 0xF3#8, 0x0F#8, 0x5B#8, 0xC1#8] = .refused .misplacedRex ∧
    dec [0x48#8, 0xF0#8, 0xF3#8, 0x0F#8, 0x5B#8, 0xC1#8] = .refused .misplacedRex ∧
    dec [0x48#8, 0x66#8, 0xC5#8, 0xFA#8, 0x5B#8, 0xC1#8] = .refused .misplacedRex ∧
    dec [0x48#8, 0x64#8, 0x62#8, 0xF1#8, 0x7E#8, 0x48#8, 0x5B#8, 0xC1#8] = .refused .misplacedRex := by
  decide

/-- V10 and R67: `C5`, `C4` and `62` outside 64-bit mode are other instructions unless `11b` follows. -/
theorem test_decode_prot32 :
    decode Config.standard .prot32 [0xC5#8, 0x7A#8, 0x5B#8, 0xC1#8] = .refused .otherInstruction ∧
    decode Config.standard .prot32 [0xC5#8, 0xFA#8, 0x5B#8, 0xC1#8] =
      .instr (.vex128C5 [] false 0#3 (.reg 1#3)) [] ∧
    decode Config.standard .prot32 [0x62#8, 0xE1#8, 0x7E#8, 0x48#8, 0x5B#8, 0xC1#8] =
      .refused .extensionBits := by decide

/-- R67, R110 step 1: `BOUND` and `LES` of two bytes are told from the prefixes by those two bytes alone. -/
theorem test_decode_prot32_two_bytes :
    decode Config.standard .prot32 [0x62#8, 0x08#8] = .refused .otherInstruction ∧
    decode Config.standard .prot32 [0xC4#8, 0x08#8] = .refused .otherInstruction ∧
    decode Config.standard .prot32 [0x62#8] = .more ∧
    decode Config.standard .prot32 [0xC4#8, 0xC8#8] = .more := by decide

/-- The table's word of row 1, `F3 0F 5B` and a ModRM byte of zeros. -/
theorem test_decode_table_word :
    decodeTableWord 32 0xF30F5B00 = some (.legacy [.rep] 0#3 (.mem (.base 0#3 .absent))) ∧
    decodeTableWord 32 0x005B0FF3 = some (.legacy [.rep] 0#3 (.mem (.base 0#3 .absent))) := by decide

/-! ### The conversion: the rows of V1 and V2 -/

/-- Does a row `x, result, I, P` agree with the lane function? -/
def rowOk (daz : Bool) (r : Dword × Dword × Bool × Bool) : Bool :=
  cvtT r.1 daz == ⟨r.2.1, r.2.2.1, r.2.2.2⟩

theorem test_convert_V1_1_to_12 : ([
    (0x3F800000#32, 0x00000001#32, false, false), (0x3FC00000#32, 0x00000001#32, false, true),
    (0xBFC00000#32, 0xFFFFFFFF#32, false, true), (0x40300000#32, 0x00000002#32, false, true),
    (0xC0300000#32, 0xFFFFFFFE#32, false, true), (0x3F7FFFFF#32, 0x00000000#32, false, true),
    (0xBF7FFFFF#32, 0x00000000#32, false, true), (0x00000000#32, 0x00000000#32, false, false),
    (0x80000000#32, 0x00000000#32, false, false), (0x00000001#32, 0x00000000#32, false, true),
    (0x807FFFFF#32, 0x00000000#32, false, true), (0x00800000#32, 0x00000000#32, false, true)].all
      (rowOk false)) = true := by decide +kernel

theorem test_convert_V1_13_to_27 : ([
    (0x4EFFFFFF#32, 0x7FFFFF80#32, false, false), (0x4F000000#32, 0x80000000#32, true, false),
    (0xCF000000#32, 0x80000000#32, false, false), (0xCF000001#32, 0x80000000#32, true, false),
    (0xCEFFFFFF#32, 0x80000080#32, false, false), (0x7F800000#32, 0x80000000#32, true, false),
    (0xFF800000#32, 0x80000000#32, true, false), (0x7FC00000#32, 0x80000000#32, true, false),
    (0xFFC00000#32, 0x80000000#32, true, false), (0x7F800001#32, 0x80000000#32, true, false),
    (0x7FFFFFFF#32, 0x80000000#32, true, false), (0x4B800000#32, 0x01000000#32, false, false),
    (0x4AFFFFFF#32, 0x007FFFFF#32, false, true), (0x4B000000#32, 0x00800000#32, false, false),
    (0x4B7FFFFF#32, 0x00FFFFFF#32, false, false)].all (rowOk false)) = true := by decide +kernel

theorem test_convert_V1_28_to_41 : ([
    (0x47F12065#32, 0x0001E240#32, false, true), (0xC7F12065#32, 0xFFFE1DC0#32, false, true),
    (0x407FFFFF#32, 0x00000003#32, false, true), (0xBF000000#32, 0x00000000#32, false, true),
    (0x40E00000#32, 0x00000007#32, false, false), (0xC0E00000#32, 0xFFFFFFF9#32, false, false),
    (0x42C88000#32, 0x00000064#32, false, true), (0x7F7FFFFF#32, 0x80000000#32, true, false),
    (0xFF7FFFFF#32, 0x80000000#32, true, false), (0x4F800000#32, 0x80000000#32, true, false),
    (0x501502F9#32, 0x80000000#32, true, false), (0x42280000#32, 0x0000002A#32, false, false),
    (0xBF800000#32, 0xFFFFFFFF#32, false, false), (0x477FFFFF#32, 0x0000FFFF#32, false, true)].all
      (rowOk false)) = true := by decide +kernel

theorem test_convert_V2 : ([
    (0x00000001#32, 0x00000000#32, false, false), (0x807FFFFF#32, 0x00000000#32, false, false),
    (0x00800000#32, 0x00000000#32, false, true), (0x3FC00000#32, 0x00000001#32, false, true)].all
      (rowOk true)) = true := by decide +kernel

/-! ### One step of each form -/

/-- R111's example: `F3 0F 5B C1`. -/
def legacyExample : State :=
  putZmm (putZmm (start [0xF3#8, 0x0F#8, 0x5B#8, 0xC1#8]) 1#5
    [0x3FC00000#32, 0xC0300000#32, 0x4F000000#32, 0x80000000#32]) 0#5 (List.replicate 16 0x11111111#32)

theorem test_legacy_example : lanesAfter legacyExample 0#5 6 =
    some [0x00000001#32, 0xFFFFFFFE#32, 0x80000000#32, 0x00000000#32, 0x11111111#32, 0x11111111#32] ∧
    mxcsrAfter legacyExample = some 0x1FA1#32 ∧ ripMoved legacyExample = some 4#64 := by decide +kernel

/-- V3: Invalid unmasked, `OSXMMEXCPT` 1 and 0; Precision unmasked. -/
theorem test_legacy_V3 :
    let s := putZmm (start [0xF3#8, 0x0F#8, 0x5B#8, 0xC1#8]) 1#5
      [0x3F800000#32, 0x7FC00000#32, 0x00000000#32, 0x3FC00000#32]
    raised (step { s with mxcsr := 0x1F00#32 }) = some (.xm, 0x1F01#32) ∧
    raised (step { s with mxcsr := 0x1F00#32, cr4 := 0x40200#64 }) = some (.ud, 0x1F01#32) ∧
    raised (step { s with mxcsr := 0x0F80#32 }) = some (.xm, 0x0FA1#32) ∧
    raised (step { s with mxcsr := 0x0F00#32 }) = some (.xm, 0x0F01#32) := by decide +kernel

/-- V8: `F3 45 0F 5B CA` converts `xmm10` to `xmm9`. -/
theorem test_legacyRex_registers :
    lanesAfter (putZmm (start [0xF3#8, 0x45#8, 0x0F#8, 0x5B#8, 0xCA#8]) 10#5 [0x40E00000#32]) 9#5 2 =
      some [7#32, 0#32] := by decide +kernel

/-- V9: the legacy form's RIP-relative operand, misaligned at 401108 and aligned at 401100. -/
theorem test_legacy_V9 :
    raised (step (State.launch { State.reset with rip := 0x401000#64 }
      [0xF3#8, 0x0F#8, 0x5B#8, 0x05#8, 0x00#8, 0x01#8, 0#8, 0#8])) = some (.gp, 0x1F80#32) ∧
    (after (step (State.launch { State.reset with rip := 0x401000#64 }
      [0xF3#8, 0x0F#8, 0x5B#8, 0x05#8, 0xF8#8, 0x00#8, 0#8, 0#8]))).isSome = true := by decide +kernel

/-- R112's example: `C5 FA 5B C1`; the upper bits are zeroed. -/
theorem test_vex128C5_example :
    let s := putZmm (putZmm (start [0xC5#8, 0xFA#8, 0x5B#8, 0xC1#8]) 1#5
      [0x7FC00000#32, 0xCF000000#32, 0x3F7FFFFF#32, 0x42280000#32]) 0#5 (List.replicate 16 0x11111111#32)
    lanesAfter s 0#5 6 = some [0x80000000#32, 0x80000000#32, 0#32, 0x2A#32, 0#32, 0#32] ∧
      mxcsrAfter s = some 0x1FA1#32 := by decide +kernel

/-- V9: a non-canonical operand through DS and through SS. -/
theorem test_vex128C5_noncanonical :
    raised (step (putGpr (start [0xC5#8, 0xFA#8, 0x5B#8, 0x00#8]) 0 0x0000800000000000#64)) =
      some (.gp, 0x1F80#32) ∧
    raised (step (putGpr (start [0xC5#8, 0xFA#8, 0x5B#8, 0x45#8, 0x00#8]) 5 0x0000800000000000#64)) =
      some (.ss, 0x1F80#32) := by decide +kernel

/-- V8: `C4 41 7A 5B C1` converts `xmm9` to `xmm8`. -/
theorem test_vex128C4_registers :
    lanesAfter (putZmm (start [0xC4#8, 0x41#8, 0x7A#8, 0x5B#8, 0xC1#8]) 9#5 [0xC0E00000#32]) 8#5 2 =
      some [0xFFFFFFF9#32, 0#32] := by decide +kernel

/-- R113's source lanes, lowest four: `477FFFFF 47F12065` and so on; eight lanes are written. -/
theorem test_vex256C5_lanes :
    lanesAfter (putZmm (start [0xC5#8, 0xFE#8, 0x5B#8, 0xC1#8]) 1#5
      [0x47F12065#32, 0x477FFFFF#32, 0xBF000000#32, 1#32, 0x4AFFFFFF#32, 0x4B800000#32, 0x40E00000#32,
        0xC0E00000#32, 0x3F800000#32]) 0#5 9 =
      some [0x1E240#32, 0xFFFF#32, 0#32, 0#32, 0x7FFFFF#32, 0x1000000#32, 7#32, 0xFFFFFFF9#32, 0#32] := by
  decide +kernel

/-- V9: `C5 FE 5B 4C 8B 10` reads at `1000 + 3 * 4 + 10 = 101C`, unaligned. -/
theorem test_vex256C5_memory :
    lanesAfter (putMem (putGpr (putGpr (start [0xC5#8, 0xFE#8, 0x5B#8, 0x4C#8, 0x8B#8, 0x10#8]) 3
      0x1000#64) 1 3#64) 0x101C [0x00#8, 0x00#8, 0xE0#8, 0x40#8]) 1#5 2 = some [7#32, 0#32] := by
  decide +kernel

/-- V8: `C4 41 7E 5B C1` converts `ymm9` to `ymm8`. -/
theorem test_vex256C4_registers :
    lanesAfter (putZmm (start [0xC4#8, 0x41#8, 0x7E#8, 0x5B#8, 0xC1#8]) 9#5
      [0#32, 0#32, 0#32, 0#32, 0#32, 0#32, 0#32, 0x42280000#32]) 8#5 9 =
      some [0#32, 0#32, 0#32, 0#32, 0#32, 0#32, 0#32, 0x2A#32, 0#32] := by decide +kernel

/-- R115's example: merging under `K[2] = 5`, `disp8` scaled by 16. -/
theorem test_evex128_example :
    let s := putMem (putK (putGpr (putZmm (start [0x62#8, 0xF1#8, 0x7E#8, 0x0A#8, 0x5B#8, 0x48#8, 0x04#8])
      1#5 [0xDDDDDDDD#32, 0xCCCCCCCC#32, 0xBBBBBBBB#32, 0xAAAAAAAA#32, 0x99999999#32]) 0 0x600000#64) 2 5#64)
      0x600040 [0#8, 0#8, 0xC0#8, 0x3F#8, 0#8, 0#8, 0x80#8, 0xFF#8, 0#8, 0#8, 0x30#8, 0x40#8,
        0#8, 0#8, 0x80#8, 0x7F#8]
    lanesAfter s 1#5 5 = some [1#32, 0xCCCCCCCC#32, 2#32, 0xAAAAAAAA#32, 0#32] ∧
      mxcsrAfter s = some 0x1FA0#32 := by decide +kernel

/-- R116's example: zeroing under `K[1] = 0F`. -/
theorem test_evex256_example :
    lanesAfter (putK (putZmm (start [0x62#8, 0xF1#8, 0x7E#8, 0xA9#8, 0x5B#8, 0xD3#8]) 3#5
      (List.replicate 8 0xC0300000#32)) 1 0x0F#64) 2#5 9 =
      some [0xFFFFFFFE#32, 0xFFFFFFFE#32, 0xFFFFFFFE#32, 0xFFFFFFFE#32, 0#32, 0#32, 0#32, 0#32, 0#32] := by
  decide +kernel

/-- R117's example: a broadcast, zeroing under `K[1] = FF`. -/
theorem test_evex512_example :
    lanesAfter (putMem (putK (putGpr (start [0x62#8, 0xF1#8, 0x7E#8, 0xD9#8, 0x5B#8, 0x08#8]) 0
      0x600000#64) 1 0xFF#64) 0x600000 [0x65#8, 0x20#8, 0xF1#8, 0xC7#8]) 1#5 16 =
      some (List.replicate 8 0xFFFE1DC0#32 ++ List.replicate 8 0#32) := by decide +kernel

/-- V8: registers above 15, every extension bit set. -/
theorem test_evex512_high_registers :
    lanesAfter (putZmm (start [0x62#8, 0x01#8, 0x7E#8, 0x48#8, 0x5B#8, 0xF5#8]) 29#5
      (List.replicate 16 0x3F800000#32)) 30#5 16 = some (List.replicate 16 1#32) := by decide +kernel

/-- V7: `{sae}` with `IM = 0` completes and leaves MXCSR; without it `#XM`. -/
theorem test_evex512Sae_V7 :
    let src := [0x7FC00000#32, 0x3FC00000#32]
    let s := fun p2 : Byte => { putZmm (start [0x62#8, 0xF1#8, 0x7E#8, p2, 0x5B#8, 0xD3#8]) 3#5 src with
      mxcsr := 0x1F00#32 }
    lanesAfter (s 0x58#8) 2#5 3 = some [0x80000000#32, 1#32, 0#32] ∧
      mxcsrAfter (s 0x58#8) = some 0x1F00#32 ∧ raised (step (s 0x48#8)) = some (.xm, 0x1F01#32) := by
  decide +kernel

/-! ### The machine -/

/-- R33: from reset no form runs; the code bytes are out of the spec's scope. -/
theorem test_reset_step : wasRefused (step State.reset) = true := by decide +kernel

/-- V10: features and controls. -/
theorem test_controls_V10 :
    raised (step { start [0xC5#8, 0xFA#8, 0x5B#8, 0xC1#8] with cr0 := 0x60000018#64 }) =
      some (.nm, 0x1F80#32) ∧
    raised (step { start [0xF3#8, 0x0F#8, 0x5B#8, 0xC1#8] with cr4 := 0x40400#64 }) =
      some (.ud, 0x1F80#32) ∧
    raised (step { start [0x62#8, 0xF1#8, 0x7E#8, 0x08#8, 0x5B#8, 0xC1#8] with
      cfg := { Config.standard with hasAVX512VL := false } }) = some (.ud, 0x1F80#32) := by decide +kernel

/-- The host's placing of the table's row 1: the next step runs it. -/
theorem test_withFetchWord :
    (after (step (State.reset.withFetchWord 32 0xF30F5B00))).isSome = true := by decide +kernel

/-- R27, D3: `RIP + len` is written also where it is not canonical, and outside 64-bit mode in 32 bits. -/
theorem test_rip_after :
    (after (exec (.legacy [.rep] 0#3 (.reg 1#3)) { start [] with rip := 0x00007FFFFFFFFFFC#64 })).map
      State.rip = some 0x0000800000000000#64 ∧
    (after (exec (.legacy [.rep] 0#3 (.reg 1#3))
      { start [] with mode := .prot32, rip := 0xFFFFFFFC#64 })).map State.rip = some 0#64 := by decide +kernel

/-- R5: an alias of a launch-memory location at a linear address outside the launch memory is not read. -/
theorem test_launch_memory_is_linear :
    wasRefused (exec (.vex128C5 [] false 0#3 (.mem (.base 0#3 .absent)))
      { putGpr (start []) 0 0x5000#64 with
        ram := [⟨0x1000, 0x1000⟩], xlate := [⟨0x5000, 0x1000, none, none, .location 0x1000⟩] }) = true := by
  decide +kernel

/-- R120: the vectors. -/
theorem test_vectors :
    [Exc.ud, .nm, .ss, .gp, .pf 0#32 0#64, .ac, .xm].map Exc.vector = [6, 7, 12, 13, 14, 17, 19] := by decide

/-- R50: a rule of `Translate` moves a page; V6's broadcast reads through it. -/
theorem test_translate :
    lanesAfter { putMem (putGpr (start [0x62#8, 0xF1#8, 0x7E#8, 0x18#8, 0x5B#8, 0x08#8]) 0 0x1000#64) 0x9000
      [0x00#8, 0x00#8, 0x30#8, 0x40#8] with xlate := [⟨0x1000, 0x1000, none, none, .location 0x9000⟩] }
      1#5 5 = some [2#32, 2#32, 2#32, 2#32, 0#32] := by decide +kernel

/-! ### Witnesses: each statement's hypotheses are met, clause by clause -/

/-- A launch state in 64-bit mode with identity translation. -/
def ready : State := start []

/-- The same with a page at `1000` that no read may touch, and another at `3000`. -/
def guarded : State :=
  { ready with xlate := [⟨0x1000, 0x1000, some .read, none, .pageFault 4#32⟩,
      ⟨0x3000, 0x1000, none, some 0#2, .pageFault 0#32⟩] }

/-- `[rax]`. -/
def atRax : Mem := .base 0#3 .absent

/-- No extension bit. -/
def noExt : EvexExt := ⟨false, false, false, false⟩

/-- No free bit of a three-byte VEX prefix. -/
def noVex : Vex3 := ⟨false, false, false, false⟩

/-- No bit of a REX byte. -/
def noRex : Rex := ⟨false, false, false, false⟩

/-- A configuration without AVX-512. -/
def avxOnly : Config :=
  { Config.standard with maxVL := .v256, hasAVX512F := false, hasAVX512VL := false }

theorem witness_DecodeOfEncodeIsTheInstruction :
    (Instr.evex512Sae [.segment .gs] ⟨true, true, true, true⟩ (.zeroing 7#3) 3#2 7#3 7#3).wf
      Config.standard .long64 = true ∧
    (Instr.legacy [.rep] 0#3 (.mem (.disp32 0#32))).wf Config.standard .prot32 = true := by decide

theorem witness_EncodeOfDecodeIsTheBytes :
    decode Config.standard .long64 [0xF3#8, 0x0F#8, 0x5B#8, 0xC1#8, 0xCC#8] =
      .instr (.legacy [.rep] 0#3 (.reg 1#3)) [0xCC#8] := by decide

/-- Thirteen bytes: three prefixes would be more than VEX admits, so `64 67 62 F1 7E 48 5B 84 24` and a `disp32`. -/
theorem witness_DecodedLengthIsBytesConsumed :
    decode Config.standard .long64 ([0x64#8, 0x67#8, 0x62#8, 0xF1#8, 0x7E#8, 0x48#8, 0x5B#8, 0x84#8, 0x24#8] ++
      [0#8, 1#8, 0#8, 0#8]) =
      .instr (.evex512 [.segment .fs, .addressSize] noExt .unmasked 0#3
        (.mem (.sib 0#2 4#3 4#3 (.disp32 0x100#32)))) [] := by decide

theorem witness_DecodedRegistersExist :
    decode Config.standard .prot32 [0xC5#8, 0xFE#8, 0x5B#8, 0xFF#8] =
      .instr (.vex256C5 [] false 7#3 (.reg 7#3)) [] ∧
    decode Config.standard .long64 [0xC4#8, 0x41#8, 0x7E#8, 0x5B#8, 0xFF#8] =
      .instr (.vex256C4 [] ⟨true, false, true, false⟩ 7#3 (.reg 7#3)) [] := by decide

/-- Both kinds of `mod`. -/
theorem witness_RegisterNumbers :
    takeModRM ((3#2 ++ 7#3 ++ 5#3) :: [0xCC#8]) = some (7#3, .reg 5#3, [0xCC#8]) ∧
    takeModRM ((1#2 ++ 7#3 ++ 5#3) :: [0x80#8]) = some (7#3, .mem (.base 5#3 (.disp8 0x80#8)), []) := by
  decide

/-- One word for each prefix layout; of the EVEX word `X`, `B`, `R` and `R'` are 1, 0, 0 and 1. -/
theorem witness_RegisterNumbersFromTheBytes :
    dec [0xF3#8, 0x0F#8, 0x5B#8, 0xC1#8] = .instr (.legacy [.rep] 0#3 (.reg 1#3)) [] ∧
    dec [0xF3#8, 0x44#8, 0x0F#8, 0x5B#8, 0xCA#8] =
      .instr (.legacyRex [.rep] ⟨false, true, false, false⟩ 1#3 (.reg 2#3)) [] ∧
    (0x44#8).extractLsb' 4 4 = 4#4 ∧
    dec [0x64#8, 0xC5#8, 0x7A#8, 0x5B#8, 0xC1#8] =
      .instr (.vex128C5 [.segment .fs] true 0#3 (.reg 1#3)) [] ∧
    dec [0xC4#8, 0xC1#8, 0x7E#8, 0x5B#8, 0xC1#8] =
      .instr (.vex256C4 [] ⟨false, false, true, false⟩ 0#3 (.reg 1#3)) [] ∧
    dec [0x62#8, 0xA1#8, 0x7E#8, 0x48#8, 0x5B#8, 0xCE#8] =
      .instr (.evex512 [] ⟨false, true, false, true⟩ .unmasked 1#3 (.reg 6#3)) [] := by decide

theorem witness_WrongVvvvIsInvalid :
    (RM.reg 1#3).wf = true ∧
    ((0xF2#8).extractLsb' 0 2 = 2#2 ∧ (0xF2#8).extractLsb' 3 4 ≠ 15#4) ∧
    ((0xE1#8).extractLsb' 0 5 = 1#5 ∧ (0x02#8).extractLsb' 0 2 = 2#2 ∧ (0x02#8).extractLsb' 3 4 ≠ 15#4) ∧
    ((0xF1#8).extractLsb' 0 4 = 1#4 ∧ (0x76#8).extractLsb' 0 3 = 6#3 ∧ bit 0x76#8 7 = false ∧
      (0x76#8).extractLsb' 3 4 ≠ 15#4) := by decide

theorem witness_EvexReservedFieldsAreInvalid :
    (RM.reg 2#3).wf = true ∧ (RM.mem atRax).wf = true ∧
    ((0xFD#8).extractLsb' 0 2 = 1#2 ∧ (0xFD#8).extractLsb' 2 2 ≠ 0#2) ∧
    ((0xF1#8).extractLsb' 0 2 = 1#2 ∧ (0x7A#8).extractLsb' 0 2 = 2#2 ∧ bit 0x7A#8 7 = false ∧
      bit 0x7A#8 2 = false) ∧
    ((0x7E#8).extractLsb' 0 2 = 2#2 ∧ bit 0x7E#8 7 = false) ∧ bit 0x40#8 3 = false ∧
    (bit 0xC8#8 7 = true ∧ (0xC8#8).extractLsb' 0 3 = 0#3) ∧
    ((0x68#8).extractLsb' 5 2 = 3#2 ∧ bit 0x68#8 4 = false) ∧
    ((0x78#8).extractLsb' 5 2 = 3#2 ∧ ∃ m, RM.mem atRax = .mem m) :=
  ⟨by decide, by decide, by decide, by decide, by decide, by decide, by decide, by decide, by decide, _, rfl⟩

/-- `LOCK` between `64` and `F3`, and directly before a VEX prefix. -/
theorem witness_LockPrefixIsInvalid :
    (Instr.legacy [.segment .fs, .rep] 0#3 (.reg 1#3)).wf Config.standard .prot32 = true ∧
    (Instr.legacy [.segment .fs, .rep] 0#3 (.reg 1#3)).pre = [.segment .fs] ++ [.rep] ∧
    encode (.legacy [.segment .fs, .rep] 0#3 (.reg 1#3)) =
      encodePre [.segment .fs, .rep] ++ [0x0F#8, 0x5B#8, 0xC1#8] ∧
    (Instr.vex256C4 [.addressSize] noVex 0#3 (.mem atRax)).wf Config.standard .long64 = true ∧
    (Instr.vex256C4 [.addressSize] noVex 0#3 (.mem atRax)).pre = [.addressSize] ++ [] ∧
    encode (.vex256C4 [.addressSize] noVex 0#3 (.mem atRax)) =
      encodePre [.addressSize] ++ [0xC4#8, 0xE1#8, 0x7E#8, 0x5B#8, 0x00#8] := by decide

/-- `66` after a segment override and `67`; a REX byte after an override; `F3` outside 64-bit mode. -/
theorem witness_PrefixBeforeVexIsInvalid :
    (Instr.evex128 [] noExt .unmasked 0#3 (.reg 1#3)).wf Config.standard .long64 = true ∧
    (Instr.evex128 [] noExt .unmasked 0#3 (.reg 1#3)).wf Config.standard .prot32 = true ∧
    (Instr.evex128 [] noExt .unmasked 0#3 (.reg 1#3)).cls ≠ .legacy ∧
    encode (.evex128 [] noExt .unmasked 0#3 (.reg 1#3)) =
      encodePre [] ++ [0x62#8, 0xF1#8, 0x7E#8, 0x08#8, 0x5B#8, 0xC1#8] ∧
    .lock ∉ [Prefix.segment .fs, .addressSize, .operandSize] ∧
    .operandSize ∈ [Prefix.segment .fs, .addressSize, .operandSize] ∧
    .addressSize ∉ [Prefix.rep, .segment .gs] ∧ .rep ∈ [Prefix.rep, .segment .gs] ∧
    dec [0x64#8, 0x48#8, 0xC5#8, 0xFA#8, 0x5B#8, 0xC1#8] = .invalid .prefixBeforeVex := by decide

theorem witness_RedundantLegacyPrefixIsRefused :
    (Instr.legacy [.segment .fs, .rep] 0#3 (.reg 1#3)).wf Config.standard .long64 = true ∧
    (Instr.legacy [.segment .fs, .rep] 0#3 (.reg 1#3)).cls = .legacy ∧
    Prefix.segment .fs ∈ (Instr.legacy [.segment .fs, .rep] 0#3 (.reg 1#3)).pre := by decide

theorem witness_RegisterSourceEvexB :
    evexWf .long64 [.segment .fs] ⟨true, true, true, true⟩ (.merging 7#3) = true ∧
    evexWf .prot32 [] noExt .unmasked = true := by decide

theorem witness_Disp8IsScaled :
    Mem.base 0#3 (.disp8 0x80#8) = .base 0#3 (.disp8 0x80#8) ∧
    Mem.sib 3#2 4#3 5#3 (.disp8 0x7F#8) = .sib 3#2 4#3 5#3 (.disp8 0x7F#8) := ⟨rfl, rfl⟩

/-- A base that is neither `100b` nor `101b`, and the SIB base `100b`, each at the end of its range. -/
theorem witness_ModRmAndSibBytes :
    (7#3 : BitVec 3) ≠ 4#3 ∧ (7#3 : BitVec 3) ≠ 5#3 ∧ (4#3 : BitVec 3) ≠ 5#3 := by decide

/-- `RSP` is no index, `R12` is one; the displacements; `disp32` alone in both modes. -/
theorem witness_MemoryOperandForms :
    (false = false ∧ (4#3 : BitVec 3) = 4#3) ∧ (true = true ∨ (4#3 : BitVec 3) ≠ 4#3) ∧
    memRef .long64 true false 1 (.sib 3#2 4#3 5#3 (.disp8 0#8)) =
      ⟨.gpr 5#4, some 12#4, 3#2, 0#64⟩ ∧
    (ready.mode = .long64) ∧ Mode.prot32 ≠ .long64 := by decide +kernel

/-- An override, the two default segments, and the three kinds of base. -/
theorem witness_LinearAddressAndSegment :
    let i := Instr.vex128C5 [.addressSize, .segment .gs] false 0#3 (.mem atRax)
    let j := Instr.vex128C5 [] false 0#3 (.mem atRax)
    let r := memRef .long64 false false 1 atRax
    noRepeat i.pre = true ∧ Prefix.segment .gs ∈ i.pre ∧ i.seg r = .gs ∧ ready.mode = .long64 ∧
    (j.pre = [] ∧ r.base = .gpr 0#4 ∧ j.seg r ≠ .fs ∧ j.seg r ≠ .gs) ∧
    (memRef .long64 false false 1 (.disp32 0#32)).base = .ripNext ∧
    (memRef .prot32 false false 1 (.disp32 0#32)).base = .absent ∧
    Instr.seg (.vex128C5 [.segment .fs] false 0#3 (.mem atRax)) r = .fs ∧ Mode.prot32 ≠ .long64 := by
  decide +kernel

theorem witness_EffectiveAddressIsTheSum :
    ∃ t, exec (.legacy [.rep] 0#3 (.mem atRax)) ready = .next t :=
  next_of_after (by decide +kernel)

/-- The largest value that fits, the smallest that does not, and `-2^31`, which does. -/
theorem witness_ConversionTruncatesTowardZero :
    f32Exp 0x4EFFFFFF#32 ≠ 255 ∧ f32Exp 0x4F000000#32 ≠ 255 ∧ f32Exp 0xCF000000#32 ≠ 255 ∧
    truncate (f32Value 0x4EFFFFFF#32) = 2147483520 ∧ truncate (f32Value 0x4F000000#32) = 2 ^ 31 ∧
    truncate (f32Value 0xCF000000#32) = -(2 ^ 31) := by decide +kernel

theorem witness_NonFiniteIsInvalid :
    (0x7F800000#32).extractLsb' 23 8 = 255#8 ∧ (0xFFFFFFFF#32).extractLsb' 23 8 = 255#8 := by decide

/-- The smallest and the largest denormal; a form on four denormal lanes, with bit 6 of MXCSR 0 and 1. -/
theorem witness_DenormalsFollowDaz :
    let i := Instr.legacy [.rep] 0#3 (.reg 1#3)
    let s := putZmm ready 1#5 [1#32, 0x807FFFFF#32, 0x00400000#32, 0x80000001#32]
    let z : State := { s with mxcsr := 0x1FC0#32 }
    ((0x00000001#32).extractLsb' 23 8 = 0#8 ∧ (0x00000001#32).extractLsb' 0 23 ≠ 0#23) ∧
    ((0x00800000#32).extractLsb' 23 8 ≠ 0#8 ∧ (0x80000000#32).extractLsb' 0 23 = 0#23) ∧
    (∃ t, exec i s = .next t) ∧ s.mxcsr.getLsbD 6 = false ∧ i.sae = false ∧
    (∃ t, exec i z = .next t) ∧ z.mxcsr.getLsbD 6 = true ∧
    (∀ j, j < 4 → s.selects i.mask j = true ∧ (s.sourceLane i j).extractLsb' 23 8 = 0#8 ∧
      (s.sourceLane i j).extractLsb' 0 23 ≠ 0#23 ∧ z.sourceLane i j = s.sourceLane i j) ∧
    ∃ e f, exec (.legacy [.rep] 0#3 (.reg 1#3)) { ready with cr0 := 8#64 } = .fault (.exception e f) :=
  ⟨by decide, by decide, next_of_after (by decide +kernel), by decide +kernel, rfl,
    next_of_after (by decide +kernel), by decide +kernel, by decide +kernel,
    fault_of_raised (by decide +kernel)⟩

theorem witness_LegacyRegisterResult :
    ready.legacyReady = true ∧ ready.quiet 4 (fun _ => true) (lane (ready.getZmm (vreg4 false 1#3))) = true ∧
    ready.quiet 4 (fun _ => true) (lane (ready.getZmm (vreg4 true 7#3))) = true := by decide +kernel

/-- Both forms, the operand at `[rax]`, which is 0, and the last 16 bytes below the hole. -/
theorem witness_LegacyMemoryResult :
    let a := ready.operandAddress (.legacy [.rep] 0#3 (.mem atRax)) (memRef ready.mode false false 1 atRax)
    let b := ready.operandAddress (.legacyRex [.rep] noRex 0#3 (.mem atRax))
      (memRef ready.mode false false 1 atRax)
    ready.legacyReady = true ∧ a.toNat % 16 = 0 ∧ ready.operandOk a 16 = true ∧
    ready.quiet 4 (fun _ => true) (ready.memLane a) = true ∧ b = a ∧
    ready.operandOk 0x00007FFFFFFFFFF0#64 16 = true := by decide +kernel

theorem witness_VexRegisterResult :
    ready.vexReady = true ∧ lanesOf .v256 ≤ lanesOf ready.cfg.maxVL ∧
    ready.quiet 8 (fun _ => true) (lane (ready.getZmm (vreg4 true 7#3))) = true ∧
    State.vexReady { ready with cfg := avxOnly } = true ∧ lanesOf .v256 ≤ lanesOf avxOnly.maxVL := by
  decide +kernel

theorem witness_VexMemoryResult :
    let a := ready.operandAddress (.vex256C4 [] noVex 0#3 (.mem atRax))
      (memRef ready.mode false false 1 atRax)
    ready.vexReady = true ∧ lanesOf .v256 ≤ lanesOf ready.cfg.maxVL ∧ ready.operandOk a 32 = true ∧
    ready.quiet 8 (fun _ => true) (ready.memLane a) = true := by decide +kernel

theorem witness_EvexRegisterResult :
    ready.evexReady = true ∧ ready.cfg.hasAVX512VL = true ∧ lanesOf .v512 ≤ lanesOf ready.cfg.maxVL ∧
    ready.quiet 16 (ready.selects (.zeroing 1#3)) (lane (ready.getZmm (vreg5 true true 7#3))) = true := by
  decide +kernel

/-- The operand crosses into the guarded page; its lanes there are masked off. -/
theorem witness_EvexMemoryResult :
    let s := putK (putGpr guarded 0 0xFF0#64) 1 0xF#64
    let i := Instr.evex256 [] noExt (.merging 1#3) 0#3 (.mem atRax)
    let a := s.operandAddress i (memRef s.mode false false 32 atRax)
    s.evexReady = true ∧ lanesOf i.vl ≤ lanesOf s.cfg.maxVL ∧ a = 0xFF0#64 ∧
    s.operandLegal a 32 = true ∧ s.alignmentSettled a 32 = true ∧ s.selectedReadable i a = true ∧
    s.quiet 8 (s.selects (.merging 1#3)) (s.memLane a) = true := by decide +kernel

theorem witness_EvexBroadcastResult :
    let i := Instr.evex512 [] noExt .unmasked 0#3 (.bcst atRax)
    let a := ready.operandAddress i (memRef ready.mode false false 4 atRax)
    ready.evexReady = true ∧ ready.operandOk a 4 = true ∧
    ready.quiet 16 (ready.selects .unmasked) (fun _ => ready.memLane a 0) = true := by decide +kernel

theorem witness_SaeSuppressesAllExceptions :
    State.evexReady { ready with mxcsr := 0#32 } = true ∧ ready.cfg.maxVL = .v512 := by decide +kernel

theorem witness_MaskedResponseByLane :
    mxcsrIM ready.mxcsr = true ∧ mxcsrPM ready.mxcsr = true ∧
    ready.ready (.evex512 [] noExt .unmasked 0#3 (.reg 1#3)) = true ∧
    (Instr.evex512 [] noExt .unmasked 0#3 (.reg 1#3)).source ready.mode = .reg 1#5 ∧
    (∃ t, exec (.evex512 [] noExt .unmasked 0#3 (.mem atRax)) ready = .next t) ∧
    (putGpr guarded 0 0x1000#64).ready (.vex128C5 [] false 0#3 (.mem atRax)) = true ∧
    ∃ e f, exec (.vex128C5 [] false 0#3 (.mem atRax)) (putGpr guarded 0 0x1000#64) =
      .fault (.exception e f) :=
  ⟨by decide +kernel, by decide +kernel, by decide +kernel, by decide, next_of_after (by decide +kernel),
    by decide +kernel, fault_of_raised (by decide +kernel)⟩

/-- The first lane above the vector length, and the last lane. -/
theorem witness_UpperBitsByForm :
    (∃ t, exec (.legacy [.rep] 0#3 (.reg 1#3)) ready = .next t) ∧
    (∃ t, exec (.vex256C5 [] false 0#3 (.reg 1#3)) ready = .next t) ∧
    lanesOf .v128 ≤ 4 ∧ lanesOf .v256 ≤ 15 :=
  ⟨next_of_after (by decide +kernel), next_of_after (by decide +kernel), by decide, by decide⟩

/-- One register as source and destination, and two registers with equal contents. -/
theorem witness_LanesAreIndependent :
    (∃ t, exec (.vex128C5 [] false 0#3 (.reg 0#3)) ready = .next t) ∧
    (∃ t, exec (.evex512 [] noExt .unmasked 2#3 (.reg 3#3)) ready = .next t) ∧
    ready.selects .unmasked 3 = true ∧
    ready.sourceLane (.vex128C5 [] false 0#3 (.reg 0#3)) 3 =
      ready.sourceLane (.evex512 [] noExt .unmasked 2#3 (.reg 3#3)) 3 ∧
    (∃ t, exec (.evex256 [] noExt (.zeroing 1#3) 2#3 (.reg 3#3)) ready = .next t) ∧
    ready.selects (.zeroing 1#3) 7 = false :=
  ⟨next_of_after (by decide +kernel), next_of_after (by decide +kernel), rfl, by decide +kernel,
    next_of_after (by decide +kernel), by decide +kernel⟩

theorem witness_OtherMxcsrFieldsAreNotRead :
    (∃ t, exec (.legacy [.rep] 0#3 (.reg 1#3)) ready = .next t) ∧
    mxcsrDAZ 0xFFBF#32 = mxcsrDAZ ready.mxcsr ∧ mxcsrIM 0xFFBF#32 = mxcsrIM ready.mxcsr ∧
    mxcsrPM 0xFFBF#32 = mxcsrPM ready.mxcsr ∧
    (Instr.evex512Sae [] noExt .unmasked 2#2 0#3 1#3).sae = true ∧
    ∃ t, exec (.evex512Sae [] noExt .unmasked 2#2 0#3 1#3) ready = .next t :=
  ⟨next_of_after (by decide +kernel), by decide, by decide, by decide, rfl,
    next_of_after (by decide +kernel)⟩

theorem witness_UnprivilegedForms :
    (Instr.vex128C5 [] false 0#3 (.reg 1#3)).source ready.mode = .reg 1#5 ∧
    ∃ t, exec (.vex128C5 [] false 0#3 (.reg 1#3)) ready = .next t :=
  ⟨by decide, next_of_after (by decide +kernel)⟩

theorem witness_CompletionFrame :
    (∃ t, exec (.evex256 [] noExt (.merging 1#3) 0#3 (.bcst atRax)) ready = .next t) ∧
    ∃ t, exec (.vex128C4 [] noVex 0#3 (.mem atRax)) ready = .next t :=
  ⟨next_of_after (by decide +kernel), next_of_after (by decide +kernel)⟩

/-- A page fault; an exception that leaves the state; one that sets flags; and a step that raises. -/
theorem witness_FaultsArePrecise :
    raised (exec (.vex128C5 [] false 0#3 (.mem atRax)) (putGpr guarded 0 0x1000#64)) =
      some (.pf 4#32 0x1000#64, 0x1F80#32) ∧
    raised (exec (.vex128C5 [] false 0#3 (.reg 1#3)) { ready with cr4 := 0#64 }) =
      some (.ud, 0x1F80#32) ∧
    raised (exec (.vex128C5 [] false 0#3 (.reg 1#3))
      { putZmm ready 1#5 [0x3FC00000#32] with mxcsr := 0x0F80#32 }) = some (.xm, 0x0FA0#32) ∧
    raised (step (start [0xC5#8, 0xF2#8, 0x5B#8, 0xC1#8])) = some (.ud, 0x1F80#32) := by decide +kernel

theorem witness_TaskSwitchedRaisesNm :
    let s := { start [0xC5#8, 0xF2#8, 0x5B#8, 0xC1#8] with cr0 := 8#64 }
    s.mode.inScope = true ∧ s.cr0.getLsbD 3 = true ∧
    s.withoutTS.ready (.vex128C5 [] false 0#3 (.reg 1#3)) = true ∧
    State.ready (State.withoutTS { s with cr4 := 0#64 }) (.vex128C5 [] false 0#3 (.reg 1#3)) = false ∧
    s.launchRefusal = none ∧ decode s.cfg s.mode s.codeWindow.1 = .invalid .vvvv := by decide +kernel

/-- One condition of each class, each of them alone. -/
theorem witness_InvalidOpcodeConditions :
    ((Instr.legacy [.rep] 0#3 (.reg 1#3)).cls = .legacy ∧ ready.mode.inScope = true ∧
      State.ready { ready with cr0 := 0x60000014#64 } (.legacy [.rep] 0#3 (.reg 1#3)) = false ∧
      (0x60000014#64).getLsbD 2 = true) ∧
    ((Instr.vex256C5 [] false 0#3 (.reg 1#3)).cls = .vex ∧ (5#64).getLsbD 1 = false ∧
      State.reset.mode.inScope = false) ∧
    ((Instr.evex128 [] noExt .unmasked 0#3 (.reg 1#3)).cls = .evex ∧
      (Instr.evex128 [] noExt .unmasked 0#3 (.reg 1#3)).vl ≠ .v512 ∧
      lanesOf avxOnly.maxVL < lanesOf .v512 ∧ (0x67#64).getLsbD 7 = false) := by decide +kernel

/-- Off by one, and off by fifteen at an address that is not canonical. -/
theorem witness_LegacyMisalignmentRaisesGp :
    let i := Instr.legacy [.rep] 0#3 (.mem atRax)
    i.cls = .legacy ∧ i.memory .long64 = some (memRef .long64 false false 1 atRax, 16) ∧
    (putGpr ready 0 1#64).ready i = true ∧
    ((putGpr ready 0 1#64).operandAddress i (memRef .long64 false false 1 atRax)).toNat % 16 ≠ 0 ∧
    ((putGpr ready 0 0x000080000000000F#64).operandAddress i
      (memRef .long64 false false 1 atRax)).toNat % 16 ≠ 0 := by decide +kernel

/-- The last byte is the first non-canonical one; outside 64-bit mode, the first byte past the limit. -/
theorem witness_IllegalOperandAddressFaults :
    let i := Instr.vex128C5 [] false 0#3 (.mem atRax)
    let s := putGpr ready 0 0x00007FFFFFFFFFF1#64
    let p := putGpr { ready with mode := .prot32 } 0 0xFFFFFFF1#64
    let r := memRef .long64 false false 1 atRax
    i.memory s.mode = some (r, 16) ∧ s.ready i = true ∧ s.mode = .long64 ∧
    canonical s.cfg (s.operandAddress i r + BitVec.ofNat 64 15) = false ∧
    canonical s.cfg (s.operandAddress i r + BitVec.ofNat 64 14) = true ∧
    i.memory p.mode = some (r, 16) ∧ p.ready i = true ∧ p.mode = .prot32 ∧
    (p.operandAddress i r).toNat + 16 - 1 = 2 ^ 32 := by decide +kernel

/-- The last byte of the last selected lane lies in the guarded page. -/
theorem witness_OperandPageFault :
    let i := Instr.vex128C5 [] false 0#3 (.mem atRax)
    let s := putGpr guarded 0 0xFF1#64
    let r := memRef .long64 false false 1 atRax
    i.source s.mode = .mem r ∧ s.ready i = true ∧
    s.alignmentSettled (s.operandAddress i r) 16 = true ∧ s.operandLegal (s.operandAddress i r) 16 = true ∧
    i.cls ≠ .legacy ∧ s.selects i.mask 3 = true ∧
    s.pageFault? .read (s.operandAddress i r + BitVec.ofNat 64 (4 * 3 + 3)).toNat =
      some (.pf 4#32 0x1000#64) ∧
    translateByte s.xlate .read s.cpl 0x1000 = .error 4#32 :=
  ⟨by decide, by decide +kernel, by decide +kernel, by decide +kernel, by decide, rfl, by decide +kernel,
    rfl⟩

theorem witness_BroadcastPageFault :
    let i := Instr.evex128 [] noExt (.merging 1#3) 0#3 (.bcst atRax)
    let s := putK (putGpr guarded 0 0x3000#64) 1 8#64
    let r := memRef .long64 false false 4 atRax
    i.source s.mode = .bcst r ∧ s.ready i = true ∧
    s.alignmentSettled (s.operandAddress i r) 4 = true ∧ s.operandLegal (s.operandAddress i r) 4 = true ∧
    s.selects i.mask 3 = true ∧ (s.operandAddress i r + BitVec.ofNat 64 0).toNat = 0x3000 ∧
    translateByte s.xlate .read s.cpl 0x3000 = .error 0#32 :=
  ⟨by decide, by decide +kernel, by decide +kernel, by decide +kernel, by decide +kernel,
    by decide +kernel, rfl⟩

/-- Page `1000` is mapped to location 0, which the launch memory has, but its linear addresses lie outside. -/
theorem witness_OperandOutsideLaunchMemoryIsRefused :
    let i := Instr.vex128C5 [] false 0#3 (.mem atRax)
    let b := Instr.evex128 [] noExt .unmasked 0#3 (.bcst atRax)
    let s := putGpr { ready with ram := [⟨0, 0x1000⟩], xlate := [⟨0x1000, 0x1000, none, none, .location 0⟩] }
      0 0x1000#64
    let r := memRef .long64 false false 1 atRax
    let q := memRef .long64 false false 4 atRax
    i.source s.mode = .mem r ∧ s.ready i = true ∧
    s.alignmentSettled (s.operandAddress i r) 16 = true ∧ s.operandLegal (s.operandAddress i r) 16 = true ∧
    s.selects i.mask 3 = true ∧
    (∀ n, n < 16 →
      translateByte s.xlate .read s.cpl (s.operandAddress i r + BitVec.ofNat 64 n).toNat = .ok n) ∧
    s.ordinary 0 = true ∧ s.ordinary (s.operandAddress i r + BitVec.ofNat 64 (4 * 3 + 3)).toNat = false ∧
    b.source s.mode = .bcst q ∧ s.ready b = true ∧ s.selects b.mask 0 = true ∧
    s.alignmentSettled (s.operandAddress b q) 4 = true ∧ s.operandLegal (s.operandAddress b q) 4 = true ∧
    (∀ n, n < 4 →
      translateByte s.xlate .read s.cpl (s.operandAddress b q + BitVec.ofNat 64 n).toNat = .ok n) ∧
    s.ordinary (s.operandAddress b q + BitVec.ofNat 64 0).toNat = false :=
  ⟨by decide, by decide +kernel, by decide +kernel, by decide +kernel, by decide +kernel,
    by intro n h; interval_cases n <;> rfl, by decide +kernel, by decide +kernel, by decide,
    by decide +kernel, by decide +kernel, by decide +kernel, by decide +kernel,
    by intro n h; interval_cases n <;> rfl, by decide +kernel⟩

/-- A full operand and a broadcast, one byte off. -/
theorem witness_ArmedAlignmentCheckFaultsOrCompletes :
    let i := Instr.vex256C5 [] false 0#3 (.mem atRax)
    let b := Instr.evex512 [] noExt .unmasked 0#3 (.bcst atRax)
    let s := putGpr { ready with cr0 := 0x60040010#64, rflags := 0x40002#64, cpl := 3#2 } 0 1#64
    let r := memRef .long64 false false 1 atRax
    let q := memRef .long64 false false 4 atRax
    i.cls ≠ .legacy ∧ i.source s.mode = .mem r ∧ s.ready i = true ∧
    s.operandLegal (s.operandAddress i r) 32 = true ∧ s.selectedReadable i (s.operandAddress i r) = true ∧
    s.quietFor i (s.memLane (s.operandAddress i r)) = true ∧ s.alignmentChecked = true ∧
    (s.operandAddress i r).toNat % 32 ≠ 0 ∧
    b.source s.mode = .bcst q ∧ s.ready b = true ∧ s.operandLegal (s.operandAddress b q) 4 = true ∧
    s.readable (bytesFrom (s.operandAddress b q) 4) = true ∧
    s.quietFor b (fun _ => s.memLane (s.operandAddress b q) 0) = true ∧
    (s.operandAddress b q).toNat % 4 ≠ 0 := by decide +kernel

/-- An unmasked Precision, and the same lane masked. -/
theorem witness_SimdExceptionOrResult :
    let i := Instr.vex128C5 [] false 0#3 (.reg 1#3)
    let s := putZmm ready 1#5 [0x3FC00000#32]
    State.ready { s with mxcsr := 0x0F80#32 } i = true ∧ State.sourceOk { s with mxcsr := 0x0F80#32 } i = true ∧
    State.quietFor { s with mxcsr := 0x0F80#32 } i (State.sourceLane { s with mxcsr := 0x0F80#32 } i) = false ∧
    s.ready i = true ∧ s.sourceOk i = true ∧ s.quietFor i (s.sourceLane i) = true := by decide +kernel

theorem witness_LegacyOutOfScopeIsRefused :
    (Instr.legacy [.rep] 0#3 (.reg 1#3)).cls = .legacy ∧ State.reset.mode.inScope = false := by decide

theorem witness_StepRunsTheDecodedInstruction :
    legacyExample.launchRefusal = none ∧
    decode legacyExample.cfg legacyExample.mode legacyExample.codeWindow.1 =
      .instr (.legacy [.rep] 0#3 (.reg 1#3)) (List.replicate 11 0#8) := by decide +kernel

/-- The instruction is the last bytes of ordinary memory: nothing can be fetched after it. -/
theorem witness_StepRunsTheInstructionAtRip :
    let s := { legacyExample with ram := [⟨0xFFF0, 4⟩] }
    s.launchRefusal = none ∧ (Instr.legacy [.rep] 0#3 (.reg 1#3)).wf s.cfg s.mode = true ∧
    (List.range (encode (.legacy [.rep] 0#3 (.reg 1#3))).length).map (fun k => s.codeByte (s.rip.toNat + k)) =
      (encode (.legacy [.rep] 0#3 (.reg 1#3))).map Except.ok :=
  ⟨by decide +kernel, by decide, rfl⟩

theorem witness_InvalidEncodingRaisesUd :
    let s := start [0xC5#8, 0xF2#8, 0x5B#8, 0xC1#8]
    s.launchRefusal = none ∧ decode s.cfg s.mode s.codeWindow.1 = .invalid .vvvv := by decide +kernel

theorem witness_OverlongInstructionRaisesGp :
    let s := start (List.replicate 15 0x67#8)
    let ps := List.replicate 15 Prefix.addressSize
    s.launchRefusal = none ∧ s.mode.inScope = true ∧ ps.length = 15 ∧
    (List.range 15).map (fun k => s.codeByte (s.rip.toNat + k)) = ps.map (fun p => Except.ok p.byte) :=
  ⟨by decide +kernel, by decide +kernel, rfl, rfl⟩

theorem witness_FetchPageFault :
    let s := { guarded with rip := 0x3FFF#64 }
    s.launchRefusal = none ∧ s.mode.inScope = true ∧ s.codeAddressOk s.rip.toNat = true ∧
    translateByte s.xlate .fetch s.cpl s.rip.toNat = .error 0#32 :=
  ⟨by decide +kernel, by decide +kernel, by decide +kernel, rfl⟩

/-- The invariant of a launch state, with and without AVX-512, and a step from each. -/
theorem witness_StepKeepsInvariant :
    (legacyExample.Inv ∧ ∃ t, step legacyExample = .next t) ∧
    (State.Inv { start [0xC5#8, 0xFE#8, 0x5B#8, 0xC1#8] with cfg := avxOnly } ∧
      ∃ t, step { start [0xC5#8, 0xFE#8, 0x5B#8, 0xC1#8] with cfg := avxOnly } = .next t) := by
  refine ⟨⟨⟨by decide +kernel, by decide +kernel, by decide +kernel, ?_, ?_⟩, next_of_after (by decide +kernel)⟩,
    ⟨by decide +kernel, by decide +kernel, by decide +kernel, ?_, ?_⟩, next_of_after (by decide +kernel)⟩
  · intro n j h1 h2
    have h3 : 16 = lanesOf legacyExample.cfg.maxVL := by decide +kernel
    exact absurd (Nat.le_trans (Nat.le_of_eq h3) h1) (by omega)
  · have h3 : legacyExample.cfg.hasAVX512F = true := by decide +kernel
    intro h; rw [h3] at h; cases h
  · intro n j _ _
    have : State.getZmm { start [0xC5#8, 0xFE#8, 0x5B#8, 0xC1#8] with cfg := avxOnly } n = 0#512 := by
      simp [State.getZmm, start, State.launch, State.reset]
    rw [this, lane_zero]
  · intro _ n _
    simp [State.getZmm, start, State.launch, State.reset]

theorem witness_StepWritesNoOtherState : ∃ t, step legacyExample = .next t :=
  next_of_after (by decide +kernel)

end Sys2Proof.Tests
end

section
/-!
PROOFS. Scope: the refusals of the launch memory (R5, R54, D11) and of the modes the spec leaves out (R4, D1).
-/

namespace Sys2Proof.Machine

/-! ### Refusal of an access outside the launch memory -/

/-- An access whose bytes are all mapped, one of them outside the launch memory, is refused, and names
such a byte (D11; entry 9). -/
theorem accessStop_of_not_ordinary {s : State} {acc : Access} {addrs : List Nat} {a : Nat}
    (hmap : ∀ b ∈ addrs, ∃ p, translateByte s.xlate acc s.cpl b = .ok p)
    (ha : a ∈ addrs) (hord : s.ordinary a = false) :
    ∃ b ∈ addrs, s.ordinary b = false ∧
      s.accessStop? acc addrs = some (.refuse (.notOrdinaryMemory b)) := by
  have hnoFault : addrs.findSome? (fun b => s.pageFault? acc b) = none := by
    rw [List.findSome?_eq_none_iff]
    intro b hb
    obtain ⟨p, hp⟩ := hmap b hb
    simp [State.pageFault?, hp]
  have hfound : (addrs.find? (fun b => !s.ordinary b)).isSome := by
    rw [List.find?_isSome]
    exact ⟨a, ha, by simp [hord]⟩
  obtain ⟨b, hb⟩ := Option.isSome_iff_exists.mp hfound
  refine ⟨b, List.mem_of_find?_eq_some hb, by simpa using List.find?_some hb, ?_⟩
  simp [State.accessStop?, hnoFault, hb]

/-! ### An access that is stopped stops the instruction -/

/-- Where the operand's address raises nothing, what stops the access stops the operand. -/
theorem readOperand_of_accessStop {s : State} {cls : EncClass} {seg : Seg} {a : Quad} {n : Nat}
    {active : List Nat} {place : Nat → Quad} {st : Stop} (haddr : s.addressExc? cls seg a n = none)
    (hacc : s.accessStop? .read (active.flatMap (fun j => dwordAddrs (place j))) = some st) :
    s.readOperand cls seg a n active place = .error st := by
  simp [State.readOperand, haddr, hacc]

/-- What stops the access to the selected lanes' bytes of a full operand stops the instruction. -/
theorem exec_of_memAccessStop {i : Instr} {s : State} {r : MemRef} {st : Stop}
    (hready : s.ready i = true) (hsrc : i.source s.mode = .mem r)
    (halign : i.cls = .legacy → (s.operandAddress i r).toNat % 16 = 0)
    (hlegal : s.operandLegal (s.operandAddress i r) (4 * lanesOf i.vl) = true)
    (hsettled : s.alignmentSettled (s.operandAddress i r) (4 * lanesOf i.vl) = true)
    (hacc : s.accessStop? .read ((s.activeLanes i.mask i.vl).flatMap
      (fun j => dwordAddrs (s.operandAddress i r + BitVec.ofNat 64 (4 * j)))) = some st) :
    exec i s = st.outcome s := by
  refine exec_stopped hready ?_
  simp only [hsrc, State.sourceLanes, operandAddress_eq]
  exact readOperand_of_accessStop (addressExc_none halign hlegal hsettled) hacc

/-- Legacy and VEX forms have no broadcast (R71). -/
theorem sourceRM_ne_bcst (m : Mode) (x b : Bool) (src : RM) (r : MemRef) :
    sourceRM m x b src ≠ .bcst r := by
  cases src <;> simp [sourceRM]

/-- Only an EVEX form has a broadcast operand (R71). -/
theorem cls_of_source_bcst {i : Instr} {m : Mode} {r : MemRef} (h : i.source m = .bcst r) :
    i.cls = .evex := by
  cases i with
  | legacy | legacyRex | vex128C5 | vex128C4 | vex256C5 | vex256C4 =>
    exact absurd h (sourceRM_ne_bcst _ _ _ _ _)
  | evex128 | evex256 | evex512 => rfl
  | evex512Sae => cases h

/-- What stops the access to the broadcast doubleword stops the instruction. -/
theorem exec_of_bcstAccessStop {i : Instr} {s : State} {r : MemRef} {st : Stop}
    (hready : s.ready i = true) (hsrc : i.source s.mode = .bcst r)
    (hlegal : s.operandLegal (s.operandAddress i r) 4 = true)
    (hsettled : s.alignmentSettled (s.operandAddress i r) 4 = true)
    (hacc : s.accessStop? .read ((s.activeLanes i.mask i.vl).flatMap
      (fun _ => dwordAddrs (s.operandAddress i r))) = some st) :
    exec i s = st.outcome s := by
  have hcls : i.cls ≠ .legacy := by simp [cls_of_source_bcst hsrc]
  refine exec_stopped hready ?_
  simp only [hsrc, State.sourceLanes, operandAddress_eq]
  exact readOperand_of_accessStop (addressExc_none (fun h => absurd h hcls) hlegal hsettled) hacc

/-! ### The statements -/

/-- Settles O44: with every byte to be read mapped, the access is stopped by the refusal that names the
first byte outside the launch memory, and that stop is the instruction's outcome. -/
theorem operandOutsideLaunchMemoryIsRefused : Obligations.OperandOutsideLaunchMemoryIsRefused := by
  intro i s r j k hready hj hsel hk
  refine ⟨fun hsrc hsettled hlegal halign hmap hord => ?_,
    fun hsrc hsettled hlegal hmap hord => ?_⟩
  · obtain ⟨b, hb, hbord, hacc⟩ := accessStop_of_not_ordinary (s := s) (acc := .read)
      (fun b hb => by
        obtain ⟨j', k', hj', hsel', hk', rfl⟩ := mem_laneBytes.mp hb
        exact hmap j' k' hj' hsel' hk')
      (mem_laneBytes.mpr ⟨j, k, hj, hsel, hk, rfl⟩) hord
    obtain ⟨j', k', hj', hsel', hk', rfl⟩ := mem_laneBytes.mp hb
    exact ⟨j', k', hj', hsel', hk', hbord,
      exec_of_memAccessStop hready hsrc halign hlegal hsettled hacc⟩
  · obtain ⟨b, hb, hbord, hacc⟩ := accessStop_of_not_ordinary (s := s) (acc := .read)
      (fun b hb => by
        obtain ⟨-, k', hk', rfl⟩ := mem_bcstBytes.mp hb
        exact hmap k' hk')
      (mem_bcstBytes.mpr ⟨⟨j, hj, hsel⟩, k, hk, rfl⟩) hord
    obtain ⟨-, k', hk', rfl⟩ := mem_bcstBytes.mp hb
    exact ⟨k', hk', hbord, exec_of_bcstAccessStop hready hsrc hlegal hsettled hacc⟩

/-- Settles O47: the mode is the first thing the execution of a legacy form asks (R4, D1). -/
theorem legacyOutOfScopeIsRefused : Obligations.LegacyOutOfScopeIsRefused := by
  intro i s hcls hmode
  have hop : (opOf s.mode i).cls = .legacy := hcls
  simp [exec_eq, execute, hop, hmode]

end Sys2Proof.Machine
end

section
/-!
PROOFS. What a completed instruction and a step leave unchanged (R21, R25, R32), the invariant of the
machine (R20, R22, R24, R118), and the state after reset (R33).
-/

namespace Sys2Proof.Machine

/-! ### What completes: inversion of an instruction and of a step -/

/-- A completed instruction leaves the result of its source operand (R111 to R117). -/
theorem exec_next_result {i : Instr} {s t : State} (h : exec i s = .next t) :
    Result s t i (s.sourceLane i) (s.upperOf i) := by
  obtain ⟨-, src, hsrc, hquiet, rfl⟩ := exec_next h
  obtain rfl := sourceLanes_ok hsrc
  exact completed_result s i _ hquiet

/-- The fields a completed instruction writes: `ZMM`, MXCSR and `RIP` (R32). -/
theorem exec_next_writes {i : Instr} {s t : State} (h : exec i s = .next t) :
    ∃ zmm mxcsr rip, t = { s with zmm := zmm, mxcsr := mxcsr, rip := rip } := by
  obtain ⟨-, src, -, -, rfl⟩ := exec_next h
  exact ⟨_, _, _, rfl⟩

/-- A stop has no next state. -/
theorem Stop.outcome_ne_next (st : Stop) (s t : State) : st.outcome s ≠ .next t := by
  cases st <;> nofun

/-- A step that answers a next state ran an instruction in an admitted state (R110). -/
theorem step_next {s t : State} (h : step s = .next t) :
    s.launchRefusal = none ∧ ∃ i, s.fetch = .run i ∧ exec i s = .next t := by
  unfold step at h
  split at h
  · cases h
  · rename_i hadmitted
    split at h
    · exact ⟨hadmitted, _, ‹_›, h⟩
    · exact absurd h (Stop.outcome_ne_next _ s t)

/-! ### MXCSR under the frame of R32 -/

/-- The frame clears no bit of MXCSR (R25). -/
theorem FrameR32.mxcsr_sticky {d : BitVec 5} {s t : State} (hf : FrameR32 d s t) {k : Nat}
    (hk : s.mxcsr.getLsbD k = true) : t.mxcsr.getLsbD k = true := by
  by_cases h0 : k = 0
  · subst h0; exact hf.ie hk
  · by_cases h5 : k = 5
    · subst h5; exact hf.pe hk
    · rw [hf.mxcsr k h0 h5, hk]

/-- The frame leaves the reserved bits of MXCSR (R24). -/
theorem FrameR32.mxcsrReserved_eq {d : BitVec 5} {s t : State} (hf : FrameR32 d s t) :
    mxcsrReserved t.mxcsr = mxcsrReserved s.mxcsr := by
  apply BitVec.eq_of_getLsbD_eq
  intro k hk
  simpa [mxcsrReserved, hk] using hf.mxcsr (16 + k) (by omega) (by omega)

/-! ### The destination -/

/-- What stands above the vector length, by class (R21). -/
theorem State.upperOf_eq (s : State) (i : Instr) (j : Nat) :
    s.upperOf i j = if i.cls = .legacy then lane (s.getZmm i.dest) j else 0#32 := by
  unfold State.upperOf
  cases i.cls <;> rfl

/-- A 4-bit register number. -/
theorem vreg4_lt (hi : Bool) (n : BitVec 3) : (vreg4 hi n).toNat < 16 := by
  revert hi n; decide

/-- Only an EVEX form can name `ZMM[16]` to `ZMM[31]` as its destination (R22). -/
theorem dest_lt_of_cls_ne_evex {i : Instr} (h : i.cls ≠ .evex) : i.dest.toNat < 16 := by
  cases i with
  | legacy | legacyRex | vex128C5 | vex128C4 | vex256C5 | vex256C4 => exact vreg4_lt _ _
  | evex128 | evex256 | evex512 | evex512Sae => exact absurd rfl h

/-- A form that may run fits `MAX_VL` (R118). -/
theorem lanesOf_le_maxVL_of_ready {i : Instr} {s : State} (h : s.ready i = true) :
    lanesOf i.vl ≤ lanesOf s.cfg.maxVL := by
  unfold State.ready at h
  cases hc : i.cls with
  | legacy =>
    have hvl : i.vl = .v128 := by
      cases i with
      | legacy | legacyRex => rfl
      | _ => cases hc
    rw [hvl]
    cases s.cfg.maxVL <;> decide
  | vex | evex =>
    simp only [hc, Bool.and_eq_true, decide_eq_true_eq] at h
    exact h.2

/-- An EVEX form that may run has AVX512F (R118). -/
theorem hasAVX512F_of_ready {i : Instr} {s : State} (hc : i.cls = .evex) (h : s.ready i = true) :
    s.cfg.hasAVX512F = true := by
  simp_all [State.ready, State.evexReady]

/-! ### The invariant -/

/-- A completed instruction keeps the invariant. Above `MAX_VL` a legacy form keeps the destination and
the others zero it; a destination above 15 is that of an EVEX form, which needs AVX512F. -/
theorem exec_keeps_inv {i : Instr} {s t : State} (hs : s.Inv) (h : exec i s = .next t) : t.Inv := by
  have hres := exec_next_result h
  obtain ⟨hready, -⟩ := exec_next h
  obtain ⟨hcfg, -, -⟩ := hres.frame.mode
  refine ⟨?mem, ?mxcsr, ?config, ?maxVL, ?high⟩
  case mem =>
    obtain ⟨_, _, _, rfl⟩ := exec_next_writes h
    exact hs.mem
  case mxcsr => rw [hres.frame.mxcsrReserved_eq, hs.mxcsr]
  case config => rw [hcfg, hs.config]
  case maxVL =>
    intro n j hj h16
    rw [hcfg] at hj
    by_cases hn : n = i.dest
    · subst hn
      rw [hres.above j ((lanesOf_le_maxVL_of_ready hready).trans hj) h16, State.upperOf_eq]
      split
      · exact hs.maxVL _ j hj h16
      · rfl
    · rw [hres.frame.zmm n hn, hs.maxVL n j hj h16]
  case high =>
    intro hno n hn
    rw [hcfg] at hno
    have hne : n ≠ i.dest := by
      rintro rfl
      by_cases hc : i.cls = .evex
      · simp [hasAVX512F_of_ready hc hready] at hno
      · have := dest_lt_of_cls_ne_evex hc
        omega
    rw [hres.frame.zmm n hne, hs.high hno n hn]

/-- Settles O53: a step that answers a next state is the execution of one instruction. -/
theorem stepKeepsInvariant : Obligations.StepKeepsInvariant := by
  intro s t hs h
  obtain ⟨-, i, -, hexec⟩ := step_next h
  exact exec_keeps_inv hs hexec

/-! ### Frames -/

/-- Settles O32: the lanes above the vector length are those the result names for the class. -/
theorem upperBitsByForm : Obligations.UpperBitsByForm := by
  intro i s t j h hj h16
  rw [(exec_next_result h).above j hj h16, State.upperOf_eq]

/-- Settles O36: the frame is part of the result. -/
theorem completionFrame : Obligations.CompletionFrame := fun _ _ _ h => (exec_next_result h).frame

/-- Settles O55: a step runs one instruction, which writes `ZMM`, MXCSR and `RIP` alone. -/
theorem stepWritesNoOtherState : Obligations.StepWritesNoOtherState := by
  intro s t h
  obtain ⟨-, i, -, hexec⟩ := step_next h
  have hsticky := fun k => (exec_next_result hexec).frame.mxcsr_sticky (k := k)
  obtain ⟨_, _, _, rfl⟩ := exec_next_writes hexec
  exact ⟨rfl, rfl, rfl, rfl, rfl, rfl, rfl, rfl, rfl, rfl, rfl, rfl, rfl, rfl, hsticky⟩

/-! ### Another MXCSR with the same DAZ, IM and PM (R25) -/

/-- Whether a form may run does not depend on MXCSR. -/
theorem ready_withMxcsr (s : State) (m : BitVec 32) (i : Instr) :
    ({ s with mxcsr := m } : State).ready i = s.ready i := rfl

/-- Reading the source does not depend on MXCSR. -/
theorem sourceLanes_withMxcsr (s : State) (m : BitVec 32) (cls : EncClass) (pre : List Prefix)
    (vl : VecLen) (mask : Mask) (len : Nat) (src : Source) :
    ({ s with mxcsr := m } : State).sourceLanes cls pre vl mask len src =
      s.sourceLanes cls pre vl mask len src := rfl

/-- The conversions depend on `DAZ` alone. -/
theorem conv_withMxcsr {s : State} {m : BitVec 32} (hdaz : mxcsrDAZ m = mxcsrDAZ s.mxcsr) :
    ({ s with mxcsr := m } : State).conv = s.conv := by
  funext x
  simp only [State.conv, hdaz]

/-- What a form raises depends on `DAZ`, `IM` and `PM` alone. -/
theorem quietFor_withMxcsr {s : State} {m : BitVec 32} (hdaz : mxcsrDAZ m = mxcsrDAZ s.mxcsr)
    (him : mxcsrIM m = mxcsrIM s.mxcsr) (hpm : mxcsrPM m = mxcsrPM s.mxcsr) (i : Instr)
    (src : Nat → Dword) :
    ({ s with mxcsr := m } : State).quietFor i src = s.quietFor i src := by
  have hselects : ({ s with mxcsr := m } : State).selects = s.selects := rfl
  simp only [State.quietFor, State.quiet, State.someInvalid, State.someInexact, hselects,
    conv_withMxcsr hdaz, him, hpm]

/-- The registers a completed form leaves depend on `DAZ` alone. -/
theorem completed_zmm_withMxcsr {s : State} {m : BitVec 32} (hdaz : mxcsrDAZ m = mxcsrDAZ s.mxcsr)
    (op : PackedOp) (src : Nat → Dword) :
    (({ s with mxcsr := m } : State).completed op src).zmm = (s.completed op src).zmm := by
  have hresults : ({ s with mxcsr := m } : State).results src = s.results src := by
    funext j
    simp only [State.results, hdaz]
  have hdest : ({ s with mxcsr := m } : State).destReg op (s.results src) =
    s.destReg op (s.results src) := rfl
  simp only [State.completed, State.advance_zmm, State.setZmm, hresults, hdest]

/-- Where a completed form leaves `RIP` does not depend on MXCSR. -/
theorem completed_rip_withMxcsr (s : State) (m : BitVec 32) (op : PackedOp) (src : Nat → Dword) :
    (({ s with mxcsr := m } : State).completed op src).rip = (s.completed op src).rip := by
  apply BitVec.eq_of_toNat_eq
  rw [State.completed_rip, State.completed_rip]

/-- Settles O34: the other MXCSR changes neither what is read nor what is raised, so the form completes;
the frame says which bits it writes, and under `{sae}` the result's MXCSR is the old one. -/
theorem otherMxcsrFieldsAreNotRead : Obligations.OtherMxcsrFieldsAreNotRead := by
  intro i s t h
  have hres := exec_next_result h
  refine ⟨fun m hdaz him hpm => ?_, hres.frame.mxcsr, fun _ => hres.frame.mxcsr_sticky,
    fun hsae => ?_⟩
  · obtain ⟨hready, src, hsrc, hquiet, rfl⟩ := exec_next h
    have hcompletes := (exec_completes ((ready_withMxcsr s m i).trans hready)
      ((sourceLanes_withMxcsr s m ..).trans hsrc)
      ((quietFor_withMxcsr hdaz him hpm i src).trans hquiet)).1
    exact ⟨_, hcompletes, completed_zmm_withMxcsr hdaz _ src,
      completed_rip_withMxcsr s m _ src⟩
  · rw [hres.mxcsr, if_pos hsae]

/-! ### Reset (R33) -/

@[simp] theorem reset_getZmm (n : BitVec 5) : State.reset.getZmm n = 0#512 := by
  simp [State.getZmm, State.reset]

@[simp] theorem reset_getK (n : BitVec 3) : State.reset.getK n = 0#64 := by
  simp [State.getK, State.reset]

@[simp] theorem reset_getGpr (n : BitVec 4) : State.reset.getGpr n = 0#64 := by
  simp [State.getGpr, State.reset]

/-- Settles O54: memory is empty, the parameters are consistent, and every vector register is 0. -/
theorem resetMeetsInvariant : Obligations.ResetMeetsInvariant where
  mem := State.reset_mem_wf
  mxcsr := by decide
  config := by decide
  maxVL n j _ _ := by rw [reset_getZmm, lane_zero]
  high _ n _ := reset_getZmm n

/-- Settles O56: the registers by their number, every other value as `State.reset` states it. -/
theorem resetValues : Obligations.ResetValues :=
  ⟨reset_getZmm, reset_getK, fun n _ _ => reset_getGpr n, rfl, rfl, rfl, rfl, rfl, rfl, rfl, rfl, rfl⟩

end Sys2Proof.Machine
end

section
/-!
PROOFS. What the decoder accepts is well formed (R62 to R73, D18, D19), and the registers it names exist
(R22, R74).
-/

namespace Sys2Proof

/-! ### Legacy forms (R61 to R63) -/

/-- An accepted legacy form is well formed. -/
theorem decodeLegacy_wf {c : Config} {m : Mode} {pre : List Prefix} {rex : Option Rex}
    {bs rest : List Byte} {i : Instr} (hscope : m.inScope = true)
    (hrex : rex.isSome = true → m = .long64)
    (h : decodeLegacy m pre rex bs = .instr i rest) : i.wf c m = true := by
  unfold decodeLegacy at h
  split at h
  · cases h
  split at h
  · cases h
  rename_i hid
  split at h
  · cases h
  rename_i hconflict
  split at h
  · cases h
  rename_i haddr
  split at h
  · cases h
  rename_i reg src after hmodrm
  split at h
  · cases h
  rename_i hlock
  split at h
  · cases h
  rename_i hrepeat
  have hsrc : src.wf = true := (takeModRM_eq hmodrm).1
  have hpre : legacyPrefixesOk m pre = true := by simp_all [legacyPrefixesOk]
  cases rex with
  | none =>
    cases h
    simp [Instr.wf, hscope, hpre, hsrc]
  | some x =>
    obtain rfl := hrex rfl
    cases h
    simp [Instr.wf, hpre, hsrc]

/-! ### VEX forms (R64 to R67) -/

/-- The verdict on the prefixes is never an instruction. -/
theorem vexPrefixVerdict_ne_instr (pre : List Prefix) (rexBefore : Bool) (i : Instr)
    (rest : List Byte) : vexPrefixVerdict pre rexBefore ≠ some (.instr i rest) := by
  unfold vexPrefixVerdict
  repeat' split
  all_goals nofun

/-- No verdict: the prefixes are those of R66 and R69. -/
theorem vexPrefixesOk_of_verdict {m : Mode} {pre : List Prefix} {rexBefore : Bool}
    (haddr : addressSizeOk m pre = true) (h : vexPrefixVerdict pre rexBefore = none) :
    vexPrefixesOk m pre = true := by
  unfold vexPrefixVerdict at h
  split at h
  · cases h
  split at h
  · cases h
  split at h
  · cases h
  simp_all [vexPrefixesOk]

/-- An accepted VEX form stands behind admitted prefixes, has a well-formed source, and is one of the two
rows (R66). -/
theorem decodeVexTail_instr {m : Mode} {pre : List Prefix} {rexBefore : Bool} {p : Byte}
    {row128 row256 : BitVec 3 → RM → Instr} {bs rest : List Byte} {i : Instr}
    (hscope : m.inScope = true)
    (h : decodeVexTail m pre rexBefore p row128 row256 bs = .instr i rest) :
    ∃ reg src, vexWf m pre src = true ∧ (i = row128 reg src ∨ i = row256 reg src) := by
  unfold decodeVexTail at h
  split at h
  · cases h
  split at h
  · cases h
  split at h
  · cases h
  rename_i haddr
  split at h
  · cases h
  rename_i reg src after hmodrm
  split at h
  · rename_i v hverdict
    exact absurd (h ▸ hverdict) (vexPrefixVerdict_ne_instr _ _ _ _)
  rename_i hverdict
  split at h
  · cases h
  have hpre := vexPrefixesOk_of_verdict (m := m) (by simpa using haddr) hverdict
  refine ⟨reg, src, by simp [vexWf, hscope, hpre, (takeModRM_eq hmodrm).1], ?_⟩
  split at h
  · cases h; exact .inr rfl
  · cases h; exact .inl rfl

/-- The two extension bits that tell VEX and EVEX from `LDS`, `LES` and `BOUND` are stored 1 (R67). -/
theorem bits_of_top (p : Byte) (h : p.extractLsb' 6 2 = 3#2) : bit p 7 = true ∧ bit p 6 = true := by
  revert p; decide +kernel

/-- An accepted two-byte VEX form is well formed. -/
theorem decodeVex2_wf {c : Config} {m : Mode} {pre : List Prefix} {rexBefore : Bool}
    {bs rest : List Byte} {i : Instr} (hscope : m.inScope = true)
    (h : decodeVex2 m pre rexBefore bs = .instr i rest) : i.wf c m = true := by
  unfold decodeVex2 at h
  split at h
  · cases h
  split at h
  · cases h
  rename_i p _ htop
  have hr : m = .long64 ∨ bit p 7 = true := by
    by_cases hm : m = .long64
    · exact .inl hm
    · exact .inr (bits_of_top p (by simpa [hm] using htop)).1
  obtain ⟨reg, src, hwf, rfl | rfl⟩ := decodeVexTail_instr hscope h <;>
    simpa [Instr.wf, hwf] using hr

/-- An accepted three-byte VEX form is well formed. -/
theorem decodeVex3_wf {c : Config} {m : Mode} {pre : List Prefix} {rexBefore : Bool}
    {bs rest : List Byte} {i : Instr} (hscope : m.inScope = true)
    (h : decodeVex3 m pre rexBefore bs = .instr i rest) : i.wf c m = true := by
  unfold decodeVex3 at h
  split at h
  · cases h
  split at h
  · cases h
  rename_i p1 _ htop
  split at h
  · cases h
  rename_i p2 _
  split at h
  · cases h
  rename_i hb
  split at h
  · cases h
  split at h
  · cases h
  have hext : Vex3.wf m ⟨!bit p1 7, !bit p1 6, !bit p1 5, bit p2 7⟩ = true := by
    by_cases hm : m = .long64
    · simp [Vex3.wf, hm]
    · have h76 := bits_of_top p1 (by simpa [hm] using htop)
      simp_all [Vex3.wf]
  obtain ⟨reg, src, hwf, rfl | rfl⟩ := decodeVexTail_instr hscope h <;>
    simp [Instr.wf, hwf, hext]

/-! ### EVEX forms (R68 to R73) -/

/-- The row of well-formed EVEX extension bits, mask and source is well formed. -/
theorem evexRow_wf {c : Config} {m : Mode} {pre : List Prefix} {ext : EvexExt} {mask : Mask}
    {ll : BitVec 2} {b : Bool} {reg : BitVec 3} {src : RM} {after rest : List Byte} {i : Instr}
    (hwf : evexWf m pre ext mask = true) (hsrc : src.wf = true)
    (h : evexRow c pre ext mask ll b reg src after = .instr i rest) : i.wf c m = true := by
  have hsized : ∀ s : EvexSrc, s.wf = true →
      evexRow.sized pre ext mask ll reg after s = .instr i rest → i.wf c m = true := by
    intro s hs h
    unfold evexRow.sized at h
    repeat' split at h
    all_goals cases h
    all_goals simp [Instr.wf, hwf, hs]
  unfold evexRow at h
  split at h
  · split at h
    · rename_i hll
      cases h
      simpa [Instr.wf, hwf] using hll
    · cases h
  · exact hsized _ rfl h
  · exact hsized (.bcst _) hsrc h
  · exact hsized (.mem _) hsrc h

/-- No `#UD` condition of the payload: a zeroing mask names an opmask (R121 row 11). -/
theorem aaa_ne_zero_of_evexPayloadUd {p0 p1 p2 : Byte} (h : evexPayloadUd p0 p1 p2 = none) :
    bit p2 7 = true → p2.extractLsb' 0 3 ≠ 0#3 := by
  unfold evexPayloadUd at h
  split at h
  · cases h
  split at h
  · cases h
  split at h
  · cases h
  split at h
  · cases h
  rename_i hz
  exact fun h7 h0 => hz ⟨h7, h0⟩

/-- An accepted EVEX form is well formed, where `P0` begins `11b` outside 64-bit mode (R67). -/
theorem decodeEvexPayload_wf {c : Config} {m : Mode} {pre : List Prefix} {rexBefore : Bool}
    {p0 : Byte} {bs rest : List Byte} {i : Instr} (hscope : m.inScope = true)
    (htop : m ≠ .long64 → p0.extractLsb' 6 2 = 3#2)
    (h : decodeEvexPayload c m pre rexBefore (p0 :: bs) = .instr i rest) : i.wf c m = true := by
  unfold decodeEvexPayload at h
  split at h
  · rename_i heq
    obtain ⟨rfl, rfl⟩ := List.cons.inj heq
    split at h
    · cases h
    rename_i hbits
    split at h
    · cases h
    split at h
    · cases h
    split at h
    · cases h
    rename_i haddr
    split at h
    · cases h
    rename_i hmodrm
    split at h
    · rename_i v hverdict
      exact absurd (h ▸ hverdict) (vexPrefixVerdict_ne_instr _ _ _ _)
    rename_i hverdict
    split at h
    · cases h
    rename_i hud
    have hpre := vexPrefixesOk_of_verdict (m := m) (by simpa using haddr) hverdict
    have hmask := (Mask.ofBits_eq _ _ (aaa_ne_zero_of_evexPayloadUd hud)).1
    have hext : EvexExt.wf m ⟨!bit p0 7, !bit p0 6, !bit p0 5, !bit p0 4⟩ = true := by
      by_cases hm : m = .long64
      · simp [EvexExt.wf, hm]
      · have h76 := bits_of_top p0 (htop hm)
        simp_all [EvexExt.wf]
    exact evexRow_wf (by simp [evexWf, hscope, hpre, hext, hmask]) (takeModRM_eq hmodrm).1 h
  · cases h

/-- An accepted EVEX form is well formed. -/
theorem decodeEvex_wf {c : Config} {m : Mode} {pre : List Prefix} {rexBefore : Bool}
    {bs rest : List Byte} {i : Instr} (hscope : m.inScope = true)
    (h : decodeEvex c m pre rexBefore bs = .instr i rest) : i.wf c m = true := by
  unfold decodeEvex at h
  split at h
  · cases h
  split at h
  · cases h
  rename_i htop
  exact decodeEvexPayload_wf hscope (fun hm => by simpa [hm] using htop) h

/-! ### The decoder -/

/-- Outside the scope's modes nothing is accepted (R4, D1). -/
theorem decodeOutOfScope_ne_instr (bs rest : List Byte) (i : Instr) :
    decodeOutOfScope bs ≠ .instr i rest := by
  unfold decodeOutOfScope
  repeat' split
  all_goals nofun

/-- From the byte after the legacy prefixes and REX on, what is accepted is well formed. -/
theorem decodeOpcode_wf {c : Config} {m : Mode} {pre : List Prefix} {rex : Option Rex}
    {bs rest : List Byte} {i : Instr} (hscope : m.inScope = true)
    (hrex : rex.isSome = true → m = .long64)
    (h : decodeOpcode c m pre rex bs = .instr i rest) : i.wf c m = true := by
  unfold decodeOpcode at h
  split at h
  · cases h
  split at h
  · exact decodeLegacy_wf hscope hrex h
  split at h
  · exact decodeVex2_wf hscope h
  split at h
  · exact decodeVex3_wf hscope h
  split at h
  · exact decodeEvex_wf hscope h
  split at h
  · cases h
  · cases h

/-- What the decoder accepts is well formed. -/
theorem decode_wf {c : Config} {m : Mode} {bs rest : List Byte} {i : Instr}
    (h : decode c m bs = .instr i rest) : i.wf c m = true := by
  unfold decode decodeAfterPrefixes at h
  split at h
  · rename_i hscope
    split at h
    · cases h
    · split at h
      · rename_i hrex
        exact decodeOpcode_wf hscope (fun _ => hrex.1) h
      · exact decodeOpcode_wf hscope (by simp) h
  · exact absurd h (decodeOutOfScope_ne_instr _ _ _)

end Sys2Proof

namespace Sys2Proof.Machine

/-! ### Register numbers (R74) -/

/-- Without an extension bit a register number is below 8. -/
theorem vreg4_false_lt (n : BitVec 3) : (vreg4 false n).toNat < 8 := by
  revert n; decide

/-- Without extension bits a register number is below 8. -/
theorem vreg5_false_lt (n : BitVec 3) : (vreg5 false false n).toNat < 8 := by
  revert n; decide

/-- A register source of a legacy or VEX form is `B ++ r/m`. -/
theorem eq_vreg4_of_sourceRM {m : Mode} {x b : Bool} {src : RM} {n : BitVec 5}
    (h : sourceRM m x b src = .reg n) : ∃ rm, n = vreg4 b rm := by
  cases src with
  | reg rm => cases h; exact ⟨rm, rfl⟩
  | mem => cases h

/-- A register source of an EVEX form is `X ++ B ++ r/m`. -/
theorem eq_vreg5_of_sourceEvex {m : Mode} {x b : Bool} {vl : VecLen} {src : EvexSrc} {n : BitVec 5}
    (h : sourceEvex m x b vl src = .reg n) : ∃ rm, n = vreg5 x b rm := by
  cases src with
  | reg rm => cases h; exact ⟨rm, rfl⟩
  | mem | bcst => cases h

/-- A register source of a legacy or VEX form is below 16 (R22). -/
theorem sourceRM_reg_lt {m : Mode} {x b : Bool} {src : RM} {n : BitVec 5}
    (h : sourceRM m x b src = .reg n) : n.toNat < 16 := by
  obtain ⟨rm, rfl⟩ := eq_vreg4_of_sourceRM h
  exact vreg4_lt b rm

/-- With `B = 0` a register source of a legacy or VEX form is below 8. -/
theorem sourceRM_false_reg_lt {m : Mode} {x : Bool} {src : RM} {n : BitVec 5}
    (h : sourceRM m x false src = .reg n) : n.toNat < 8 := by
  obtain ⟨rm, rfl⟩ := eq_vreg4_of_sourceRM h
  exact vreg4_false_lt rm

/-- With `X = B = 0` a register source of an EVEX form is below 8. -/
theorem sourceEvex_false_reg_lt {m : Mode} {vl : VecLen} {src : EvexSrc} {n : BitVec 5}
    (h : sourceEvex m false false vl src = .reg n) : n.toNat < 8 := by
  obtain ⟨rm, rfl⟩ := eq_vreg5_of_sourceEvex h
  exact vreg5_false_lt rm

/-- Only an EVEX form can name `ZMM[16]` to `ZMM[31]` as its source (R22). -/
theorem source_reg_lt_of_cls_ne_evex {i : Instr} {m : Mode} {n : BitVec 5} (hc : i.cls ≠ .evex)
    (h : i.source m = .reg n) : n.toNat < 16 := by
  cases i with
  | legacy | legacyRex | vex128C5 | vex128C4 | vex256C5 | vex256C4 => exact sourceRM_reg_lt h
  | evex128 | evex256 | evex512 | evex512Sae => exact absurd rfl hc

/-- Outside 64-bit mode the extension bits of a well-formed EVEX form are 0 (D19). -/
theorem ext_eq_of_evexWf {pre : List Prefix} {e : EvexExt} {mask : Mask}
    (h : evexWf .prot32 pre e mask = true) : e = ⟨false, false, false, false⟩ := by
  obtain ⟨r, x, b, r'⟩ := e
  simp_all [evexWf, EvexExt.wf]

/-- Outside 64-bit mode a well-formed instruction names registers below 8 (R22). -/
theorem registers_lt_of_wf_prot32 {c : Config} {i : Instr} (h : i.wf c .prot32 = true) :
    i.dest.toNat < 8 ∧ ∀ n, i.source .prot32 = .reg n → n.toNat < 8 := by
  cases i with
  | legacy => exact ⟨vreg4_false_lt _, fun _ => sourceRM_false_reg_lt⟩
  | legacyRex => simp [Instr.wf] at h
  | vex128C5 pre r | vex256C5 pre r =>
    obtain rfl : r = false := by simp_all [Instr.wf]
    exact ⟨vreg4_false_lt _, fun _ => sourceRM_false_reg_lt⟩
  | vex128C4 pre v | vex256C4 pre v =>
    obtain ⟨r, x, b, w⟩ := v
    obtain ⟨rfl, rfl⟩ : r = false ∧ b = false := by simp_all [Instr.wf, Vex3.wf]
    exact ⟨vreg4_false_lt _, fun _ => sourceRM_false_reg_lt⟩
  | evex128 | evex256 | evex512 =>
    simp only [Instr.wf, Bool.and_eq_true] at h
    obtain rfl := ext_eq_of_evexWf h.1
    exact ⟨vreg5_false_lt _, fun _ => sourceEvex_false_reg_lt⟩
  | evex512Sae =>
    simp only [Instr.wf, Bool.and_eq_true] at h
    obtain rfl := ext_eq_of_evexWf h.1
    exact ⟨vreg5_false_lt _, fun n hn => by cases hn; exact vreg5_false_lt _⟩

/-- Settles O4: a decoded instruction is well formed, so outside 64-bit mode no extension bit is set; a
legacy or VEX form has 4-bit register numbers in every mode. -/
theorem decodedRegistersExist : Obligations.DecodedRegistersExist := by
  intro c m bs rest i h
  refine ⟨fun hm => ?_, fun hc =>
    ⟨dest_lt_of_cls_ne_evex hc, fun n => source_reg_lt_of_cls_ne_evex hc⟩⟩
  subst hm
  exact registers_lt_of_wf_prot32 (decode_wf h)

end Sys2Proof.Machine
end

section
/-!
PROOFS. Operand addresses: the effective and the linear address (R46, R47) and the canonical form (R48).
-/

namespace Sys2Proof.Machine

/-! ### The effective address (R46) -/

/-- R46's sum in 64-bit and in 32-bit addressing, for the value of the base and the unscaled one of the
index. -/
theorem effectiveAddress_toNat {s : State} {ripNext base index : Quad} {r : MemRef}
    (hbase : s.baseValue ripNext r.base = base)
    (hindex : s.indexValue r = index <<< r.scale.toNat) :
    (s.effectiveAddress false ripNext r).toNat =
      (base.toNat + index.toNat * 2 ^ r.scale.toNat + r.disp.toNat) % 2 ^ 64 ∧
    (s.effectiveAddress true ripNext r).toNat =
      (base.toNat % 2 ^ 32 + index.toNat % 2 ^ 32 * 2 ^ r.scale.toNat + r.disp.toNat % 2 ^ 32) %
        2 ^ 32 := by
  have hscaled : (index.toNat % 2 ^ 32 * 2 ^ r.scale.toNat) % 2 ^ 32 =
      (index.toNat * 2 ^ r.scale.toNat) % 2 ^ 32 := Nat.mod_mul_mod _ _ _
  constructor <;>
  · simp only [State.effectiveAddress, hbase, hindex, BitVec.toNat_add, BitVec.toNat_shiftLeft,
      BitVec.toNat_setWidth, Nat.shiftLeft_eq, if_true, if_false, Bool.false_eq_true]
    omega

/-- With 32-bit addressing the effective address has 32 bits. -/
theorem effectiveAddress32_lt (s : State) (ripNext : Quad) (r : MemRef) :
    (s.effectiveAddress true ripNext r).toNat < 2 ^ 32 := by
  simp only [State.effectiveAddress, if_true, BitVec.toNat_setWidth]
  omega

/-- 32-bit addressing is the default outside 64-bit mode and what `67` selects inside it (R46, R80). -/
theorem addr32_iff (s : State) (pre : List Prefix) :
    s.addr32 pre = true ↔ s.mode ≠ .long64 ∨ .addressSize ∈ pre := by
  simp [State.addr32]

/-- Settles O17: the sum of `effectiveAddress_toNat` at the operand's own base and index; the general
registers are in R32's frame of every completed form. -/
theorem effectiveAddressIsTheSum : Obligations.EffectiveAddressIsTheSum := by
  refine ⟨fun s ripNext r => effectiveAddress_toNat ?_ ?_, addr32_iff,
    fun _ _ _ h => (exec_next_result h).frame.gpr⟩
  · cases r.base <;> rfl
  · unfold State.indexValue
    cases r.index with
    | none => simp
    | some n => rfl

/-! ### Segment and linear address (R47) -/

/-- Without an override among the prefixes there is none. -/
theorem segOverride_eq_none {pre : List Prefix} (h : ∀ g, .segment g ∉ pre) :
    segOverride pre = none := by
  induction pre with
  | nil => rfl
  | cons p t ih =>
    have ht : segOverride t = none := ih fun g hg => h g (List.mem_cons_of_mem _ hg)
    cases p with
    | segment g => exact absurd List.mem_cons_self (h g)
    | _ => exact ht

/-- Where there is at most one segment override among the prefixes, it is the one in effect (R62). -/
theorem segOverride_eq_some {pre : List Prefix} {g : Seg} (hone : pre.countP Prefix.isSegment ≤ 1)
    (hg : .segment g ∈ pre) : segOverride pre = some g := by
  induction pre with
  | nil => cases hg
  | cons p t ih =>
    cases p with
    | segment g' =>
      have hrest : t.countP Prefix.isSegment = 0 := by
        simpa [List.countP_cons, Prefix.isSegment] using hone
      rcases List.mem_cons.mp hg with heq | hmem
      · cases heq; rfl
      · exact absurd rfl (List.countP_eq_zero.mp hrest _ hmem)
    | _ =>
      refine ih ?_ (by simpa using hg)
      simpa [List.countP_cons, Prefix.isSegment] using hone

/-- The segment of a memory operand is the override. -/
theorem seg_of_override {i : Instr} {r : MemRef} {g : Seg} (hone : noRepeat i.pre = true)
    (hg : .segment g ∈ i.pre) : i.seg r = g := by
  have hcount : i.pre.countP Prefix.isSegment ≤ 1 := by
    simp only [noRepeat, Bool.and_eq_true, decide_eq_true_eq] at hone
    exact hone.1.1
  simp [Instr.seg, operandSeg, segOverride_eq_some hcount hg]

/-- Without an override the segment is `SS` for base register 4 or 5 and `DS` otherwise. -/
theorem seg_of_no_override {i : Instr} {r : MemRef} (h : ∀ g, .segment g ∉ i.pre) :
    i.seg r = if r.base = .gpr 4#4 ∨ r.base = .gpr 5#4 then .ss else .ds := by
  simp [Instr.seg, operandSeg, segOverride_eq_none h]

/-- Register 4 or 5 after the extension bit is 4 or 5 with the bit 0: `R12` and `R13` are others. -/
theorem reg4_eq_four_or_five (b : Bool) (low : BitVec 3) :
    (reg4 b low = 4#4 ∨ reg4 b low = 5#4) ↔ b = false ∧ (low = 4#3 ∨ low = 5#3) := by
  revert b low; decide

/-- The segment of an operand with a base register, by the register's fields. -/
theorem seg_of_baseReg {i : Instr} {r : MemRef} {b : Bool} {low : BitVec 3}
    (h : ∀ g, .segment g ∉ i.pre) (hr : r.base = .gpr (reg4 b low)) :
    i.seg r = if b = false ∧ (low = 4#3 ∨ low = 5#3) then .ss else .ds := by
  simp only [seg_of_no_override h, hr, Base.gpr.injEq, reg4_eq_four_or_five]

/-- The linear address is the segment's base plus the effective address. -/
theorem operandAddress_eq_segBase_add (s : State) (i : Instr) (r : MemRef) :
    s.operandAddress i r = s.segBase (i.seg r) + s.effectiveAddress (s.addr32 i.pre)
      (s.rip + BitVec.ofNat 64 (encode i).length) r := rfl

/-- Outside 64-bit mode no segment has a base (R29, D1). -/
theorem segBase_of_ne_long64 {s : State} (h : s.mode ≠ .long64) (g : Seg) : s.segBase g = 0#64 := by
  cases g <;> simp [State.segBase, h]

/-- Only `FS` and `GS` have a base. -/
theorem segBase_of_ne_fs_gs {s : State} {g : Seg} (hfs : g ≠ .fs) (hgs : g ≠ .gs) :
    s.segBase g = 0#64 := by
  cases g with
  | fs => exact absurd rfl hfs
  | gs => exact absurd rfl hgs
  | _ => rfl

/-- Settles O18: the segment with and without an override, then the sum with its base in each mode. -/
theorem linearAddressAndSegment : Obligations.LinearAddressAndSegment := by
  intro s i r next
  refine ⟨fun g => seg_of_override, fun hno => ⟨fun n hn => ?_, fun hn => ?_, fun _ _ _ _ _ _ _ _ =>
    ⟨seg_of_baseReg hno rfl, seg_of_baseReg hno rfl⟩⟩, fun hmode => ?_, fun hmode => ?_⟩
  · simp [seg_of_no_override hno, hn, ← BitVec.toNat_inj]
  · rcases hn with hn | hn <;> simp [seg_of_no_override hno, hn]
  · have haddr : s.addr32 i.pre = i.pre.contains .addressSize := by simp [State.addr32, hmode]
    rw [operandAddress_eq_segBase_add, haddr]
    refine ⟨fun hseg => ?_, fun hseg => ?_, fun hfs hgs => ?_⟩
    · simp [hseg, State.segBase, hmode, next]
    · simp [hseg, State.segBase, hmode, next]
    · simp [segBase_of_ne_fs_gs hfs hgs, next]
  · have haddr : s.addr32 i.pre = true := (addr32_iff s i.pre).mpr (.inl hmode)
    rw [operandAddress_eq_segBase_add, haddr, segBase_of_ne_long64 hmode, BitVec.zero_add]
    exact (Nat.mod_eq_of_lt (effectiveAddress32_lt _ _ _)).symm

/-! ### Canonical addresses (R48) -/

/-- The `n` bits of a word from `lo` to its top are all 0 or all 1 exactly when they equal the top bit. -/
theorem highBits_equal_iff (a : Quad) {lo n : Nat} (hn : lo + n = 64) (hpos : 0 < n) :
    (a.extractLsb' lo n = 0#n ∨ a.extractLsb' lo n = BitVec.allOnes n) ↔
      ∀ k, lo ≤ k → k < 64 → a.getLsbD k = a.getLsbD 63 := by
  have hbit : ∀ k, lo ≤ k → k < 64 → a.getLsbD k = (a.extractLsb' lo n).getLsbD (k - lo) := by
    intro k hlo hk
    simp [show k - lo < n by omega, show lo + (k - lo) = k by omega]
  constructor
  · rintro (h | h) k hlo hk
    · rw [hbit k hlo hk, hbit 63 (by omega) (by omega), h, BitVec.getLsbD_zero, BitVec.getLsbD_zero]
    · rw [hbit k hlo hk, hbit 63 (by omega) (by omega), h]
      simp [show k - lo < n by omega, show 63 - lo < n by omega]
  · intro h
    have htops : ∀ j, j < n → (a.extractLsb' lo n).getLsbD j = a.getLsbD 63 := fun j hj => by
      rw [← h (lo + j) (by omega) (by omega), hbit (lo + j) (by omega) (by omega),
        Nat.add_sub_cancel_left]
    cases htop : a.getLsbD 63 with
    | false =>
      refine .inl (BitVec.eq_of_getLsbD_eq fun j hj => ?_)
      rw [htops j hj, htop, BitVec.getLsbD_zero]
    | true =>
      refine .inr (BitVec.eq_of_getLsbD_eq fun j hj => ?_)
      rw [htops j hj, htop, BitVec.getLsbD_allOnes, decide_eq_true hj]

/-- Settles O19: bits 63:56 or 63:47, as the configuration says, are all 0 or all 1. -/
theorem canonicalMeansEqualHighBits : Obligations.CanonicalMeansEqualHighBits := by
  intro c a
  unfold canonical
  cases c.la57 with
  | true => simpa using highBits_equal_iff a (lo := 56) (n := 8) rfl (by decide)
  | false => simpa using highBits_equal_iff a (lo := 47) (n := 17) rfl (by decide)

end Sys2Proof.Machine
end

section
/-!
PROOFS. The exceptions of a memory operand: alignment (R43), illegal addresses (R48, R49, R123, R124) and
page faults (R125).
-/

namespace Sys2Proof.Machine

/-! ### Exceptions on the operand's address -/

/-- What the checks on the operand's address raise, the instruction raises. -/
theorem exec_of_addressExc {i : Instr} {s : State} {r : MemRef} {n : Nat} {e : Exc}
    (hmem : i.memory s.mode = some (r, n)) (hready : s.ready i = true)
    (he : s.addressExc? i.cls (i.seg r) (s.operandAddress i r) n = some e) :
    exec i s = raise e s := by
  refine exec_stopped (st := .exc e) hready ?_
  unfold Instr.memory at hmem
  unfold Instr.seg at he
  cases hsrc : i.source s.mode with
  | reg => simp [hsrc] at hmem
  | mem r' | bcst r' =>
    simp only [hsrc, Option.some.injEq, Prod.mk.injEq] at hmem
    obtain ⟨rfl, rfl⟩ := hmem
    simp [State.sourceLanes, operandAddress_eq, State.readOperand, he]

/-- The legacy form's alignment is judged first (R43, D27). -/
theorem addressExc_of_misaligned (s : State) (seg : Seg) {a : Quad} (n : Nat) (h : a.toNat % 16 ≠ 0) :
    s.addressExc? .legacy seg a n = some .gp := by
  simp [State.addressExc?, h]

/-- An illegal address raises by its segment, where the alignment raises nothing (R123, R124). -/
theorem addressExc_of_illegal {s : State} {cls : EncClass} (seg : Seg) {a : Quad} {n : Nat}
    (halign : cls = .legacy → a.toNat % 16 = 0) (h : s.operandLegal a n = false) :
    s.addressExc? cls seg a n = some (if seg = .ss then .ss else .gp) := by
  have haligned : ¬ (cls = .legacy ∧ a.toNat % 16 ≠ 0) := fun hl => hl.2 (halign hl.1)
  simp only [State.addressExc?, if_neg haligned, h, Bool.not_false, if_true]

/-- One byte at a non-canonical address makes the operand illegal in 64-bit mode (R48). -/
theorem operandLegal_of_noncanonical {s : State} {a : Quad} {n k : Nat} (hmode : s.mode = .long64)
    (hk : k < n) (h : canonical s.cfg (a + BitVec.ofNat 64 k) = false) : s.operandLegal a n = false := by
  simp only [State.operandLegal, hmode, if_true, List.all_eq_false, List.mem_range]
  exact ⟨k, hk, by simp [h]⟩

/-- A last byte beyond the limit makes the operand illegal outside 64-bit mode (R49). -/
theorem operandLegal_of_beyondLimit {s : State} {a : Quad} {n : Nat} (hmode : s.mode = .prot32)
    (h : 2 ^ 32 - 1 < a.toNat + n - 1) : s.operandLegal a n = false := by
  simp only [State.operandLegal, hmode, reduceCtorEq, if_false, decide_eq_false_iff_not]
  omega

/-- Settles O40: the alignment check of the legacy form comes before every other check on the address. -/
theorem legacyMisalignmentRaisesGp : Obligations.LegacyMisalignmentRaisesGp := by
  intro i s r n hcls hmem hready halign
  refine exec_of_addressExc (e := .gp) hmem hready ?_
  rw [hcls]
  exact addressExc_of_misaligned s _ n halign

/-- Settles O41: either way the operand is not legal, and an illegal operand raises by its segment. -/
theorem illegalOperandAddressFaults : Obligations.IllegalOperandAddressFaults := by
  intro i s r n hmem hready halign hbad
  have hillegal : s.operandLegal (s.operandAddress i r) n = false := by
    rcases hbad with ⟨hmode, k, hk, hcanon⟩ | ⟨hmode, hlimit⟩
    · exact operandLegal_of_noncanonical hmode hk hcanon
    · exact operandLegal_of_beyondLimit hmode hlimit
  rw [exec_of_addressExc hmem hready (addressExc_of_illegal _ halign hillegal)]
  split <;> rfl

/-! ### Page faults on the operand's bytes -/

/-- A stop by a page fault is the fault, with the byte's address in `CR2` (R132). -/
theorem outcome_pageFault (s : State) (code : BitVec 32) (a : Quad) :
    (Stop.exc (.pf code (BitVec.ofNat 64 a.toNat))).outcome s =
      .fault (.exception (.pf code a) { s with cr2 := a }) := by
  rw [BitVec.ofNat_toNat, BitVec.setWidth_eq]; rfl

/-- Settles O42: the bytes read are those of the selected lanes, so a failing one among them stops the
access with the page fault of such a byte. -/
theorem operandPageFault : Obligations.OperandPageFault := by
  intro i s r j k code hsrc hready hsettled hlegal halign hj hsel hk hfail
  obtain ⟨b, hb, code', hfail', hacc⟩ :=
    accessStop_of_pageFault (mem_laneBytes.mpr ⟨j, k, hj, hsel, hk, rfl⟩) hfail
  obtain ⟨j', k', hj', hsel', hk', rfl⟩ := mem_laneBytes.mp hb
  refine ⟨j', k', code', hj', hsel', hk', hfail', ?_⟩
  rw [exec_of_memAccessStop hready hsrc halign hlegal hsettled hacc, outcome_pageFault]

/-- Settles O43: with a lane selected the bytes read are those of the one doubleword. -/
theorem broadcastPageFault : Obligations.BroadcastPageFault := by
  intro i s r j k code hsrc hready hsettled hlegal hj hsel hk hfail
  obtain ⟨b, hb, code', hfail', hacc⟩ :=
    accessStop_of_pageFault (mem_bcstBytes.mpr ⟨⟨j, hj, hsel⟩, k, hk, rfl⟩) hfail
  obtain ⟨-, k', hk', rfl⟩ := mem_bcstBytes.mp hb
  refine ⟨k', code', hk', hfail', ?_⟩
  rw [exec_of_bcstAccessStop hready hsrc hlegal hsettled hacc, outcome_pageFault]

end Sys2Proof.Machine
end

section
/-!
PROOFS. The decoder reads back what the encoder writes (R60 to R84), and the length of an instruction (R81).
-/

namespace Sys2Proof

/-! ### Prefixes -/

/-- The head of an encoding: the decoder reads the prefixes and goes on after them. -/
theorem decode_encodePre {m : Mode} (c : Config) (pre : List Prefix) {b : Byte} (bs : List Byte)
    (hscope : m.inScope = true) (hb : Prefix.ofByte b = none) :
    decode c m (encodePre pre ++ b :: bs) = decodeAfterPrefixes c m pre (b :: bs) := by
  simp only [decode, hscope, if_true, scanPrefixes_encodePre pre bs hb]

/-- The opcode byte of a form without REX goes to the decoder of its class. -/
theorem decodeAfterPrefixes_of_not_rex (c : Config) (m : Mode) (pre : List Prefix) {b : Byte}
    (bs : List Byte) (hb : b.extractLsb' 4 4 ≠ 4#4) :
    decodeAfterPrefixes c m pre (b :: bs) = decodeOpcode c m pre none (b :: bs) := by
  simp [decodeAfterPrefixes, hb]

/-- The prefixes admitted before `C4`, `C5` or `62` pass the decoder's checks. -/
theorem vexPrefixVerdict_of_ok {m : Mode} {pre : List Prefix} (h : vexPrefixesOk m pre = true) :
    vexPrefixVerdict pre false = none ∧ addressSizeOk m pre = true := by
  simp only [vexPrefixesOk, Bool.and_eq_true, Bool.not_eq_true'] at h
  obtain ⟨⟨⟨⟨⟨hrep, haddr⟩, h3⟩, h66⟩, h2⟩, hlock⟩ := h
  exact ⟨by simp only [vexPrefixVerdict, hlock, h66, h2, h3, hrep]; rfl, haddr⟩

/-! ### Legacy forms -/

/-- The legacy opcode and operand read back, with the REX byte that stood before them. -/
theorem decodeLegacy_encode {m : Mode} {pre : List Prefix} (rex : Option Rex) (reg : BitVec 3) {src : RM}
    (rest : List Byte) (hpre : legacyPrefixesOk m pre = true) (hsrc : src.wf = true) :
    decodeLegacy m pre rex (0x5B#8 :: (encodeRM reg src ++ rest)) =
      .instr (rex.elim (.legacy pre reg src) (.legacyRex pre · reg src)) rest := by
  simp only [legacyPrefixesOk, Bool.and_eq_true, Bool.not_eq_true'] at hpre
  obtain ⟨⟨⟨⟨⟨h3, hrep⟩, haddr⟩, h66⟩, h2⟩, hlock⟩ := hpre
  simp only [decodeLegacy, takeModRM_encodeRM reg src rest hsrc, h3, hrep, haddr, h66, h2, hlock]
  cases rex <;> rfl

/-- A form without REX and VEX. -/
theorem decode_encode_legacy {c : Config} {m : Mode} {pre : List Prefix} {reg : BitVec 3} {src : RM}
    (rest : List Byte) (h : (Instr.legacy pre reg src).wf c m = true) :
    decode c m (encode (.legacy pre reg src) ++ rest) = .instr (.legacy pre reg src) rest := by
  simp only [Instr.wf, Bool.and_eq_true] at h
  obtain ⟨⟨hscope, hpre⟩, hsrc⟩ := h
  simp only [encode, List.append_assoc, List.cons_append, List.nil_append]
  rw [decode_encodePre c pre _ hscope (by decide), decodeAfterPrefixes_of_not_rex _ _ _ _ (by decide)]
  exact decodeLegacy_encode none reg rest hpre hsrc

/-- A form with REX. -/
theorem decode_encode_legacyRex {c : Config} {m : Mode} {pre : List Prefix} {rex : Rex} {reg : BitVec 3}
    {src : RM} (rest : List Byte) (h : (Instr.legacyRex pre rex reg src).wf c m = true) :
    decode c m (encode (.legacyRex pre rex reg src) ++ rest) = .instr (.legacyRex pre rex reg src) rest := by
  simp only [Instr.wf, Bool.and_eq_true, beq_iff_eq] at h
  obtain ⟨⟨rfl, hpre⟩, hsrc⟩ := h
  obtain ⟨htop, hnone, hw, hr, hx, hb⟩ := Rex.byte_bits rex
  simp only [encode, List.append_assoc, List.cons_append, List.nil_append]
  rw [decode_encodePre c pre _ (by decide) hnone]
  simp only [decodeAfterPrefixes, htop, hw, hr, hx, hb, and_self, if_true]
  exact decodeLegacy_encode (some rex) reg rest hpre hsrc

/-! ### VEX forms -/

/-- From a VEX form's last payload byte on: `L` selects between the two rows (R66). -/
theorem decodeVexTail_encode {m : Mode} {pre : List Prefix} {p : Byte} {l : Bool}
    (row128 row256 : BitVec 3 → RM → Instr) (reg : BitVec 3) {src : RM} (rest : List Byte)
    (hpp : p.extractLsb' 0 2 = 2#2) (hvvvv : p.extractLsb' 3 4 = 15#4) (hl : bit p 2 = l)
    (hpre : vexPrefixesOk m pre = true) (hsrc : src.wf = true) :
    decodeVexTail m pre false p row128 row256 (0x5B#8 :: (encodeRM reg src ++ rest)) =
      .instr (if l then row256 reg src else row128 reg src) rest := by
  obtain ⟨hverdict, haddr⟩ := vexPrefixVerdict_of_ok hpre
  simp [decodeVexTail, takeModRM_encodeRM reg src rest hsrc, hpp, hvvvv, hl, haddr, hverdict]

/-- A payload byte that begins `11b` is told from `LDS`, `LES` and `BOUND` (R67). -/
theorem not_other_of_top_bits {m : Mode} {p : Byte}
    (h : m ≠ .long64 → bit p 7 = true ∧ bit p 6 = true) :
    ¬ (m ≠ .long64 ∧ p.extractLsb' 6 2 ≠ 3#2) := by
  have htop : ∀ q : Byte, bit q 7 = true → bit q 6 = true → q.extractLsb' 6 2 = 3#2 := by
    decide +kernel
  rintro ⟨hm, hne⟩
  exact hne (htop p (h hm).1 (h hm).2)

/-- `vvvv = 1111b` sets bit 6 of its payload byte. -/
theorem bit_six_of_vvvv {p : Byte} (h : p.extractLsb' 3 4 = 15#4) : bit p 6 = true := by
  revert p; decide +kernel

/-- A VEX form after `C5`: outside 64-bit mode `R̄ = 1` tells it from `LDS` (R67). -/
theorem decode_encodeVex2 {c : Config} {m : Mode} {pre : List Prefix} {r l : Bool} {reg : BitVec 3}
    {src : RM} (rest : List Byte) (hwf : vexWf m pre src = true) (hr : m = .long64 ∨ r = false) :
    decode c m (encodePre pre ++ (encodeVex2 r l ++ encodeRM reg src) ++ rest) =
      .instr (if l then .vex256C5 pre r reg src else .vex128C5 pre r reg src) rest := by
  simp only [vexWf, Bool.and_eq_true] at hwf
  obtain ⟨⟨hscope, hpre⟩, hsrc⟩ := hwf
  obtain ⟨hpp, hvvvv, hl, hbit⟩ := vex2_bits r l _ rfl
  have htop := not_other_of_top_bits (m := m) fun hm =>
    ⟨by rw [hbit, hr.resolve_left hm, Bool.not_false], bit_six_of_vvvv hvvvv⟩
  simp only [encodeVex2, List.append_assoc, List.cons_append, List.nil_append]
  rw [decode_encodePre c pre _ hscope (by decide), decodeAfterPrefixes_of_not_rex _ _ _ _ (by decide)]
  change decodeVex2 m pre false (_ :: _) = _
  rw [decodeVex2, if_neg htop, decodeVexTail_encode _ _ reg rest hpp hvvvv hl hpre hsrc, hbit, Bool.not_not]

/-- A VEX form after `C4`: outside 64-bit mode `R̄ = X̄ = 1` tell it from `LES`, and `B̄ = 1` (R67). -/
theorem decode_encodeVex3 {c : Config} {m : Mode} {pre : List Prefix} {v : Vex3} {l : Bool}
    {reg : BitVec 3} {src : RM} (rest : List Byte) (hwf : vexWf m pre src = true)
    (hv : v.wf m = true) :
    decode c m (encodePre pre ++ (encodeVex3 v l ++ encodeRM reg src) ++ rest) =
      .instr (if l then .vex256C4 pre v reg src else .vex128C4 pre v reg src) rest := by
  simp only [vexWf, Bool.and_eq_true] at hwf
  obtain ⟨⟨hscope, hpre⟩, hsrc⟩ := hwf
  obtain ⟨hmap, hbr, hbx, hbb⟩ := vex3_bits v _ rfl
  obtain ⟨hpp, hvvvv, hl, hw⟩ := vex3W_bits v.w l _ rfl
  have hbits : m ≠ .long64 → v.r = false ∧ v.x = false ∧ v.b = false := by
    intro hm
    simpa [Vex3.wf, hm, and_assoc] using hv
  have htop := not_other_of_top_bits (m := m) fun hm => by
    obtain ⟨hr, hx, -⟩ := hbits hm
    exact ⟨by rw [hbr, hr, Bool.not_false], by rw [hbx, hx, Bool.not_false]⟩
  have hext : ¬ (m ≠ .long64 ∧ v.b = true) := by
    rintro ⟨hm, hb⟩
    simp [(hbits hm).2.2] at hb
  simp only [encodeVex3, List.append_assoc, List.cons_append, List.nil_append]
  rw [decode_encodePre c pre _ hscope (by decide), decodeAfterPrefixes_of_not_rex _ _ _ _ (by decide)]
  change decodeVex3 m pre false (_ :: _ :: _) = _
  rw [decodeVex3, if_neg htop]
  simp only [hbr, hbx, hbb, hw, hmap, Bool.not_not]
  rw [if_neg hext, if_neg (by decide), if_neg (by decide)]
  exact decodeVexTail_encode _ _ reg rest hpp hvvvv hl hpre hsrc

/-! ### EVEX forms -/

/-- The source of an EVEX form as its ModRM byte writes it, without `b`. -/
def EvexSrc.toRM : EvexSrc → RM
  | .reg rm => .reg rm
  | .mem m => .mem m
  | .bcst m => .mem m

theorem EvexSrc.toRM_wf (src : EvexSrc) : src.toRM.wf = src.wf := by cases src <;> rfl

theorem encodeRM_toRM (reg : BitVec 3) (src : EvexSrc) :
    encodeRM reg src.toRM = encodeEvexSrc reg src := by cases src <;> rfl

/-- Without `{sae}` the row is chosen by `L'L` (R70), and `b` with the operand gives the source back
(R71). -/
theorem evexRow_toRM (c : Config) (pre : List Prefix) (ext : EvexExt) (mask : Mask) (ll : BitVec 2)
    (reg : BitVec 3) (src : EvexSrc) (rest : List Byte) :
    evexRow c pre ext mask ll src.isBcst reg src.toRM rest =
      evexRow.sized pre ext mask ll reg rest src := by
  cases src <;> rfl

/-- The payload of a well-formed mask has no invalid-opcode condition (R69, R73). -/
theorem evexPayloadUd_of_fields {p0 p2 : Byte} {mask : Mask} (hzero : p0.extractLsb' 2 2 = 0#2)
    (hv' : bit p2 3 = true) (hz : bit p2 7 = mask.z) (haaa : p2.extractLsb' 0 3 = mask.aaa)
    (hmask : mask.z = true → mask.aaa ≠ 0#3) : evexPayloadUd p0 0x7E#8 p2 = none := by
  have hzeroing : ¬ (mask.z = true ∧ mask.aaa = 0#3) := fun h => hmask h.1 h.2
  simp only [evexPayloadUd, hzero, hv', hz, haaa, if_neg hzeroing]
  decide

/-- The bytes of an EVEX form after its prefixes read back as their fields: what remains is the row. -/
theorem decode_encodeEvex {c : Config} {m : Mode} {pre : List Prefix} {e : EvexExt} {mask : Mask}
    {ll : BitVec 2} {b : Bool} {reg : BitVec 3} {src : RM} (rest : List Byte)
    (hwf : evexWf m pre e mask = true) (hsrc : src.wf = true) :
    decode c m (encodePre pre ++ (encodeEvex e mask ll b ++ encodeRM reg src) ++ rest) =
      evexRow c pre e mask ll b reg src rest := by
  simp only [evexWf, Bool.and_eq_true] at hwf
  obtain ⟨⟨⟨hscope, hpre⟩, he⟩, hmask⟩ := hwf
  obtain ⟨hverdict, haddr⟩ := vexPrefixVerdict_of_ok hpre
  obtain ⟨hmm, hzero, hr, hx, hb, hr'⟩ := evexP0_bits e _ rfl
  obtain ⟨hv', hz, haaa, hll, hbc⟩ := evexP2_bits mask.z b ll mask.aaa _ rfl
  obtain ⟨hofBits, hzaaa⟩ := Mask.ofBits_bits mask hmask
  have hbits : m ≠ .long64 → e = ⟨false, false, false, false⟩ := by
    intro hm
    obtain ⟨r, x, b, r'⟩ := e
    simpa [EvexExt.wf, hm, and_assoc] using he
  have htop := not_other_of_top_bits (m := m) fun hm => by
    rw [hr, hx, hbits hm]
    exact ⟨rfl, rfl⟩
  have hext : ¬ (m ≠ .long64 ∧ (!(!e.b && !e.r' && true)) = true) := by
    rintro ⟨hm, hne⟩
    rw [hbits hm] at hne
    cases hne
  have hud := evexPayloadUd_of_fields hzero hv' hz haaa hzaaa
  simp only [encodeEvex, List.append_assoc, List.cons_append, List.nil_append]
  rw [decode_encodePre c pre _ hscope (by decide), decodeAfterPrefixes_of_not_rex _ _ _ _ (by decide)]
  change decodeEvex c m pre false (_ :: _) = _
  rw [decodeEvex, if_neg htop, decodeEvexPayload, hr, hx, hb, hr', hmm, hv', if_neg hext,
    if_neg (by decide), if_neg (by decide), takeModRM_encodeRM reg src rest hsrc]
  simp only [haddr, Bool.not_true, Bool.false_eq_true, if_false, hverdict, hud, hz, haaa, hll, hbc,
    Bool.not_not, hofBits]

/-- An EVEX form without `{sae}` is the row that `L'L` selects. -/
theorem decode_encodeEvexSrc {c : Config} {m : Mode} {pre : List Prefix} {e : EvexExt} {mask : Mask}
    {ll : BitVec 2} {reg : BitVec 3} {src : EvexSrc} (rest : List Byte)
    (hwf : evexWf m pre e mask = true) (hsrc : src.wf = true) :
    decode c m (encodePre pre ++ (encodeEvex e mask ll src.isBcst ++ encodeEvexSrc reg src) ++ rest) =
      evexRow.sized pre e mask ll reg rest src := by
  rw [← encodeRM_toRM, decode_encodeEvex rest hwf (src.toRM_wf.trans hsrc), evexRow_toRM]

/-! ### Every form -/

/-- The decoder reads a well-formed instruction back from its bytes, whatever follows them. -/
theorem decode_encode {c : Config} {m : Mode} {i : Instr} (rest : List Byte) (h : i.wf c m = true) :
    decode c m (encode i ++ rest) = .instr i rest := by
  cases i with
  | legacy => exact decode_encode_legacy rest h
  | legacyRex => exact decode_encode_legacyRex rest h
  | vex128C5 pre r | vex256C5 pre r =>
    simp only [Instr.wf, Bool.and_eq_true, Bool.or_eq_true, beq_iff_eq, Bool.not_eq_true'] at h
    exact decode_encodeVex2 rest h.1 h.2
  | vex128C4 | vex256C4 =>
    simp only [Instr.wf, Bool.and_eq_true] at h
    exact decode_encodeVex3 rest h.1 h.2
  | evex128 | evex256 | evex512 =>
    simp only [Instr.wf, Bool.and_eq_true] at h
    exact decode_encodeEvexSrc rest h.1 h.2
  | evex512Sae pre e mask ll =>
    simp only [Instr.wf, Bool.and_eq_true, Bool.or_eq_true, beq_iff_eq] at h
    exact (decode_encodeEvex rest h.1 rfl).trans (if_pos h.2)

/-! ### The length (R81) -/

/-- The prefixes are of the six kinds of R62. -/
theorem length_eq_sum_of_kinds (pre : List Prefix) :
    pre.length = pre.countP Prefix.isSegment + pre.count .addressSize + pre.count .rep +
      pre.count .operandSize + pre.count .repne + pre.count .lock := by
  induction pre with
  | nil => rfl
  | cons p t ih =>
    cases p <;> simp [List.countP_cons, Prefix.isSegment] <;> omega

/-- A legacy form has at most three prefixes (R62, D18). -/
theorem length_le_of_legacyPrefixesOk {m : Mode} {pre : List Prefix}
    (h : legacyPrefixesOk m pre = true) : pre.length ≤ 3 := by
  simp only [legacyPrefixesOk, noRepeat, Bool.and_eq_true, Bool.not_eq_true', decide_eq_true_eq,
    List.contains_eq_mem, decide_eq_false_iff_not, ← List.count_eq_zero] at h
  obtain ⟨⟨⟨⟨⟨-, ⟨hseg, h67⟩, h3⟩, -⟩, h66⟩, h2⟩, hlock⟩ := h
  have := length_eq_sum_of_kinds pre
  omega

/-- A VEX or EVEX form has at most two prefixes before its own (R60, R66, R69). -/
theorem length_le_of_vexPrefixesOk {m : Mode} {pre : List Prefix}
    (h : vexPrefixesOk m pre = true) : pre.length ≤ 2 := by
  simp only [vexPrefixesOk, noRepeat, Bool.and_eq_true, Bool.not_eq_true', decide_eq_true_eq,
    List.contains_eq_mem, decide_eq_false_iff_not, ← List.count_eq_zero] at h
  obtain ⟨⟨⟨⟨⟨⟨⟨hseg, h67⟩, -⟩, -⟩, h3⟩, h66⟩, h2⟩, hlock⟩ := h
  have := length_eq_sum_of_kinds pre
  omega

theorem Disp.length_le (d : Disp) : d.length ≤ 4 := by cases d <;> simp [Disp.length]

/-- ModRM, SIB and displacement take at most six bytes. -/
theorem Mem.length_le (m : Mem) : m.length ≤ 6 := by
  cases m with
  | base _ d | sib _ _ _ d =>
    have := d.length_le
    simp only [Mem.length]; omega
  | sibNoBase | disp32 => simp [Mem.length]

theorem RM.length_le (src : RM) : src.length ≤ 6 := by
  cases src with
  | reg => simp [RM.length]
  | mem m => exact m.length_le

theorem EvexSrc.length_le (src : EvexSrc) : src.length ≤ 6 := by
  cases src with
  | reg => simp [EvexSrc.length]
  | mem m | bcst m => exact m.length_le

/-- A well-formed instruction has at most 13 bytes, below the 15 of R60. -/
theorem length_le_of_wf {c : Config} {m : Mode} {i : Instr} (h : i.wf c m = true) : i.length ≤ 13 := by
  cases i with
  | legacy pre _ src | legacyRex pre _ _ src =>
    simp only [Instr.wf, Bool.and_eq_true] at h
    have := length_le_of_legacyPrefixesOk h.1.2
    have := src.length_le
    simp only [Instr.length]; omega
  | vex128C5 pre _ _ src | vex256C5 pre _ _ src | vex128C4 pre _ _ src | vex256C4 pre _ _ src =>
    simp only [Instr.wf, vexWf, Bool.and_eq_true] at h
    have := length_le_of_vexPrefixesOk h.1.1.2
    have := src.length_le
    simp only [Instr.length]; omega
  | evex128 pre _ _ _ src | evex256 pre _ _ _ src | evex512 pre _ _ _ src =>
    simp only [Instr.wf, evexWf, Bool.and_eq_true] at h
    have := length_le_of_vexPrefixesOk h.1.1.1.2
    have := src.length_le
    simp only [Instr.length]; omega
  | evex512Sae pre =>
    simp only [Instr.wf, evexWf, Bool.and_eq_true] at h
    have := length_le_of_vexPrefixesOk h.1.1.1.2
    simp only [Instr.length]; omega

/-- A well-formed instruction is one of a mode the spec gives an encoding for. -/
theorem inScope_of_wf {c : Config} {m : Mode} {i : Instr} (h : i.wf c m = true) : m.inScope = true := by
  cases i with
  | legacyRex =>
    simp only [Instr.wf, Bool.and_eq_true, beq_iff_eq] at h
    rw [h.1.1]; rfl
  | legacy =>
    simp only [Instr.wf, Bool.and_eq_true] at h
    exact h.1.1
  | vex128C5 | vex128C4 | vex256C5 | vex256C4 =>
    simp only [Instr.wf, vexWf, Bool.and_eq_true] at h
    exact h.1.1.1
  | evex128 | evex256 | evex512 | evex512Sae =>
    simp only [Instr.wf, evexWf, Bool.and_eq_true] at h
    exact h.1.1.1.1

end Sys2Proof
end

section
/-!
PROOFS. The instruction at `RIP`: the code window and the step (R40, R60, R110).
-/

namespace Sys2Proof.Machine

/-! ### The bytes at `RIP` -/

/-- Outside real-address and virtual-8086 mode the code bytes stand at `RIP` (R29, R47). -/
theorem codeAddress_of_inScope {s : State} (h : s.mode.inScope = true) (n : Nat) :
    s.codeAddress n = s.rip.toNat + n := by
  simp [State.codeAddress, h]

/-- The bytes that can be fetched from offset `n` on stand at the head of what a long enough fetch
gives. -/
theorem fetchFrom_of_codeBytes {s : State} (hscope : s.mode.inScope = true) {bs : List Byte} :
    ∀ {fuel n : Nat}, bs.length ≤ fuel →
      (List.range' n bs.length).map (fun k => s.codeByte (s.rip.toNat + k)) = bs.map Except.ok →
      ∃ rest, (s.fetchFrom fuel n).1 = bs ++ rest := by
  induction bs with
  | nil => exact fun _ _ => ⟨_, rfl⟩
  | cons b bs ih =>
    intro fuel n hfuel hbytes
    obtain ⟨fuel, rfl⟩ : ∃ f, fuel = f + 1 := ⟨fuel - 1, by simp at hfuel; omega⟩
    simp only [List.length_cons, List.range'_succ, List.map_cons, List.cons.injEq] at hbytes
    obtain ⟨hb, hbs⟩ := hbytes
    obtain ⟨rest, hrest⟩ := ih (fuel := fuel) (by simpa using hfuel) hbs
    exact ⟨rest, by simp [State.fetchFrom, codeAddress_of_inScope hscope, hb, hrest]⟩

/-- The code window begins with the bytes of an instruction that stand at `RIP`: it has room for them. -/
theorem codeWindow_of_codeBytes {s : State} {i : Instr} (hwf : i.wf s.cfg s.mode = true)
    (hbytes : (List.range (encode i).length).map (fun k => s.codeByte (s.rip.toNat + k)) =
      (encode i).map Except.ok) :
    ∃ rest, s.codeWindow.1 = encode i ++ rest := by
  have hroom : (encode i).length ≤ maxLength := by
    rw [encode_length]
    exact (length_le_of_wf hwf).trans (by decide)
  rw [List.range_eq_range'] at hbytes
  exact fetchFrom_of_codeBytes (inScope_of_wf hwf) hroom hbytes

/-- A step from an admitted state runs the instruction that its code bytes decode to (R110). -/
theorem step_of_decode {s : State} {i : Instr} {rest : List Byte} (hlaunch : s.launchRefusal = none)
    (hdec : decode s.cfg s.mode s.codeWindow.1 = .instr i rest) : step s = exec i s := by
  simp [step, hlaunch, State.fetch, hdec]

/-- Settles O49: the code window begins with the instruction's bytes, and the decoder reads them back
whatever follows. -/
theorem stepRunsTheInstructionAtRip : Obligations.StepRunsTheInstructionAtRip := by
  intro s i hlaunch hwf hbytes
  obtain ⟨rest, hwindow⟩ := codeWindow_of_codeBytes hwf hbytes
  exact step_of_decode hlaunch (hwindow ▸ decode_encode rest hwf)

end Sys2Proof.Machine
end

section
/-!
PROOFS. What the decoder has read when it answers an instruction (R60 to R76): the opcode, the ModRM byte and
what belongs to it, and the row. So the bytes it took are `len` (R81), and the register numbers are those of
the bytes (R74).
-/

namespace Sys2Proof

/-! ### The head of the bytes: prefixes, REX, and the byte that tells the class -/

/-- Behind any prefixes a byte that is neither prefix nor REX goes to the decoder of its class. -/
theorem decode_of_opcode {m : Mode} (c : Config) (pre : List Prefix) {b : Byte} (bs : List Byte)
    (hscope : m.inScope = true) (hb : Prefix.ofByte b = none) (hrex : b.extractLsb' 4 4 ≠ 4#4) :
    decode c m (encodePre pre ++ b :: bs) = decodeOpcode c m pre none (b :: bs) := by
  rw [decode_encodePre c pre bs hscope hb, decodeAfterPrefixes_of_not_rex c m pre bs hrex]

/-- In 64-bit mode, behind any prefixes, a REX byte goes with what follows it (R63). -/
theorem decode_of_rex (c : Config) (pre : List Prefix) (x : Rex) (bs : List Byte) :
    decode c .long64 (encodePre pre ++ x.byte :: bs) = decodeOpcode c .long64 pre (some x) bs := by
  obtain ⟨htop, hnone, hw, hr, hx, hb⟩ := Rex.byte_bits x
  rw [decode_encodePre c pre bs rfl hnone]
  simp only [decodeAfterPrefixes, htop, hw, hr, hx, hb, and_self, if_true]

section
variable (c : Config) (m : Mode) (pre : List Prefix) (rex : Option Rex) (bs : List Byte)

theorem decodeOpcode_legacy : decodeOpcode c m pre rex (0x0F#8 :: bs) = decodeLegacy m pre rex bs := rfl

theorem decodeOpcode_vex2 :
    decodeOpcode c m pre rex (0xC5#8 :: bs) = decodeVex2 m pre rex.isSome bs := rfl

theorem decodeOpcode_vex3 :
    decodeOpcode c m pre rex (0xC4#8 :: bs) = decodeVex3 m pre rex.isSome bs := rfl

theorem decodeOpcode_evex :
    decodeOpcode c m pre rex (0x62#8 :: bs) = decodeEvex c m pre rex.isSome bs := rfl

end

/-! ### What each class of form has read -/

/-- An accepted legacy form: the opcode, the operand, and the row with or without REX. -/
theorem decodeLegacy_reads {m : Mode} {pre : List Prefix} {rex : Option Rex} {bs rest : List Byte}
    {i : Instr} (h : decodeLegacy m pre rex bs = .instr i rest) :
    ∃ reg src operand, bs = 0x5B#8 :: operand ∧ takeModRM operand = some (reg, src, rest) ∧
      i = rex.elim (.legacy pre reg src) (.legacyRex pre · reg src) := by
  unfold decodeLegacy at h
  split at h
  · cases h
  rename_i op operand
  split at h
  · cases h
  rename_i hid
  obtain rfl : op = 0x5B#8 := by simp_all
  split at h
  · cases h
  split at h
  · cases h
  split at h
  · cases h
  rename_i reg src after hmodrm
  split at h
  · cases h
  split at h
  · cases h
  refine ⟨reg, src, operand, rfl, ?_⟩
  cases rex <;> cases h <;> exact ⟨hmodrm, rfl⟩

/-- Without a verdict on the prefixes no REX byte stands before the VEX or EVEX prefix (R66, R69). -/
theorem rexBefore_of_vexPrefixVerdict {pre : List Prefix} {rexBefore : Bool}
    (h : vexPrefixVerdict pre rexBefore = none) : rexBefore = false := by
  cases rexBefore with
  | false => rfl
  | true =>
    simp only [vexPrefixVerdict, Bool.or_true, if_true] at h
    split at h <;> cases h

/-- An accepted VEX form from its last payload byte on: no REX before it, the opcode, the operand, and the
row that `L` selects (R66). -/
theorem decodeVexTail_reads {m : Mode} {pre : List Prefix} {rexBefore : Bool} {p : Byte}
    {row128 row256 : BitVec 3 → RM → Instr} {bs rest : List Byte} {i : Instr}
    (h : decodeVexTail m pre rexBefore p row128 row256 bs = .instr i rest) :
    rexBefore = false ∧ ∃ reg src operand, bs = 0x5B#8 :: operand ∧
      takeModRM operand = some (reg, src, rest) ∧
      i = if bit p 2 then row256 reg src else row128 reg src := by
  unfold decodeVexTail at h
  split at h
  · cases h
  rename_i op operand
  split at h
  · cases h
  rename_i hid
  obtain rfl : op = 0x5B#8 := by simp_all
  split at h
  · cases h
  split at h
  · cases h
  rename_i reg src after hmodrm
  split at h
  · rename_i v hverdict
    exact absurd (h ▸ hverdict) (vexPrefixVerdict_ne_instr _ _ _ _)
  rename_i hverdict
  split at h
  · cases h
  cases h
  exact ⟨rexBefore_of_vexPrefixVerdict hverdict, reg, src, operand, rfl, hmodrm, rfl⟩

/-- An accepted two-byte VEX form: its payload byte, then the tail. -/
theorem decodeVex2_reads {m : Mode} {pre : List Prefix} {rexBefore : Bool} {bs rest : List Byte}
    {i : Instr} (h : decodeVex2 m pre rexBefore bs = .instr i rest) :
    rexBefore = false ∧ ∃ p reg src operand, bs = p :: 0x5B#8 :: operand ∧
      takeModRM operand = some (reg, src, rest) ∧
      i = if bit p 2 then .vex256C5 pre (!bit p 7) reg src else .vex128C5 pre (!bit p 7) reg src := by
  unfold decodeVex2 at h
  split at h
  · cases h
  split at h
  · cases h
  obtain ⟨hrex, reg, src, operand, rfl, hmodrm, hi⟩ := decodeVexTail_reads h
  exact ⟨hrex, _, reg, src, operand, rfl, hmodrm, hi⟩

/-- An accepted three-byte VEX form: its payload bytes, then the tail. -/
theorem decodeVex3_reads {m : Mode} {pre : List Prefix} {rexBefore : Bool} {bs rest : List Byte}
    {i : Instr} (h : decodeVex3 m pre rexBefore bs = .instr i rest) :
    rexBefore = false ∧ ∃ p1 p2 reg src operand, bs = p1 :: p2 :: 0x5B#8 :: operand ∧
      takeModRM operand = some (reg, src, rest) ∧
      i = if bit p2 2 then .vex256C4 pre ⟨!bit p1 7, !bit p1 6, !bit p1 5, bit p2 7⟩ reg src
        else .vex128C4 pre ⟨!bit p1 7, !bit p1 6, !bit p1 5, bit p2 7⟩ reg src := by
  unfold decodeVex3 at h
  split at h
  · cases h
  split at h
  · cases h
  split at h
  · cases h
  split at h
  · cases h
  split at h
  · cases h
  split at h
  · cases h
  obtain ⟨hrex, reg, src, operand, rfl, hmodrm, hi⟩ := decodeVexTail_reads h
  exact ⟨hrex, _, _, reg, src, operand, rfl, hmodrm, hi⟩

/-- An EVEX instruction with these fields: one of the three lengths with a source that its ModRM byte writes
as `src`, or the `{sae}` form (R70 to R72). -/
def Instr.IsEvexRow (pre : List Prefix) (e : EvexExt) (mask : Mask) (reg : BitVec 3) (src : RM)
    (i : Instr) : Prop :=
  (∃ esrc : EvexSrc, esrc.toRM = src ∧
    (i = .evex128 pre e mask reg esrc ∨ i = .evex256 pre e mask reg esrc ∨
      i = .evex512 pre e mask reg esrc)) ∨
  ∃ ll rm, src = .reg rm ∧ i = .evex512Sae pre e mask ll reg rm

/-- The row chosen by `L'L` and `b` has the fields it was given, and no byte is dropped (R70 to R72). -/
theorem evexRow_reads {c : Config} {pre : List Prefix} {e : EvexExt} {mask : Mask} {ll : BitVec 2}
    {b : Bool} {reg : BitVec 3} {src : RM} {after rest : List Byte} {i : Instr}
    (h : evexRow c pre e mask ll b reg src after = .instr i rest) :
    after = rest ∧ i.IsEvexRow pre e mask reg src := by
  have hsized : ∀ esrc : EvexSrc, esrc.toRM = src →
      evexRow.sized pre e mask ll reg after esrc = .instr i rest →
      after = rest ∧ i.IsEvexRow pre e mask reg src := by
    intro esrc hesrc h
    unfold evexRow.sized at h
    repeat' split at h
    all_goals cases h
    all_goals exact ⟨rfl, .inl ⟨esrc, hesrc, by simp⟩⟩
  unfold evexRow at h
  split at h
  · split at h
    · cases h
      exact ⟨rfl, .inr ⟨ll, _, rfl, rfl⟩⟩
    · cases h
  · exact hsized _ rfl h
  · exact hsized _ rfl h
  · exact hsized _ rfl h

/-- An accepted EVEX form: its payload bytes, the opcode, the operand, and a row with these fields. -/
theorem decodeEvex_reads {c : Config} {m : Mode} {pre : List Prefix} {rexBefore : Bool}
    {bs rest : List Byte} {i : Instr} (h : decodeEvex c m pre rexBefore bs = .instr i rest) :
    rexBefore = false ∧ ∃ p0 p1 p2 mask reg src operand,
      bs = p0 :: p1 :: p2 :: 0x5B#8 :: operand ∧ takeModRM operand = some (reg, src, rest) ∧
      i.IsEvexRow pre ⟨!bit p0 7, !bit p0 6, !bit p0 5, !bit p0 4⟩ mask reg src := by
  unfold decodeEvex at h
  split at h
  · cases h
  split at h
  · cases h
  unfold decodeEvexPayload at h
  split at h
  · rename_i p0 p1 p2 op operand heq
    split at h
    · cases h
    split at h
    · cases h
    split at h
    · cases h
    rename_i hid
    obtain rfl : op = 0x5B#8 := by simp_all
    split at h
    · cases h
    split at h
    · cases h
    rename_i reg src after hmodrm
    split at h
    · rename_i v hverdict
      exact absurd (h ▸ hverdict) (vexPrefixVerdict_ne_instr _ _ _ _)
    rename_i hverdict
    split at h
    · cases h
    obtain ⟨rfl, hrow⟩ := evexRow_reads h
    exact ⟨rexBefore_of_vexPrefixVerdict hverdict, p0, p1, p2, _, reg, src, operand, heq, hmodrm, hrow⟩
  · cases h

/-! ### The length of what was read (R81) -/

/-- ModRM and what belongs to it take the operand's length. -/
theorem takeModRM_length {bs rest : List Byte} {reg : BitVec 3} {src : RM}
    (h : takeModRM bs = some (reg, src, rest)) : bs.length = src.length + rest.length := by
  rw [(takeModRM_eq h).2, List.length_append, encodeRM_length]

theorem EvexSrc.toRM_length (src : EvexSrc) : src.toRM.length = src.length := by cases src <;> rfl

/-- Every EVEX row takes its prefixes, five bytes and the operand. -/
theorem Instr.IsEvexRow.length_eq {pre : List Prefix} {e : EvexExt} {mask : Mask} {reg : BitVec 3}
    {src : RM} {i : Instr} (h : i.IsEvexRow pre e mask reg src) :
    i.length = pre.length + 5 + src.length := by
  rcases h with ⟨esrc, rfl, rfl | rfl | rfl⟩ | ⟨ll, rm, rfl, rfl⟩
  · rw [esrc.toRM_length]; rfl
  · rw [esrc.toRM_length]; rfl
  · rw [esrc.toRM_length]; rfl
  · rfl

/-- From the byte after the legacy prefixes and REX on: the instruction counts those too. -/
theorem decodeOpcode_length {c : Config} {m : Mode} {pre : List Prefix} {rex : Option Rex}
    {bs rest : List Byte} {i : Instr} (h : decodeOpcode c m pre rex bs = .instr i rest) :
    pre.length + rex.isSome.toNat + bs.length = i.length + rest.length := by
  unfold decodeOpcode at h
  split at h
  · cases h
  split at h
  · obtain ⟨reg, src, operand, rfl, hmodrm, rfl⟩ := decodeLegacy_reads h
    have := takeModRM_length hmodrm
    cases rex <;> simp [Instr.length] <;> omega
  split at h
  · obtain ⟨hrex, p, reg, src, operand, rfl, hmodrm, rfl⟩ := decodeVex2_reads h
    have := takeModRM_length hmodrm
    split <;> simp [Instr.length, hrex] <;> omega
  split at h
  · obtain ⟨hrex, p1, p2, reg, src, operand, rfl, hmodrm, rfl⟩ := decodeVex3_reads h
    have := takeModRM_length hmodrm
    split <;> simp [Instr.length, hrex] <;> omega
  split at h
  · obtain ⟨hrex, p0, p1, p2, mask, reg, src, operand, rfl, hmodrm, hrow⟩ := decodeEvex_reads h
    have := takeModRM_length hmodrm
    simp [hrow.length_eq, hrex]; omega
  split at h
  · cases h
  · cases h

/-- What the decoder reads is the instruction's length longer than what it leaves. -/
theorem decode_length {c : Config} {m : Mode} {bs rest : List Byte} {i : Instr}
    (h : decode c m bs = .instr i rest) : bs.length = i.length + rest.length := by
  unfold decode decodeAfterPrefixes at h
  split at h
  · have hsplit := congrArg List.length (scanPrefixes_split bs)
    simp only [List.length_append, encodePre, List.length_map] at hsplit
    split at h
    · cases h
    rename_i b after heq
    rw [heq, List.length_cons] at hsplit
    split at h
    · have := decodeOpcode_length h
      simp only [Option.isSome_some, Bool.toNat_true] at this
      omega
    · have := decodeOpcode_length h
      simp only [Option.isSome_none, Bool.toNat_false, List.length_cons] at this
      omega
  · exact absurd h (decodeOutOfScope_ne_instr _ _ _)

/-- Settles O3: every accepted form takes its own length, and an accepted instruction is well formed, so it
has at most 13 bytes. -/
theorem decodedLengthIsBytesConsumed : Obligations.DecodedLengthIsBytesConsumed :=
  fun _ _ _ _ _ h => ⟨decode_length h, length_le_of_wf (decode_wf h)⟩

end Sys2Proof

namespace Sys2Proof.Machine

/-! ### Register numbers (R74) -/

/-- A register number of a legacy or VEX form: the extension bit is the fourth bit. -/
theorem vreg4_toNat (hi : Bool) (n : BitVec 3) : (vreg4 hi n).toNat = 8 * hi.toNat + n.toNat := by
  revert hi n; decide

/-- A register number of an EVEX form: the extension bits are the fifth and the fourth. -/
theorem vreg5_toNat (top hi : Bool) (n : BitVec 3) :
    (vreg5 top hi n).toNat = 16 * top.toNat + 8 * hi.toNat + n.toNat := by
  revert top hi n; decide

/-- The ModRM byte gives `reg` and, by `mod`, a register source or a memory source. -/
theorem takeModRM_fields {x : Byte} {bs rest : List Byte} {reg : BitVec 3} {src : RM}
    (h : takeModRM (x :: bs) = some (reg, src, rest)) :
    reg = x.extractLsb' 3 3 ∧ (x.extractLsb' 6 2 = 3#2 → src = .reg (x.extractLsb' 0 3)) ∧
      (x.extractLsb' 6 2 ≠ 3#2 → ∃ mem, src = .mem mem) := by
  simp only [takeModRM] at h
  split at h
  · rename_i hmod
    cases h
    exact ⟨rfl, fun _ => rfl, fun hne => absurd hmod hne⟩
  · rename_i hmod
    split at h
    · cases h
      exact ⟨rfl, fun heq => absurd heq hmod, fun _ => ⟨_, rfl⟩⟩
    · cases h

/-- A register source read from a ModRM byte is its `r/m`. -/
theorem rm_of_takeModRM {x : Byte} {bs rest : List Byte} {reg rm : BitVec 3}
    (h : takeModRM (x :: bs) = some (reg, .reg rm, rest)) : rm = x.extractLsb' 0 3 := by
  obtain ⟨-, hreg, hmem⟩ := takeModRM_fields h
  by_cases hmod : x.extractLsb' 6 2 = 3#2
  · exact RM.reg.inj (hreg hmod)
  · obtain ⟨mem, hmem⟩ := hmem hmod
    cases hmem

/-- The number of a register source of a legacy or VEX form, from the ModRM byte. -/
theorem sourceRM_toNat_of_takeModRM {y : Byte} {bs rest : List Byte} {reg : BitVec 3} {src : RM}
    (h : takeModRM (y :: bs) = some (reg, src, rest)) {m : Mode} {x b : Bool} {k : BitVec 5}
    (hk : sourceRM m x b src = .reg k) : k.toNat = 8 * b.toNat + (y.extractLsb' 0 3).toNat := by
  cases src with
  | reg rm => cases hk; rw [vreg4_toNat, rm_of_takeModRM h]
  | mem => cases hk

/-- The numbers of a legacy or VEX form with these extension bits, from its ModRM byte. -/
theorem numbers_of_sourceRM {y : Byte} {bs rest : List Byte} {reg : BitVec 3} {src : RM} {i : Instr}
    {m : Mode} (r x b : Bool) (hmodrm : takeModRM (y :: bs) = some (reg, src, rest))
    (hdest : i.dest = vreg4 r reg) (hsource : i.source m = sourceRM m x b src) :
    i.dest.toNat = 8 * r.toNat + (y.extractLsb' 3 3).toNat ∧
      ∀ k, i.source m = .reg k → k.toNat = 8 * b.toNat + (y.extractLsb' 0 3).toNat := by
  refine ⟨by rw [hdest, vreg4_toNat, (takeModRM_fields hmodrm).1], fun k hk => ?_⟩
  exact sourceRM_toNat_of_takeModRM hmodrm (hsource ▸ hk)

/-- The destination and a register source of an EVEX row: `R' ++ R ++ reg` and `X ++ B ++ r/m`. -/
theorem numbers_of_isEvexRow {pre : List Prefix} {e : EvexExt} {mask : Mask} {reg : BitVec 3} {src : RM}
    {i : Instr} (h : i.IsEvexRow pre e mask reg src) : i.dest = vreg5 e.r' e.r reg ∧
      ∀ m k, i.source m = .reg k → ∃ rm, src = .reg rm ∧ k = vreg5 e.x e.b rm := by
  have hesrc : ∀ (esrc : EvexSrc) m vl k, sourceEvex m e.x e.b vl esrc = .reg k →
      ∃ rm, esrc.toRM = .reg rm ∧ k = vreg5 e.x e.b rm := by
    intro esrc m vl k hk
    cases esrc with
    | reg rm => cases hk; exact ⟨rm, rfl, rfl⟩
    | mem | bcst => cases hk
  rcases h with ⟨esrc, rfl, rfl | rfl | rfl⟩ | ⟨ll, rm, rfl, rfl⟩
  · exact ⟨rfl, fun m k => hesrc esrc m _ k⟩
  · exact ⟨rfl, fun m k => hesrc esrc m _ k⟩
  · exact ⟨rfl, fun m k => hesrc esrc m _ k⟩
  · exact ⟨rfl, fun m k hk => by cases hk; exact ⟨rm, rfl, rfl⟩⟩

/-- Settles O5: the fields of the ModRM byte, then the number of each form's registers, bit by bit. -/
theorem registerNumbers : Obligations.RegisterNumbers := by
  refine ⟨fun mod reg rm r src bs rest h => ?_, ?_⟩
  · obtain ⟨hreg, hsrc, hmem⟩ := takeModRM_fields (x := modRMByte mod reg rm) h
    rw [modRMByte_reg] at hreg
    rw [modRMByte_mod, modRMByte_rm] at hsrc
    rw [modRMByte_mod] at hmem
    exact ⟨hreg, hsrc, hmem⟩
  · intro m pre rex r v e mask ll reg rm src esrc number reads
    have four (hi : Bool) (n : BitVec 3) : (vreg4 hi n).toNat = number false hi n := by
      simp [vreg4_toNat, number]
    have five (top hi : Bool) (n : BitVec 3) : (vreg5 top hi n).toNat = number top hi n :=
      vreg5_toNat top hi n
    exact ⟨four _ _, four _ _, four _ _, four _ _, four _ _, four _ _, five _ _ _, five _ _ _, five _ _ _,
      five _ _ _, ⟨_, rfl, four _ _⟩, ⟨_, rfl, four _ _⟩, ⟨_, rfl, four _ _⟩, ⟨_, rfl, four _ _⟩,
      ⟨_, rfl, four _ _⟩, ⟨_, rfl, four _ _⟩, ⟨_, rfl, five _ _ _⟩, ⟨_, rfl, five _ _ _⟩,
      ⟨_, rfl, five _ _ _⟩, ⟨_, rfl, five _ _ _⟩⟩

/-- Settles O6: each layout is read by the decoder of its class, whose instruction has the payload's
extension bits and the ModRM byte's fields. -/
theorem registerNumbersFromTheBytes : Obligations.RegisterNumbersFromTheBytes := by
  intro c ps y bs rest i reg rm one decoded numbers
  refine ⟨fun h => ?_, fun x hx h => ?_, fun p h => ?_, fun p1 p2 h => ?_, fun p0 p1 p2 h => ?_⟩
  · simp only [decoded, List.cons_append, List.nil_append] at h
    rw [decode_of_opcode c ps _ rfl (by decide) (by decide), decodeOpcode_legacy] at h
    obtain ⟨r, src, operand, heq, hmodrm, rfl⟩ := decodeLegacy_reads h
    cases heq
    simpa only [Bool.toNat_false, Nat.mul_zero, Nat.zero_add] using
      numbers_of_sourceRM false false false hmodrm rfl rfl
  · simp only [decoded, List.cons_append, List.nil_append] at h
    rw [← Rex.byte_eq x hx, decode_of_rex, decodeOpcode_legacy] at h
    obtain ⟨r, src, operand, heq, hmodrm, rfl⟩ := decodeLegacy_reads h
    cases heq
    exact numbers_of_sourceRM (bit x 2) (bit x 1) (bit x 0) hmodrm rfl rfl
  · simp only [decoded, List.cons_append, List.nil_append] at h
    rw [decode_of_opcode c ps _ rfl (by decide) (by decide), decodeOpcode_vex2] at h
    obtain ⟨-, q, r, src, operand, heq, hmodrm, rfl⟩ := decodeVex2_reads h
    cases heq
    simpa only [Bool.toNat_false, Nat.mul_zero, Nat.zero_add] using
      numbers_of_sourceRM (!bit p 7) false false hmodrm (by split <;> rfl) (by split <;> rfl)
  · simp only [decoded, List.cons_append, List.nil_append] at h
    rw [decode_of_opcode c ps _ rfl (by decide) (by decide), decodeOpcode_vex3] at h
    obtain ⟨-, q1, q2, r, src, operand, heq, hmodrm, rfl⟩ := decodeVex3_reads h
    cases heq
    exact numbers_of_sourceRM (!bit p1 7) (!bit p1 6) (!bit p1 5) hmodrm (by split <;> rfl) (by split <;> rfl)
  · simp only [decoded, List.cons_append, List.nil_append] at h
    rw [decode_of_opcode c ps _ rfl (by decide) (by decide), decodeOpcode_evex] at h
    obtain ⟨-, q0, q1, q2, mask, r, src, operand, heq, hmodrm, hrow⟩ := decodeEvex_reads h
    cases heq
    obtain ⟨hdest, hsource⟩ := numbers_of_isEvexRow hrow
    refine ⟨by rw [hdest, vreg5_toNat, (takeModRM_fields hmodrm).1], fun k hk => ?_⟩
    obtain ⟨rm', rfl, rfl⟩ := hsource _ _ hk
    rw [vreg5_toNat, rm_of_takeModRM hmodrm]

end Sys2Proof.Machine
end

section
/-!
PROOFS. The encodings the decoder answers without an instruction (R82, R121): the payload's reserved values,
`LOCK`, and the prefixes before VEX and EVEX are `#UD`; the redundant prefixes of D18 are refused.
-/

namespace Sys2Proof

/-! ### Forms with their operand in place: what is left to judge -/

/-- From the last payload byte of a VEX form on: the prefixes are judged, then `vvvv`, then the row is
chosen (R66). -/
theorem decodeVexTail_operand {m : Mode} {pre : List Prefix} (rexBefore : Bool) {p : Byte}
    (row128 row256 : BitVec 3 → RM → Instr) (reg : BitVec 3) {src : RM} (rest : List Byte)
    (hpp : p.extractLsb' 0 2 = 2#2) (haddr : addressSizeOk m pre = true) (hsrc : src.wf = true) :
    decodeVexTail m pre rexBefore p row128 row256 (0x5B#8 :: (encodeRM reg src ++ rest)) =
      (vexPrefixVerdict pre rexBefore).getD (if p.extractLsb' 3 4 ≠ 15#4 then .invalid .vvvv
        else .instr (if bit p 2 then row256 reg src else row128 reg src) rest) := by
  simp only [decodeVexTail, hpp, haddr, takeModRM_encodeRM reg src rest hsrc]
  cases vexPrefixVerdict pre rexBefore <;> rfl

/-- After `C5`, where the byte is not `LDS` (R67). -/
theorem decodeVex2_operand {m : Mode} {pre : List Prefix} (rexBefore : Bool) {p : Byte} (reg : BitVec 3)
    {src : RM} (rest : List Byte) (hother : ¬ (m ≠ .long64 ∧ p.extractLsb' 6 2 ≠ 3#2))
    (hpp : p.extractLsb' 0 2 = 2#2) (haddr : addressSizeOk m pre = true) (hsrc : src.wf = true) :
    decodeVex2 m pre rexBefore (p :: 0x5B#8 :: (encodeRM reg src ++ rest)) =
      (vexPrefixVerdict pre rexBefore).getD (if p.extractLsb' 3 4 ≠ 15#4 then .invalid .vvvv
        else .instr (if bit p 2 then .vex256C5 pre (!bit p 7) reg src
          else .vex128C5 pre (!bit p 7) reg src) rest) := by
  rw [decodeVex2, if_neg hother, decodeVexTail_operand rexBefore _ _ reg rest hpp haddr hsrc]

/-- After `C4` with map 1, where the byte is not `LES` and `B̄` is not refused (R65, R67). -/
theorem decodeVex3_operand {m : Mode} {pre : List Prefix} (rexBefore : Bool) {p1 p2 : Byte}
    (reg : BitVec 3) {src : RM} (rest : List Byte)
    (hother : ¬ (m ≠ .long64 ∧ p1.extractLsb' 6 2 ≠ 3#2)) (hext : ¬ (m ≠ .long64 ∧ !bit p1 5))
    (hmap : p1.extractLsb' 0 5 = 1#5) (hpp : p2.extractLsb' 0 2 = 2#2)
    (haddr : addressSizeOk m pre = true) (hsrc : src.wf = true) :
    decodeVex3 m pre rexBefore (p1 :: p2 :: 0x5B#8 :: (encodeRM reg src ++ rest)) =
      (vexPrefixVerdict pre rexBefore).getD (if p2.extractLsb' 3 4 ≠ 15#4 then .invalid .vvvv
        else .instr (if bit p2 2 then .vex256C4 pre ⟨!bit p1 7, !bit p1 6, !bit p1 5, bit p2 7⟩ reg src
          else .vex128C4 pre ⟨!bit p1 7, !bit p1 6, !bit p1 5, bit p2 7⟩ reg src) rest) := by
  rw [decodeVex3, if_neg hother]
  simp only [if_neg hext, hmap]
  exact decodeVexTail_operand rexBefore _ _ reg rest hpp haddr hsrc

/-- After `62` with the map, `pp` and `W` of this instruction, where the byte is not `BOUND` and the
extension bits are not refused (R67, R68): the prefixes are judged, then the payload, then the row. -/
theorem decodeEvex_operand {m : Mode} {pre : List Prefix} (c : Config) (rexBefore : Bool)
    {p0 p1 p2 : Byte} (reg : BitVec 3) {src : RM} (rest : List Byte)
    (hother : ¬ (m ≠ .long64 ∧ p0.extractLsb' 6 2 ≠ 3#2))
    (hext : ¬ (m ≠ .long64 ∧ !(bit p0 5 && bit p0 4 && bit p2 3)))
    (hmap : p0.extractLsb' 0 2 = 1#2) (hpp : p1.extractLsb' 0 2 = 2#2) (hw : bit p1 7 = false)
    (haddr : addressSizeOk m pre = true) (hsrc : src.wf = true) :
    decodeEvex c m pre rexBefore (p0 :: p1 :: p2 :: 0x5B#8 :: (encodeRM reg src ++ rest)) =
      (vexPrefixVerdict pre rexBefore).getD ((evexPayloadUd p0 p1 p2).elim
        (evexRow c pre ⟨!bit p0 7, !bit p0 6, !bit p0 5, !bit p0 4⟩
          (Mask.ofBits (bit p2 7) (p2.extractLsb' 0 3)) (p2.extractLsb' 5 2) (bit p2 4) reg src rest)
        .invalid) := by
  rw [decodeEvex, if_neg hother, decodeEvexPayload, if_neg hext]
  simp only [hmap, hpp, hw, haddr, takeModRM_encodeRM reg src rest hsrc]
  cases vexPrefixVerdict pre rexBefore with
  | some v => rfl
  | none => cases evexPayloadUd p0 p1 p2 <;> rfl

/-! ### The payload's reserved values (R66, R69, R70, R73) -/

/-- In 64-bit mode without prefixes, after `62`: the payload is judged, then the row is chosen. -/
theorem decode_evex_long64 (c : Config) {p0 p1 p2 : Byte} (reg : BitVec 3) {src : RM} (rest : List Byte)
    (hmap : p0.extractLsb' 0 2 = 1#2) (hpp : p1.extractLsb' 0 2 = 2#2) (hw : bit p1 7 = false)
    (hsrc : src.wf = true) :
    decode c .long64 (0x62#8 :: p0 :: p1 :: p2 :: 0x5B#8 :: (encodeRM reg src ++ rest)) =
      (evexPayloadUd p0 p1 p2).elim
        (evexRow c [] ⟨!bit p0 7, !bit p0 6, !bit p0 5, !bit p0 4⟩
          (Mask.ofBits (bit p2 7) (p2.extractLsb' 0 3)) (p2.extractLsb' 5 2) (bit p2 4) reg src rest)
        .invalid :=
  decodeEvex_operand c false reg rest (fun h => h.1 rfl) (fun h => h.1 rfl) hmap hpp hw rfl hsrc

/-- `P0[3:0] = 0001b`: map 1, and `P0[3:2]` is not reserved. -/
theorem evexP0_of_low_bits (p : Byte) (h : p.extractLsb' 0 4 = 1#4) :
    p.extractLsb' 0 2 = 1#2 ∧ p.extractLsb' 2 2 = 0#2 := by
  revert p; decide +kernel

/-- `P1[2:0] = 110b`: `pp` of this instruction, and `P1[2]` is not reserved. -/
theorem evexP1_of_low_bits (p : Byte) (h : p.extractLsb' 0 3 = 6#3) :
    p.extractLsb' 0 2 = 2#2 ∧ bit p 2 = true := by
  revert p; decide +kernel

/-- Settles O8: nothing before the payload's own fields is judged invalid or refused, and `vvvv` is. -/
theorem wrongVvvvIsInvalid : Obligations.WrongVvvvIsInvalid := by
  intro c reg src rest hsrc
  refine ⟨fun p hpp hv => ?_, fun p1 p2 hmap hpp hv => ?_, fun p0 p1 p2 hp0 hp1 hw hv => ?_⟩
  · exact (decodeVex2_operand false reg rest (fun h => h.1 rfl) hpp rfl hsrc).trans (if_pos hv)
  · exact (decodeVex3_operand false reg rest (fun h => h.1 rfl) (fun h => h.1 rfl) hmap hpp rfl hsrc).trans
      (if_pos hv)
  · obtain ⟨hmap, hzero⟩ := evexP0_of_low_bits p0 hp0
    obtain ⟨hpp, hone⟩ := evexP1_of_low_bits p1 hp1
    have hud : evexPayloadUd p0 p1 p2 = some .vvvv := by simp [evexPayloadUd, hzero, hone, hv]
    rw [decode_evex_long64 c reg rest hmap hpp hw hsrc, hud]
    rfl

/-- A payload without an invalid-opcode condition has none of the reserved values of rows 10 and 11. -/
theorem fields_of_evexPayloadUd {p0 p1 p2 : Byte} (h : evexPayloadUd p0 p1 p2 = none) :
    p0.extractLsb' 2 2 = 0#2 ∧ bit p1 2 = true ∧ bit p2 3 = true ∧
      ¬ (bit p2 7 = true ∧ p2.extractLsb' 0 3 = 0#3) := by
  unfold evexPayloadUd at h
  split at h
  · cases h
  rename_i hreserved
  split at h
  · cases h
  split at h
  · cases h
  rename_i hv'
  split at h
  · cases h
  rename_i hz
  simp only [not_or, not_not, Bool.not_eq_true', Bool.not_eq_false] at hreserved hv'
  exact ⟨hreserved.1, hreserved.2, hv', hz⟩

/-- Without `{sae}`, `L'L = 11b` names no vector length (R70). -/
theorem evexRow_of_vectorLength {c : Config} {pre : List Prefix} {e : EvexExt} {mask : Mask}
    {ll : BitVec 2} {b : Bool} {reg : BitVec 3} {src : RM} {rest : List Byte} (hll : ll = 3#2)
    (hb : b = false ∨ ∃ m, src = .mem m) :
    evexRow c pre e mask ll b reg src rest = .invalid .vectorLength := by
  subst hll
  rcases hb with rfl | ⟨m, rfl⟩
  · cases src <;> rfl
  · cases b <;> rfl

/-- Settles O9: the payload's own conditions come first, and a payload without them can only have the
reserved vector length. -/
theorem evexReservedFieldsAreInvalid : Obligations.EvexReservedFieldsAreInvalid := by
  intro c reg src rest p0 p1 p2 hsrc hmap hpp hw hreserved
  rw [decode_evex_long64 c reg rest hmap hpp hw hsrc]
  cases hud : evexPayloadUd p0 p1 p2 with
  | some r => exact ⟨r, rfl⟩
  | none =>
    obtain ⟨hzero, hone, hv', hz⟩ := fields_of_evexPayloadUd hud
    obtain ⟨hll, hb⟩ : p2.extractLsb' 5 2 = 3#2 ∧ (bit p2 4 = false ∨ ∃ m, src = .mem m) := by
      simpa [hzero, hone, hv', hz] using hreserved
    exact ⟨.vectorLength, evexRow_of_vectorLength hll hb⟩

/-! ### `b` with a register source (R72) -/

/-- Settles O13: the bytes of an EVEX prefix read back as their fields, and with a register source the row
is `{sae}` or the length that `L'L` selects. -/
theorem registerSourceEvexB : Obligations.RegisterSourceEvexB := by
  intro c m pre e mask ll reg rm rest hwf bytes
  have hbytes (b : Bool) : decode c m (bytes b) = evexRow c pre e mask ll b reg (.reg rm) rest := by
    rw [← decode_encodeEvex rest hwf rfl, List.append_assoc, List.append_assoc]
    rfl
  exact ⟨hbytes true, hbytes false⟩

/-! ### The bytes of a form after its prefixes -/

/-- The bytes of a VEX or EVEX form after its prefixes, and what the mode asks of their extension bits. -/
theorem vexTail_cases {c : Config} {m : Mode} {i : Instr} {tail : List Byte} (hwf : i.wf c m = true)
    (hcls : i.cls ≠ .legacy) (htail : encode i = encodePre i.pre ++ tail) :
    (∃ r l reg src, tail = encodeVex2 r l ++ encodeRM reg src ∧ src.wf = true ∧
      (m = .long64 ∨ r = false)) ∨
    (∃ v l reg src, tail = encodeVex3 v l ++ encodeRM reg src ∧ src.wf = true ∧ v.wf m = true) ∨
    ∃ e mask ll b reg src, tail = encodeEvex e mask ll b ++ encodeRM reg src ∧ src.wf = true ∧
      e.wf m = true := by
  cases i with
  | legacy | legacyRex => exact absurd rfl hcls
  | vex128C5 pre r reg src | vex256C5 pre r reg src =>
    simp only [Instr.wf, vexWf, Bool.and_eq_true, Bool.or_eq_true, beq_iff_eq, Bool.not_eq_true'] at hwf
    obtain ⟨⟨-, hsrc⟩, hr⟩ := hwf
    exact .inl ⟨r, _, reg, src, (List.append_cancel_left htail).symm, hsrc, hr⟩
  | vex128C4 pre v reg src | vex256C4 pre v reg src =>
    simp only [Instr.wf, vexWf, Bool.and_eq_true] at hwf
    obtain ⟨⟨-, hsrc⟩, hv⟩ := hwf
    exact .inr (.inl ⟨v, _, reg, src, (List.append_cancel_left htail).symm, hsrc, hv⟩)
  | evex128 pre e mask reg src | evex256 pre e mask reg src | evex512 pre e mask reg src =>
    simp only [Instr.wf, evexWf, Bool.and_eq_true] at hwf
    obtain ⟨⟨⟨-, he⟩, -⟩, hsrc⟩ := hwf
    have hbytes := (List.append_cancel_left htail).symm
    rw [← encodeRM_toRM] at hbytes
    exact .inr (.inr ⟨e, mask, _, _, reg, src.toRM, hbytes, src.toRM_wf.trans hsrc, he⟩)
  | evex512Sae pre e mask ll reg rm =>
    simp only [Instr.wf, evexWf, Bool.and_eq_true] at hwf
    obtain ⟨⟨⟨-, he⟩, -⟩, -⟩ := hwf
    exact .inr (.inr ⟨e, mask, ll, true, reg, .reg rm, (List.append_cancel_left htail).symm, rfl, he⟩)

/-- The bytes of a VEX or EVEX form after its prefixes begin with a byte that is neither prefix nor REX. -/
theorem decode_vexTail {c : Config} {m : Mode} {i : Instr} {tail : List Byte} (hwf : i.wf c m = true)
    (hcls : i.cls ≠ .legacy) (htail : encode i = encodePre i.pre ++ tail) (pre : List Prefix)
    (rest : List Byte) :
    decode c m (encodePre pre ++ (tail ++ rest)) = decodeOpcode c m pre none (tail ++ rest) := by
  have hscope := inScope_of_wf hwf
  rcases vexTail_cases hwf hcls htail with ⟨r, l, reg, src, rfl, -⟩ | ⟨v, l, reg, src, rfl, -⟩ |
    ⟨e, mask, ll, b, reg, src, rfl, -⟩
  · exact decode_of_opcode c pre _ hscope (by decide) (by decide)
  · exact decode_of_opcode c pre _ hscope (by decide) (by decide)
  · exact decode_of_opcode c pre _ hscope (by decide) (by decide)

/-- Outside 64-bit mode the payload byte after `C5` begins `11b`: it is not `LDS` (R67). -/
theorem vex2_not_other {m : Mode} {r : Bool} (l : Bool) (hr : m = .long64 ∨ r = false) :
    ¬ (m ≠ .long64 ∧ (fld (!r) ++ 15#4 ++ fld l ++ 2#2).extractLsb' 6 2 ≠ 3#2) := by
  rintro ⟨hm, hne⟩
  obtain rfl := hr.resolve_left hm
  exact hne (by revert l; decide)

/-- Outside 64-bit mode the payload byte after `C4` begins `11b` and has `B̄ = 1`: it is not `LES` and not
refused (R67). -/
theorem vex3_not_other {m : Mode} {v : Vex3} (hv : v.wf m = true) :
    ¬ (m ≠ .long64 ∧ (fld (!v.r) ++ fld (!v.x) ++ fld (!v.b) ++ 1#5).extractLsb' 6 2 ≠ 3#2) ∧
      ¬ (m ≠ .long64 ∧ !bit (fld (!v.r) ++ fld (!v.x) ++ fld (!v.b) ++ 1#5) 5) := by
  by_cases hm : m = .long64
  · exact ⟨fun h => h.1 hm, fun h => h.1 hm⟩
  · obtain ⟨⟨hr, hx⟩, hb⟩ : (v.r = false ∧ v.x = false) ∧ v.b = false := by simpa [Vex3.wf, hm] using hv
    rw [hr, hx, hb]
    exact ⟨fun h => h.2 (by decide), fun h => absurd h.2 (by decide)⟩

/-- Outside 64-bit mode the payload after `62` begins `11b` and has every extension bit 0 in true value: it
is not `BOUND` and not refused (R67, D19). -/
theorem evex_not_other {m : Mode} {e : EvexExt} {p2 : Byte} (he : e.wf m = true)
    (hv' : bit p2 3 = true) :
    ¬ (m ≠ .long64 ∧
      (fld (!e.r) ++ fld (!e.x) ++ fld (!e.b) ++ fld (!e.r') ++ 1#4).extractLsb' 6 2 ≠ 3#2) ∧
    ¬ (m ≠ .long64 ∧ !(bit (fld (!e.r) ++ fld (!e.x) ++ fld (!e.b) ++ fld (!e.r') ++ 1#4) 5 &&
      bit (fld (!e.r) ++ fld (!e.x) ++ fld (!e.b) ++ fld (!e.r') ++ 1#4) 4 && bit p2 3)) := by
  by_cases hm : m = .long64
  · exact ⟨fun h => h.1 hm, fun h => h.1 hm⟩
  · obtain ⟨⟨⟨hr, hx⟩, hb⟩, hr'⟩ : ((e.r = false ∧ e.x = false) ∧ e.b = false) ∧ e.r' = false := by
      simpa [EvexExt.wf, hm] using he
    rw [hr, hx, hb, hr', hv']
    exact ⟨fun h => h.2 (by decide), fun h => absurd h.2 (by decide)⟩

/-- Before the bytes of a VEX or EVEX form, a verdict on the prefixes and REX is the decoder's. -/
theorem decodeOpcode_vexTail {c : Config} {m : Mode} {i : Instr} {tail : List Byte}
    (hwf : i.wf c m = true) (hcls : i.cls ≠ .legacy) (htail : encode i = encodePre i.pre ++ tail)
    {pre : List Prefix} {rex : Option Rex} {v : Decoded} (haddr : addressSizeOk m pre = true)
    (hverdict : vexPrefixVerdict pre rex.isSome = some v) (rest : List Byte) :
    decodeOpcode c m pre rex (tail ++ rest) = v := by
  rcases vexTail_cases hwf hcls htail with ⟨r, l, reg, src, rfl, hsrc, hr⟩ |
    ⟨v, l, reg, src, rfl, hsrc, hv⟩ | ⟨e, mask, ll, b, reg, src, rfl, hsrc, he⟩
  · obtain ⟨hpp, -⟩ := vex2_bits r l _ rfl
    rw [List.append_assoc]
    refine (decodeVex2_operand rex.isSome reg rest (vex2_not_other l hr) hpp haddr hsrc).trans ?_
    rw [hverdict, Option.getD_some]
  · obtain ⟨hmap, -⟩ := vex3_bits v _ rfl
    obtain ⟨hpp, -⟩ := vex3W_bits v.w l _ rfl
    obtain ⟨hother, hext⟩ := vex3_not_other hv
    rw [List.append_assoc]
    refine (decodeVex3_operand rex.isSome reg rest hother hext hmap hpp haddr hsrc).trans ?_
    rw [hverdict, Option.getD_some]
  · obtain ⟨hmap, -⟩ := evexP0_bits e _ rfl
    obtain ⟨hv', -⟩ := evexP2_bits mask.z b ll mask.aaa _ rfl
    obtain ⟨hother, hext⟩ := evex_not_other he hv'
    rw [List.append_assoc]
    refine (decodeEvex_operand c rex.isSome reg rest hother hext hmap (by decide) (by decide) haddr
      hsrc).trans ?_
    rw [hverdict, Option.getD_some]

/-- The bytes of a legacy form after its prefixes go, behind any prefixes, to the decoder of the legacy
form, with a well-formed operand. -/
theorem decode_legacyTail {c : Config} {m : Mode} {i : Instr} {tail : List Byte} (hwf : i.wf c m = true)
    (hcls : i.cls = .legacy) (htail : encode i = encodePre i.pre ++ tail) :
    ∃ rex reg src, src.wf = true ∧ legacyPrefixesOk m i.pre = true ∧ ∀ pre rest,
      decode c m (encodePre pre ++ (tail ++ rest)) =
        decodeLegacy m pre rex (0x5B#8 :: (encodeRM reg src ++ rest)) := by
  cases i with
  | legacy pre reg src =>
    simp only [Instr.wf, Bool.and_eq_true] at hwf
    obtain ⟨⟨hscope, hpre⟩, hsrc⟩ := hwf
    obtain rfl := List.append_cancel_left htail
    exact ⟨none, reg, src, hsrc, hpre, fun pre rest =>
      decode_of_opcode c pre _ hscope (by decide) (by decide)⟩
  | legacyRex pre rex reg src =>
    simp only [Instr.wf, Bool.and_eq_true, beq_iff_eq] at hwf
    obtain ⟨⟨rfl, hpre⟩, hsrc⟩ := hwf
    obtain rfl := List.append_cancel_left htail
    exact ⟨some rex, reg, src, hsrc, hpre, fun pre rest => decode_of_rex c pre rex _⟩
  | vex128C5 | vex128C4 | vex256C5 | vex256C4 | evex128 | evex256 | evex512 | evex512Sae => cases hcls

/-! ### Prefixes -/

/-- `67` is refused outside 64-bit mode only (R80, D1). -/
theorem addressSizeOk_iff {m : Mode} {pre : List Prefix} :
    addressSizeOk m pre = true ↔ m = .long64 ∨ .addressSize ∉ pre := by
  simp [addressSizeOk]

/-- What the prefixes of a well-formed legacy form are. -/
theorem mem_of_legacyPrefixesOk {m : Mode} {pre : List Prefix} (h : legacyPrefixesOk m pre = true) :
    .rep ∈ pre ∧ addressSizeOk m pre = true ∧ .operandSize ∉ pre ∧ .repne ∉ pre ∧ .lock ∉ pre := by
  simp only [legacyPrefixesOk, Bool.and_eq_true, Bool.not_eq_true', List.contains_eq_mem,
    decide_eq_true_eq, decide_eq_false_iff_not] at h
  obtain ⟨⟨⟨⟨⟨h3, -⟩, haddr⟩, h66⟩, h2⟩, hlock⟩ := h
  exact ⟨h3, haddr, h66, h2, hlock⟩

/-- `67` among the prefixes of a well-formed instruction is admitted in its mode. -/
theorem addressSizeOk_of_wf {c : Config} {m : Mode} {i : Instr} (h : i.wf c m = true) :
    addressSizeOk m i.pre = true := by
  cases i with
  | legacy | legacyRex =>
    simp only [Instr.wf, Bool.and_eq_true] at h
    exact (mem_of_legacyPrefixesOk h.1.2).2.1
  | vex128C5 | vex128C4 | vex256C5 | vex256C4 =>
    simp only [Instr.wf, vexWf, Bool.and_eq_true] at h
    exact (vexPrefixVerdict_of_ok h.1.1.2).2
  | evex128 | evex256 | evex512 | evex512Sae =>
    simp only [Instr.wf, evexWf, Bool.and_eq_true] at h
    exact (vexPrefixVerdict_of_ok h.1.1.1.2).2

/-- `LOCK` before a VEX or EVEX prefix (row 3). -/
theorem vexPrefixVerdict_of_lock {pre : List Prefix} (rexBefore : Bool) (h : .lock ∈ pre) :
    vexPrefixVerdict pre rexBefore = some (.invalid .lock) := by
  simp [vexPrefixVerdict, h]

/-- `66`, `F2`, `F3` or REX before a VEX or EVEX prefix (row 9). -/
theorem vexPrefixVerdict_of_row9 {pre : List Prefix} {rexBefore : Bool} (hlock : .lock ∉ pre)
    (h : (.operandSize ∈ pre ∨ .repne ∈ pre ∨ .rep ∈ pre) ∨ rexBefore = true) :
    vexPrefixVerdict pre rexBefore = some (.invalid .prefixBeforeVex) := by
  have h' : ((.operandSize ∈ pre ∨ .repne ∈ pre) ∨ .rep ∈ pre) ∨ rexBefore = true := by tauto
  simp [vexPrefixVerdict, hlock, h']

/-- A legacy form with neither `66` nor `F2`, with its operand in place: `LOCK`, then the repeats. -/
theorem decodeLegacy_operand {m : Mode} {pre : List Prefix} (rex : Option Rex) (reg : BitVec 3) {src : RM}
    (rest : List Byte) (h3 : .rep ∈ pre) (h66 : .operandSize ∉ pre) (h2 : .repne ∉ pre)
    (haddr : addressSizeOk m pre = true) (hsrc : src.wf = true) :
    decodeLegacy m pre rex (0x5B#8 :: (encodeRM reg src ++ rest)) =
      if .lock ∈ pre then .invalid .lock
      else if noRepeat pre = false then .refused .repeatedPrefix
      else .instr (rex.elim (.legacy pre reg src) (.legacyRex pre · reg src)) rest := by
  simp only [decodeLegacy, takeModRM_encodeRM reg src rest hsrc]
  cases rex <;> simp [h3, h66, h2, haddr]

/-- `66` or `F2` beside the mandatory `F3` is refused before the operand is read (D18). -/
theorem decodeLegacy_of_conflict (m : Mode) {pre : List Prefix} (rex : Option Rex) (bs : List Byte)
    (h3 : .rep ∈ pre) (h : .operandSize ∈ pre ∨ .repne ∈ pre) :
    decodeLegacy m pre rex (0x5B#8 :: bs) = .refused .conflictingPrefix := by
  simp [decodeLegacy, h3, h]

/-- Settles O10: `LOCK` is judged when the operand has been read, and of the other prefixes nothing is
refused before it. -/
theorem lockPrefixIsInvalid : Obligations.LockPrefixIsInvalid := by
  intro c m i ps qs tail rest hwf hpre htail
  have hbytes : encodePre ps ++ 0xF0#8 :: (encodePre qs ++ (tail ++ rest)) =
      encodePre (ps ++ .lock :: qs) ++ (tail ++ rest) := by
    simp [encodePre, Prefix.byte]
  have hlock : .lock ∈ ps ++ .lock :: qs := by simp
  have hmem : ∀ p, p ≠ .lock → (p ∈ ps ++ .lock :: qs ↔ p ∈ i.pre) := by
    intro p hp
    simp [hpre, hp]
  rw [hbytes]
  by_cases hcls : i.cls = .legacy
  · obtain ⟨rex, reg, src, hsrc, hok, hdec⟩ := decode_legacyTail hwf hcls htail
    obtain ⟨h3, haddr, h66, h2, -⟩ := mem_of_legacyPrefixesOk hok
    rw [addressSizeOk_iff, ← hmem _ (by decide), ← addressSizeOk_iff] at haddr
    rw [hdec, decodeLegacy_operand rex reg rest ((hmem _ (by decide)).mpr h3)
      (mt (hmem _ (by decide)).mp h66) (mt (hmem _ (by decide)).mp h2) haddr hsrc, if_pos hlock]
  · have haddr := addressSizeOk_of_wf hwf
    rw [addressSizeOk_iff, ← hmem _ (by decide), ← addressSizeOk_iff] at haddr
    rw [decode_vexTail hwf hcls htail]
    exact decodeOpcode_vexTail hwf hcls htail haddr (vexPrefixVerdict_of_lock _ hlock) rest

/-- Settles O11: row 9 is judged when the operand has been read, and nothing before it is refused. -/
theorem prefixBeforeVexIsInvalid : Obligations.PrefixBeforeVexIsInvalid := by
  intro c m i ps tail rest hwf hcls htail hlock h67
  have haddr : addressSizeOk m ps = true := by
    refine addressSizeOk_iff.mpr (or_iff_not_imp_left.mpr fun hm => h67 ?_)
    simpa [Mode.inScope, hm] using inScope_of_wf hwf
  refine ⟨fun hmem => ?_, fun hm x => ?_⟩
  · rw [decode_vexTail hwf hcls htail]
    exact decodeOpcode_vexTail hwf hcls htail haddr (vexPrefixVerdict_of_row9 hlock (.inl hmem)) rest
  · subst hm
    rw [decode_of_rex]
    exact decodeOpcode_vexTail hwf hcls htail haddr (vexPrefixVerdict_of_row9 hlock (.inr rfl)) rest

/-- A prefix of a legacy form that is written again is repeated (D18). -/
theorem noRepeat_cons_of_mem {m : Mode} {p : Prefix} {pre : List Prefix}
    (hok : legacyPrefixesOk m pre = true) (hmem : p ∈ pre) : noRepeat (p :: pre) = false := by
  obtain ⟨-, -, h66, h2, hlock⟩ := mem_of_legacyPrefixesOk hok
  cases p with
  | segment g =>
    have hpos : 0 < pre.countP Prefix.isSegment := List.countP_pos_iff.mpr ⟨_, hmem, rfl⟩
    have htwo : ¬ (Prefix.segment g :: pre).countP Prefix.isSegment ≤ 1 := by
      rw [List.countP_cons_of_pos rfl]; omega
    simp only [noRepeat, htwo, decide_false, Bool.false_and]
  | addressSize =>
    have hpos := List.count_pos_iff.mpr hmem
    have htwo : ¬ (Prefix.addressSize :: pre).count .addressSize ≤ 1 := by
      rw [List.count_cons_self]; omega
    simp only [noRepeat, htwo, decide_false, Bool.false_and, Bool.and_false]
  | rep =>
    have hpos := List.count_pos_iff.mpr hmem
    have htwo : ¬ (Prefix.rep :: pre).count .rep ≤ 1 := by
      rw [List.count_cons_self]; omega
    simp only [noRepeat, htwo, decide_false, Bool.and_false]
  | operandSize => exact absurd hmem h66
  | repne => exact absurd hmem h2
  | lock => exact absurd hmem hlock

/-- Settles O12: `66` and `F2` are refused as soon as the instruction is known, a repeat when the operand
has been read. -/
theorem redundantLegacyPrefixIsRefused : Obligations.RedundantLegacyPrefixIsRefused := by
  intro c m i rest hwf hcls
  obtain ⟨tail, htail⟩ : ∃ tail, encode i = encodePre i.pre ++ tail := by
    cases i <;> exact ⟨_, rfl⟩
  obtain ⟨rex, reg, src, hsrc, hok, hdec⟩ := decode_legacyTail hwf hcls htail
  obtain ⟨h3, haddr, h66, h2, hlock⟩ := mem_of_legacyPrefixesOk hok
  have hcons (p : Prefix) : decode c m (p.byte :: (encode i ++ rest)) =
      decodeLegacy m (p :: i.pre) rex (0x5B#8 :: (encodeRM reg src ++ rest)) := by
    rw [← hdec, htail, List.append_assoc]
    rfl
  refine ⟨fun b hb => ?_, fun p hp => ?_⟩
  · rcases List.mem_pair.mp hb with rfl | rfl
    · exact (hcons .operandSize).trans (decodeLegacy_of_conflict m rex _ (by simp [h3]) (by simp))
    · exact (hcons .repne).trans (decodeLegacy_of_conflict m rex _ (by simp [h3]) (by simp))
  · have hne {q : Prefix} (hq : q ∉ i.pre) : q ∉ p :: i.pre := by
      rintro (_ | ⟨_, h⟩)
      · exact hq hp
      · exact hq h
    have haddr' : addressSizeOk m (p :: i.pre) = true :=
      addressSizeOk_iff.mpr ((addressSizeOk_iff.mp haddr).imp_right hne)
    rw [hcons, decodeLegacy_operand rex reg rest (by simp [h3]) (hne h66) (hne h2) haddr' hsrc,
      if_neg (hne hlock), if_pos (noRepeat_cons_of_mem hok hp)]

end Sys2Proof
end

section
/-!
PROOFS. The memory operand: the bytes that name it (R74 to R77), its base, index, scale and displacement
(R46, R75 to R79).
-/

namespace Sys2Proof

/-- The bytes of a `disp32`, lowest first, are those of the number they write (R77). -/
theorem encodeDisp32_of_bytes (d0 d1 d2 d3 : Byte) :
    encodeDisp32 (d3 ++ d2 ++ d1 ++ d0) = [d0, d1, d2, d3] := by
  have h := takeDisp32_eq (bs := [d0, d1, d2, d3]) (rest := []) rfl
  rw [List.append_nil] at h
  exact h.symm

/-- Settles O15: the bytes of each row are the encoding of its operand, which reads back. -/
theorem modRmAndSibBytes : Obligations.ModRmAndSibBytes := by
  intro reg rm index base ss d0 d1 d2 d3 rest disp four sib
  have hfour : four = encodeDisp32 disp ++ rest := by rw [encodeDisp32_of_bytes]; rfl
  have reads {bs : List Byte} (src : RM) (hbs : bs = encodeRM reg src ++ rest) (hsrc : src.wf = true) :
      takeModRM bs = some (reg, src, rest) := hbs ▸ takeModRM_encodeRM reg src rest hsrc
  rw [hfour]
  refine ⟨reads _ rfl rfl, reads _ rfl rfl, fun h4 => ⟨fun h5 => reads _ rfl ?_, reads _ rfl ?_,
    reads _ rfl ?_⟩, fun h5 => reads _ rfl ?_, reads _ rfl rfl, reads _ rfl ?_, reads _ rfl ?_⟩
  · simp [RM.wf, Mem.wf, h4, h5]
  · simp [RM.wf, Mem.wf, h4]
  · simp [RM.wf, Mem.wf, h4]
  · simp [RM.wf, Mem.wf, h5]
  · simp [RM.wf, Mem.wf]
  · simp [RM.wf, Mem.wf]

end Sys2Proof

namespace Sys2Proof.Machine

/-! ### Displacements (R77, R78) -/

/-- A `disp8` is sign-extended and scaled by `N`. -/
theorem dispValue_disp8 (n : Nat) (d : BitVec 8) :
    dispValue n (.disp8 d) = BitVec.ofInt 64 (d.toInt * (n : Int)) := by
  rw [BitVec.ofInt_mul, BitVec.ofInt_natCast]
  rfl

/-- The scale `N` touches the displacement of an operand with a `disp8`, and nothing else. -/
theorem memRef_disp8 (m : Mode) (x b : Bool) {rm index base : BitVec 3} {ss : BitVec 2} {d : BitVec 8}
    {mem : Mem} (hmem : mem = .base rm (.disp8 d) ∨ mem = .sib ss index base (.disp8 d)) (n : Nat) :
    memRef m x b n mem =
      { memRef m x b 1 mem with disp := BitVec.ofInt 64 (d.toInt * (n : Int)) } := by
  rw [← dispValue_disp8]
  rcases hmem with rfl | rfl <;> rfl

/-- Settles O14: `memRef_disp8` at the scale of each form and length. -/
theorem disp8IsScaled : Obligations.Disp8IsScaled := by
  intro m x b rm index base ss d mem hmem scaled
  have hscaled (n : Nat) : memRef m x b n mem = scaled n := memRef_disp8 m x b hmem n
  exact ⟨congrArg Source.mem (hscaled 16), congrArg Source.mem (hscaled 32),
    congrArg Source.mem (hscaled 64), fun _ => congrArg Source.bcst (hscaled 4),
    congrArg Source.mem (hscaled 1)⟩

/-! ### Base and index (R75, R76) -/

/-- A general register number: the extension bit is the fourth bit. -/
theorem reg4_toNat (hi : Bool) (n : BitVec 3) : (reg4 hi n).toNat = 8 * hi.toNat + n.toNat := by
  revert hi n; decide

/-- Only `X ++ index = 0100b` is the register number 4. -/
theorem reg4_eq_four (x : Bool) (index : BitVec 3) : reg4 x index = 4#4 ↔ x = false ∧ index = 4#3 := by
  revert x index; decide

/-- `X ++ index = 0100b` names no index. -/
theorem indexReg_none {x : Bool} {index : BitVec 3} (h : x = false ∧ index = 4#3) :
    indexReg x index = none :=
  if_pos ((reg4_eq_four x index).mpr h)

/-- Every other `X ++ index` names that register; `R12` is one. -/
theorem indexReg_some {x : Bool} {index : BitVec 3} (h : x = true ∨ index ≠ 4#3) :
    ∃ g, indexReg x index = some g ∧ g.toNat = 8 * x.toNat + index.toNat := by
  refine ⟨_, if_neg fun h4 => ?_, reg4_toNat x index⟩
  obtain ⟨rfl, hindex⟩ := (reg4_eq_four x index).mp h4
  exact h.elim (by decide) fun hne => hne hindex

/-! ### RIP-relative addresses (R79) -/

/-- Without an index the effective address is the base plus the displacement, modulo 2^64 or, with 32-bit
addressing, modulo 2^32 (R46). -/
theorem effectiveAddress_of_no_index {s : State} {ripNext : Quad} {r : MemRef} (addr32 : Bool)
    (h : r.index = none) : (s.effectiveAddress addr32 ripNext r).toNat =
      ((s.baseValue ripNext r.base).toNat + r.disp.toNat) % (if addr32 then 2 ^ 32 else 2 ^ 64) := by
  obtain ⟨h64, h32⟩ := effectiveAddress_toNat (index := 0#64) (r := r) (ripNext := ripNext) (s := s) rfl
    (by simp [State.indexValue, h])
  cases addr32 with
  | false => simpa using h64
  | true => simpa [Nat.add_mod] using h32

/-- The 64-bit word of an integer is its residue. -/
theorem toNat_ofInt64 (k : Int) : ((BitVec.ofInt 64 k).toNat : Int) = k % 2 ^ 64 := by
  rw [BitVec.toNat_ofInt]; omega

/-- Settles O16: the fields of an operand by its shape, then the RIP-relative sum. -/
theorem memoryOperandForms : Obligations.MemoryOperandForms := by
  refine ⟨fun m x b n rm index base ss d d32 => ?_, fun s i x b n d32 hmode => ?_⟩
  · intro names indexed displaced plain sib noBase disp32
    have hdisp : ∀ r : MemRef, r.disp = dispValue n d → displaced r := by
      intro r hr
      exact ⟨fun h => by rw [hr, h]; rfl, fun h => by rw [hr, h]; rfl⟩
    have hindex : ∀ r : MemRef, r.index = indexReg x index → r.scale = ss → indexed r := by
      intro r hr hscale
      exact ⟨fun h => hr.trans (indexReg_none h), fun h => hr ▸ indexReg_some h, hscale⟩
    exact ⟨⟨_, rfl, reg4_toNat b rm⟩, rfl, hdisp _ rfl, ⟨_, rfl, reg4_toNat b base⟩, hindex _ rfl rfl,
      hdisp _ rfl, rfl, hindex _ rfl rfl, rfl, fun h => if_pos h, fun h => if_neg h, rfl, rfl⟩
  · intro next
    have hbase : s.baseValue next (memRef s.mode x b n (.disp32 d32)).base = next := by
      simp [memRef, hmode, State.baseValue]
    have hnext : next.toNat = (s.rip.toNat + (encode i).length) % 2 ^ 64 := by simp [next]
    have hdisp : ((memRef s.mode x b n (.disp32 d32)).disp.toNat : Int) = d32.toInt % 2 ^ 64 :=
      toNat_ofInt64 d32.toInt
    rw [effectiveAddress_of_no_index _ rfl, hbase, hnext]
    by_cases h67 : .addressSize ∈ i.pre
    · simp only [List.contains_eq_mem, h67, decide_true, if_true]
      omega
    · simp only [List.contains_eq_mem, h67, decide_false, if_false, Bool.false_eq_true]
      omega

end Sys2Proof.Machine
end

section
/-!
PROOFS. Encodings that are no instruction, at `RIP`: invalid ones (R82, R121) and overlong ones (R60, R124).
-/

namespace Sys2Proof.Machine

/-- A step from an admitted state whose fetch stops has the outcome of the stop. -/
theorem step_of_fetch_stop {s : State} {st : Stop} (hlaunch : s.launchRefusal = none)
    (hfetch : s.fetch = .stop st) : step s = st.outcome s := by
  simp [step, hlaunch, hfetch]

/-- Settles O50: the fetch stops with `#UD`, which records nothing. -/
theorem invalidEncodingRaisesUd : Obligations.InvalidEncodingRaisesUd := by
  intro s r hlaunch hdec
  exact step_of_fetch_stop (st := .exc .ud) hlaunch (by simp [State.fetch, hdec])

/-- A fetch that gives all the bytes asked for is stopped by the next one, with `#GP(0)` (entry 16). -/
theorem fetchFrom_all_codeBytes {s : State} (hscope : s.mode.inScope = true) {bs : List Byte} :
    ∀ {n : Nat}, (List.range' n bs.length).map (fun k => s.codeByte (s.rip.toNat + k)) =
      bs.map Except.ok → s.fetchFrom bs.length n = (bs, .exc .gp) := by
  induction bs with
  | nil => exact fun _ => rfl
  | cons b bs ih =>
    intro n hbytes
    simp only [List.length_cons, List.range'_succ, List.map_cons, List.cons.injEq] at hbytes
    obtain ⟨hb, hbs⟩ := hbytes
    simp [State.fetchFrom, codeAddress_of_inScope hscope, hb, ih hbs]

/-- The scan takes prefix bytes and nothing else. -/
theorem scanPrefixes_of_only_prefixes (ps : List Prefix) : scanPrefixes (encodePre ps) = (ps, []) := by
  induction ps with
  | nil => rfl
  | cons p ps ih => simp only [encodePre] at ih; simp [encodePre, scanPrefixes, ih]

/-- After prefixes alone the decoder asks for more bytes. -/
theorem decode_of_only_prefixes (c : Config) {m : Mode} (ps : List Prefix) (hscope : m.inScope = true) :
    decode c m (encodePre ps) = .more := by
  rw [decode, if_pos hscope, scanPrefixes_of_only_prefixes]
  rfl

/-- Settles O51: the code window is the fifteen prefixes, the decoder asks for more, and the sixteenth byte
is `#GP(0)`. -/
theorem overlongInstructionRaisesGp : Obligations.OverlongInstructionRaisesGp := by
  intro s ps hlaunch hscope hlen hbytes
  have hwindow : s.codeWindow = (encodePre ps, .exc .gp) := by
    have hlength : (encodePre ps).length = 15 := by rw [encodePre, List.length_map, hlen]
    have hall := fetchFrom_all_codeBytes hscope (bs := encodePre ps) (n := 0) (by
      rw [hlength, ← List.range_eq_range', hbytes, encodePre, List.map_map]
      rfl)
    rwa [hlength] at hall
  refine step_of_fetch_stop (st := .exc .gp) hlaunch ?_
  simp [State.fetch, hwindow, decode_of_only_prefixes s.cfg ps hscope]

end Sys2Proof.Machine
end

section
/-!
PROOFS. The conversion of a lane: truncation toward zero (R100, R102, R104), NaN and infinity (R103),
denormals under `DAZ` (R101).
-/

namespace Sys2Proof.Machine

/-! ### Truncation of a signed fraction -/

/-- A natural number under a sign. -/
def withSign (s : Bool) (n : Nat) : Int := if s then -n else n

theorem truncate_of_nonneg {q : Rat} (h : 0 ≤ q) : truncate q = q.floor := if_neg (not_lt.mpr h)

theorem truncate_neg_of_nonneg {q : Rat} (h : 0 ≤ q) : truncate (-q) = -q.floor := by
  rcases h.eq_or_lt with rfl | hpos
  · decide
  · rw [truncate, if_pos (neg_lt_zero.mpr hpos), Rat.ceil_eq_neg_floor_neg, neg_neg]

/-- Truncation toward zero takes the quotient of the magnitude and keeps the sign. -/
theorem truncate_signed_div (s : Bool) (n d : Nat) :
    truncate (if s then -((n : Rat) / d) else (n : Rat) / d) = withSign s (n / d) := by
  have hfloor : ((n : Rat) / d).floor = ((n / d : Nat) : Int) := Rat.floor_natCast_div_natCast n d
  have hnonneg : 0 ≤ (n : Rat) / d := by positivity
  cases s with
  | false => rw [if_neg Bool.false_ne_true, truncate_of_nonneg hnonneg, hfloor]; rfl
  | true => rw [if_pos rfl, truncate_neg_of_nonneg hnonneg, hfloor]; rfl

/-- The quotient under the sign is the fraction exactly when nothing remains. -/
theorem withSign_div_eq_iff (s : Bool) (n : Nat) {d : Nat} (hd : d ≠ 0) :
    (withSign s (n / d) : Rat) = (if s then -((n : Rat) / d) else (n : Rat) / d) ↔ n % d = 0 := by
  have hquot : ((n / d : Nat) : Rat) = (n : Rat) / d ↔ n % d = 0 := by
    rw [eq_div_iff (Nat.cast_ne_zero.mpr hd), ← Nat.cast_mul, Nat.cast_inj, ← Nat.dvd_iff_mod_eq_zero]
    exact ⟨fun h => ⟨n / d, by rw [Nat.mul_comm]; exact h.symm⟩, Nat.div_mul_cancel⟩
  rw [← hquot]
  cases s with
  | false => simp only [withSign, Bool.false_eq_true, if_false, Int.cast_natCast]
  | true => simp only [withSign, if_true, Int.cast_neg, Int.cast_natCast, neg_inj]

/-! ### The value of a lane as a fraction (R100) -/

/-- The magnitude of a zero, denormal or normal number, in units of `2^-150`. -/
def scaledMagnitude (x : Dword) : Nat :=
  if f32Exp x = 0 then 2 * f32Frac x else (2 ^ 23 + f32Frac x) * 2 ^ f32Exp x

/-- The integer part of the magnitude. -/
def integerPart (x : Dword) : Nat := scaledMagnitude x / 2 ^ 150

theorem f32Frac_lt (x : Dword) : f32Frac x < 2 ^ 23 := (x.extractLsb' 0 23).isLt

/-- The exact value is the scaled magnitude under the sign. -/
theorem f32Value_eq (x : Dword) : f32Value x =
    if f32Sign x then -((scaledMagnitude x : Rat) / (2 ^ 150 : Nat))
    else (scaledMagnitude x : Rat) / (2 ^ 150 : Nat) := by
  have hmag : (if f32Exp x = 0 then (f32Frac x : Rat) / 2 ^ 149
      else ((2 ^ 23 + f32Frac x : Nat) : Rat) * 2 ^ f32Exp x / 2 ^ 150) =
      (scaledMagnitude x : Rat) / (2 ^ 150 : Nat) := by
    unfold scaledMagnitude
    split <;> push_cast <;> ring
  rw [f32Value, hmag]

theorem truncate_f32Value (x : Dword) :
    truncate (f32Value x) = withSign (f32Sign x) (integerPart x) := by
  rw [f32Value_eq, truncate_signed_div, integerPart]

/-- The value is an integer exactly when the scaled magnitude has no fractional bits. -/
theorem truncate_eq_f32Value_iff (x : Dword) :
    (truncate (f32Value x) : Rat) = f32Value x ↔ scaledMagnitude x % 2 ^ 150 = 0 := by
  rw [truncate_f32Value, f32Value_eq, integerPart]
  exact withSign_div_eq_iff _ _ (by positivity)

/-! ### Integer and fractional part, by exponent (R102) -/

/-- Below 1 there is no integer part. -/
theorem scaledMagnitude_lt_of_exp_lt {x : Dword} (h : f32Exp x < 127) : scaledMagnitude x < 2 ^ 150 := by
  have hfrac := f32Frac_lt x
  unfold scaledMagnitude
  split
  · omega
  · calc (2 ^ 23 + f32Frac x) * 2 ^ f32Exp x
        < 2 ^ 24 * 2 ^ f32Exp x := Nat.mul_lt_mul_of_pos_right (by omega) (by positivity)
      _ ≤ 2 ^ 24 * 2 ^ 126 := Nat.mul_le_mul_left _ (Nat.pow_le_pow_right (by decide) (by omega))
      _ = 2 ^ 150 := by norm_num

/-- Up to `2^23` the fraction's low bits are the fractional part. -/
theorem parts_of_exp_le {x : Dword} (hpos : f32Exp x ≠ 0) (h : f32Exp x ≤ 150) :
    integerPart x = (2 ^ 23 + f32Frac x) / 2 ^ (150 - f32Exp x) ∧
    scaledMagnitude x % 2 ^ 150 = (2 ^ 23 + f32Frac x) % 2 ^ (150 - f32Exp x) * 2 ^ f32Exp x := by
  have hsplit : 2 ^ 150 = 2 ^ (150 - f32Exp x) * 2 ^ f32Exp x := by
    rw [← Nat.pow_add, Nat.sub_add_cancel h]
  rw [integerPart, scaledMagnitude, if_neg hpos, hsplit]
  exact ⟨Nat.mul_div_mul_right _ _ (by positivity), Nat.mul_mod_mul_right _ _ _⟩

/-- From `2^23` on every value is an integer. -/
theorem parts_of_le_exp {x : Dword} (h : 150 ≤ f32Exp x) :
    integerPart x = (2 ^ 23 + f32Frac x) * 2 ^ (f32Exp x - 150) ∧ scaledMagnitude x % 2 ^ 150 = 0 := by
  have hscaled : scaledMagnitude x = (2 ^ 23 + f32Frac x) * 2 ^ (f32Exp x - 150) * 2 ^ 150 := by
    rw [scaledMagnitude, if_neg (by omega), Nat.mul_assoc, ← Nat.pow_add, Nat.sub_add_cancel h]
  rw [integerPart, hscaled]
  exact ⟨Nat.mul_div_cancel _ (by positivity), Nat.mul_mod_left _ _⟩

/-! ### The lane function on finite lanes -/

/-- Does a magnitude fit 32 bits under its sign (R102)? -/
def FitsDword (s : Bool) (n : Nat) : Prop := n < 2 ^ 31 ∨ s = true ∧ n = 2 ^ 31

theorem fitsDword_iff (s : Bool) (n : Nat) :
    FitsDword s n ↔ -(2 ^ 31) ≤ withSign s n ∧ withSign s n ≤ 2 ^ 31 - 1 := by
  cases s <;> simp [FitsDword, withSign] <;> omega

/-- The two's complement of a magnitude that fits is the signed integer. -/
theorem toInt_twos {s : Bool} {n : Nat} (h : FitsDword s n) : (twos s n).toInt = withSign s n := by
  unfold FitsDword at h
  cases s with
  | false =>
    simp only [twos, withSign, Bool.false_eq_true, if_false, false_and, or_false,
      BitVec.toInt_eq_toNat_cond, BitVec.toNat_ofNat] at h ⊢
    omega
  | true =>
    simp only [twos, withSign, if_true, true_and, BitVec.toInt_eq_toNat_cond,
      BitVec.toNat_ofNat] at h ⊢
    omega

/-- From `2^31` on only `-2^31` fits. -/
theorem fitsDword_iff_of_158_le {x : Dword} (h : 158 ≤ f32Exp x) :
    FitsDword (f32Sign x) (integerPart x) ↔ f32Sign x = true ∧ f32Exp x = 158 ∧ f32Frac x = 0 := by
  rw [FitsDword, (parts_of_le_exp (by omega)).1]
  rcases h.eq_or_lt with he | hgt
  · have hle : ¬ (2 ^ 23 + f32Frac x) * 2 ^ (158 - 150) < 2 ^ 31 := by omega
    have heq : (2 ^ 23 + f32Frac x) * 2 ^ (158 - 150) = 2 ^ 31 ↔ f32Frac x = 0 := by omega
    rw [← he, heq]
    simp only [hle, false_or, true_and]
  · have hbig : 2 ^ 23 * 2 ^ 9 ≤ (2 ^ 23 + f32Frac x) * 2 ^ (f32Exp x - 150) :=
      Nat.mul_le_mul (by omega) (Nat.pow_le_pow_right (by decide) (by omega))
    exact ⟨fun hfits => by omega, fun hcond => by omega⟩

/-- The two's complement of 0 is 0 under either sign. -/
theorem twos_zero (s : Bool) : twos s 0 = 0#32 := by cases s <;> rfl

/-! ### The arms of the lane function (R102) -/

section Arms

variable {x : Dword} (daz : Bool)

theorem cvtT_of_nonfinite (he : f32Exp x = 255) : cvtT x daz = ⟨indefinite, true, false⟩ := by
  simp only [cvtT, he, if_true]

theorem cvtT_of_zero (he : f32Exp x = 0) (hf : f32Frac x = 0) : cvtT x daz = ⟨0#32, false, false⟩ := by
  simp [cvtT, he, hf]

theorem cvtT_of_denormal (he : f32Exp x = 0) (hf : f32Frac x ≠ 0) :
    cvtT x daz = ⟨0#32, false, !daz⟩ := by
  cases daz <;> simp [cvtT, he, hf]

theorem cvtT_of_below_one (h0 : f32Exp x ≠ 0) (h : f32Exp x < 127) :
    cvtT x daz = ⟨0#32, false, true⟩ := by
  simp only [cvtT, h0, false_and, if_false, if_neg (show ¬ f32Exp x = 255 by omega),
    if_neg (show ¬ f32Exp x ≥ 158 by omega), if_neg (show ¬ f32Exp x ≥ 150 by omega),
    if_neg (show ¬ f32Exp x ≥ 127 by omega)]

theorem cvtT_of_fraction (h1 : 127 ≤ f32Exp x) (h : f32Exp x < 150) :
    cvtT x daz = ⟨twos (f32Sign x) ((2 ^ 23 + f32Frac x) / 2 ^ (150 - f32Exp x)), false,
      (2 ^ 23 + f32Frac x) % 2 ^ (150 - f32Exp x) != 0⟩ := by
  simp only [cvtT, show ¬ f32Exp x = 0 by omega, false_and, if_false,
    if_neg (show ¬ f32Exp x = 255 by omega), if_neg (show ¬ f32Exp x ≥ 158 by omega),
    if_neg (show ¬ f32Exp x ≥ 150 by omega), if_pos (show f32Exp x ≥ 127 from h1)]

theorem cvtT_of_integer (h1 : 150 ≤ f32Exp x) (h : f32Exp x < 158) :
    cvtT x daz =
      ⟨twos (f32Sign x) ((2 ^ 23 + f32Frac x) * 2 ^ (f32Exp x - 150)), false, false⟩ := by
  simp only [cvtT, show ¬ f32Exp x = 0 by omega, false_and, if_false,
    if_neg (show ¬ f32Exp x = 255 by omega), if_neg (show ¬ f32Exp x ≥ 158 by omega),
    if_pos (show f32Exp x ≥ 150 from h1)]

theorem cvtT_of_158_le (h1 : 158 ≤ f32Exp x) (h : f32Exp x ≠ 255) :
    cvtT x daz = if f32Sign x = true ∧ f32Exp x = 158 ∧ f32Frac x = 0
      then ⟨indefinite, false, false⟩ else ⟨indefinite, true, false⟩ := by
  simp only [cvtT, h, show ¬ f32Exp x = 0 by omega, false_and, if_false,
    if_pos (show f32Exp x ≥ 158 from h1)]

end Arms

/-! ### Finite lanes -/

/-- A finite lane is the two's complement of its integer part, inexact when something remains; a part
that does not fit is Invalid (R102). -/
theorem cvtT_of_finite {x : Dword} (h : f32Exp x ≠ 255) :
    (FitsDword (f32Sign x) (integerPart x) → cvtT x false =
      ⟨twos (f32Sign x) (integerPart x), false, scaledMagnitude x % 2 ^ 150 != 0⟩) ∧
    (¬ FitsDword (f32Sign x) (integerPart x) → cvtT x false = ⟨indefinite, true, false⟩) := by
  have hfrac := f32Frac_lt x
  rcases Nat.lt_or_ge (f32Exp x) 127 with hlow | hlow
  · have hlt := scaledMagnitude_lt_of_exp_lt hlow
    have hint : integerPart x = 0 := Nat.div_eq_of_lt hlt
    have hfits : FitsDword (f32Sign x) (integerPart x) := .inl (by omega)
    refine ⟨fun _ => ?_, fun hn => absurd hfits hn⟩
    rw [hint, twos_zero, Nat.mod_eq_of_lt hlt, scaledMagnitude]
    by_cases he : f32Exp x = 0
    · by_cases hf : f32Frac x = 0
      · simp [cvtT_of_zero, he, hf]
      · simp [cvtT_of_denormal, he, hf]
    · simp [cvtT_of_below_one, he, hlow]
  rcases Nat.lt_or_ge (f32Exp x) 150 with hmid | hmid
  · obtain ⟨hint, hrem⟩ := parts_of_exp_le (x := x) (by omega) hmid.le
    have hfits : FitsDword (f32Sign x) (integerPart x) :=
      .inl (by have := Nat.div_le_self (2 ^ 23 + f32Frac x) (2 ^ (150 - f32Exp x)); omega)
    refine ⟨fun _ => ?_, fun hn => absurd hfits hn⟩
    rw [cvtT_of_fraction false hlow hmid, hint, hrem]
    simp [bne]
  obtain ⟨hint, hrem⟩ := parts_of_le_exp hmid
  rcases Nat.lt_or_ge (f32Exp x) 158 with hhigh | hhigh
  · have hlt : integerPart x < 2 ^ 31 := by
      calc integerPart x
          < 2 ^ 24 * 2 ^ (f32Exp x - 150) := by
            rw [hint]; exact Nat.mul_lt_mul_of_pos_right (by omega) (by positivity)
        _ ≤ 2 ^ 24 * 2 ^ 7 := Nat.mul_le_mul_left _ (Nat.pow_le_pow_right (by decide) (by omega))
        _ = 2 ^ 31 := by norm_num
    refine ⟨fun _ => ?_, fun hn => absurd (.inl hlt) hn⟩
    rw [cvtT_of_integer false hmid hhigh, hint, hrem]
    rfl
  · have hiff := fitsDword_iff_of_158_le hhigh
    refine ⟨fun hfits => ?_, fun hfits => ?_⟩
    · obtain ⟨hs, he, hf⟩ := hiff.mp hfits
      rw [cvtT_of_158_le false hhigh h, if_pos ⟨hs, he, hf⟩, hint, hrem, hs, he, hf]
      rfl
    · rw [cvtT_of_158_le false hhigh h, if_neg (mt hiff.mpr hfits)]

/-- Settles O20: `cvtT_of_finite`, with the truncation of the exact value as the integer part under the
sign. -/
theorem conversionTruncatesTowardZero : Obligations.ConversionTruncatesTowardZero := by
  intro x hfinite
  obtain ⟨hin, hout⟩ := cvtT_of_finite hfinite
  rw [ne_eq, truncate_eq_f32Value_iff, truncate_f32Value]
  refine ⟨fun hfits => ?_, fun hover => hout fun hfits => ?_⟩
  · have hfits := (fitsDword_iff _ _).mpr hfits
    rw [hin hfits]
    exact ⟨toInt_twos hfits, rfl, bne_iff_ne⟩
  · have := (fitsDword_iff _ _).mp hfits
    omega

/-! ### NaN and infinity (R103) -/

/-- Settles O21: an exponent field of 255 is the first thing the lane function asks (R102). -/
theorem nonFiniteIsInvalid : Obligations.NonFiniteIsInvalid :=
  fun _ daz he => cvtT_of_nonfinite daz (congrArg BitVec.toNat he)

/-! ### Denormals (R101) -/

/-- A denormal lane, by its fields (R100). -/
theorem denormal_iff (x : Dword) :
    (x.extractLsb' 23 8 = 0#8 ∧ x.extractLsb' 0 23 ≠ 0#23) ↔ f32Exp x = 0 ∧ f32Frac x ≠ 0 := by
  rw [ne_eq, ← BitVec.toNat_inj, ← BitVec.toNat_inj]
  rfl

/-- `DAZ` decides on denormals only. -/
theorem cvtT_daz_of_not_denormal {x : Dword} (h : ¬ (f32Exp x = 0 ∧ f32Frac x ≠ 0)) :
    cvtT x true = cvtT x false := by
  rw [not_and_not_right] at h
  by_cases he : f32Exp x = 0
  · rw [cvtT_of_zero true he (h he), cvtT_of_zero false he (h he)]
  · simp only [cvtT, he, false_and]

end Sys2Proof.Machine
end

section
/-!
PROOFS. The conversion inside an instruction: lane by lane (R106, R108), the flags it sets (R101, R105),
the exceptions it raises (R126), and `{sae}` (R107).
-/

namespace Sys2Proof.Machine

/-! ### Inversion of a fault -/

/-- A form that may not run does not complete: it is refused, or raises `#UD` or `#NM` with the state as it
was (R121, R122). -/
theorem exec_of_not_ready {i : Instr} {s : State} (h : s.ready i = false) :
    exec i s = .refused .modeOutOfScope ∨ exec i s = raise .ud s ∨ exec i s = raise .nm s := by
  have hblocked : ¬ (s.invalidOpcode i.cls i.vl = false ∧ s.ts = false) := by
    rw [← ready_iff, h]
    exact Bool.false_ne_true
  rw [exec_eq]
  rcases execute_cases (opOf s.mode i) s with ⟨-, -, e⟩ | ⟨-, e⟩ | ⟨-, -, e⟩ | ⟨hop, hts, -⟩ |
    ⟨hop, hts, -⟩
  · exact .inl e
  · exact .inr (.inl e)
  · exact .inr (.inr e)
  · exact absurd ⟨hop, hts⟩ hblocked
  · exact absurd ⟨hop, hts⟩ hblocked

theorem flagsOf_raises_of_not_quiet {i : Instr} {s : State} {src : Nat → Dword}
    (h : s.quietFor i src = false) : (s.flagsOf (opOf s.mode i) src).raises = true := by
  rw [flagsOf_raises_iff, h]; rfl

/-- A SIMD exception is no page fault, so it records nothing (R126, R132). -/
theorem recorded_simdExc (s t : State) : t.recorded s.simdExc = t := by
  unfold State.simdExc
  split <;> rfl

/-- A form that raises what it signals leaves the flags of R105. -/
theorem exec_of_not_quiet {i : Instr} {s : State} {src : Nat → Dword} (hready : s.ready i = true)
    (hsrc : s.sourceLanes i.cls i.pre i.vl i.mask i.length (i.source s.mode) = .ok src)
    (hquiet : s.quietFor i src = false) :
    exec i s = raise s.simdExc { s with mxcsr := s.flagsAtFault i src } := by
  have hraises := flagsOf_raises_of_not_quiet hquiet
  obtain ⟨hop, hts⟩ := (ready_iff s i).mp hready
  rw [exec_eq, ← flagsOf_mxcsr_of_raises s i src hraises]
  rcases execute_cases (opOf s.mode i) s with ⟨-, hm, -⟩ | ⟨h, -⟩ | ⟨-, h, -⟩ | ⟨-, -, st, h, -⟩ |
    ⟨-, -, src', h, ⟨-, e⟩ | ⟨hr, -⟩⟩
  · simp [State.invalidOpcode, hm] at hop
  · exact absurd (hop.symm.trans h) Bool.false_ne_true
  · exact absurd (hts.symm.trans h) Bool.false_ne_true
  · cases hsrc.symm.trans h
  · cases hsrc.symm.trans h
    exact e
  · cases hsrc.symm.trans h
    exact absurd (hr.symm.trans hraises) Bool.false_ne_true

/-- The faults of an instruction: it may not run; its source cannot be read; or it signals something
unmasked (R128, R132). -/
theorem exec_fault {i : Instr} {e : Exc} {s f : State} (h : exec i s = .fault (.exception e f)) :
    (s.ready i = false ∧ (e = .ud ∨ e = .nm) ∧ f = s) ∨
    (s.ready i = true ∧ f = s.recorded e ∧
      s.sourceLanes i.cls i.pre i.vl i.mask i.length (i.source s.mode) = .error (.exc e)) ∨
    (s.ready i = true ∧ s.quietFor i (s.sourceLane i) = false ∧ e = s.simdExc ∧
      f = { s with mxcsr := s.flagsAtFault i (s.sourceLane i) }) := by
  cases hready : s.ready i with
  | false =>
    refine .inl ⟨rfl, ?_⟩
    rcases exec_of_not_ready hready with he | he | he <;> rw [he] at h <;> cases h
    · exact ⟨.inl rfl, rfl⟩
    · exact ⟨.inr rfl, rfl⟩
  | true =>
    refine .inr ?_
    cases hsrc : s.sourceLanes i.cls i.pre i.vl i.mask i.length (i.source s.mode) with
    | error st =>
      rw [exec_stopped hready hsrc] at h
      cases st with
      | exc e' => cases h; exact .inl ⟨rfl, rfl, rfl⟩
      | refuse => cases h
    | ok src =>
      obtain rfl := sourceLanes_ok hsrc
      cases hquiet : s.quietFor i (s.sourceLane i) with
      | true =>
        rw [(exec_completes hready hsrc hquiet).1] at h
        cases h
      | false =>
        rw [exec_of_not_quiet hready hsrc hquiet] at h
        rw [raise, recorded_simdExc] at h
        cases h
        exact .inr ⟨rfl, rfl, rfl, rfl⟩

/-- What the address of an operand raises (R123, R124, R127). -/
theorem addressExc_eq_some {s : State} {cls : EncClass} {seg : Seg} {a : Quad} {n : Nat} {e : Exc}
    (h : s.addressExc? cls seg a n = some e) : e = .gp ∨ e = .ss ∨ e = .ac := by
  unfold State.addressExc? at h
  split at h
  · cases h; exact .inl rfl
  split at h
  · split at h <;> cases h
    · exact .inr (.inl rfl)
    · exact .inl rfl
  split at h
  · cases h; exact .inr (.inr rfl)
  · cases h

/-- The exceptions of reading an operand (R110 steps 4 and 5): neither `#UD`, `#NM` nor `#XM`. -/
theorem readOperand_error_exc {s : State} {cls : EncClass} {seg : Seg} {a : Quad} {n : Nat}
    {active : List Nat} {place : Nat → Quad} {e : Exc}
    (h : s.readOperand cls seg a n active place = .error (.exc e)) :
    e = .gp ∨ e = .ss ∨ e = .ac ∨ ∃ code addr, e = .pf code addr := by
  unfold State.readOperand at h
  split at h
  · rename_i e' haddr
    cases h
    rcases addressExc_eq_some haddr with rfl | rfl | rfl <;> simp
  · split at h
    · rename_i st hacc
      cases h
      rcases accessStop_some hacc with ⟨a', -, code, -, hst⟩ | ⟨-, a', -, -, hst⟩
      · cases hst; exact .inr (.inr (.inr ⟨_, _, rfl⟩))
      · cases hst
    · cases h

theorem sourceLanes_error_exc {s : State} {cls : EncClass} {pre : List Prefix} {vl : VecLen}
    {mask : Mask} {len : Nat} {src : Source} {e : Exc}
    (h : s.sourceLanes cls pre vl mask len src = .error (.exc e)) :
    e = .gp ∨ e = .ss ∨ e = .ac ∨ ∃ code addr, e = .pf code addr := by
  cases src with
  | reg => cases h
  | mem | bcst => exact readOperand_error_exc h

/-- A SIMD fault writes `IE` and `PE` alone (R105). -/
theorem flagsAtFault_getLsbD_of_ne {i : Instr} {s : State} {src : Nat → Dword}
    (h : s.quietFor i src = false) {k : Nat} (h0 : k ≠ 0) (h5 : k ≠ 5) :
    (s.flagsAtFault i src).getLsbD k = s.mxcsr.getLsbD k := by
  rw [← flagsOf_mxcsr_of_raises s i src (flagsOf_raises_of_not_quiet h)]
  exact simdFlags_other _ _ _ _ _ h0 h5

/-- A fault writes of MXCSR at most `IE` and `PE`. -/
theorem exec_fault_mxcsr {i : Instr} {e : Exc} {s f : State} (h : exec i s = .fault (.exception e f))
    {k : Nat} (h0 : k ≠ 0) (h5 : k ≠ 5) : f.mxcsr.getLsbD k = s.mxcsr.getLsbD k := by
  rcases exec_fault h with ⟨-, -, rfl⟩ | ⟨-, rfl, -⟩ | ⟨-, hquiet, -, rfl⟩
  · rfl
  · rw [State.recorded_mxcsr]
  · exact flagsAtFault_getLsbD_of_ne hquiet h0 h5

/-! ### Denormals in an instruction (R101) -/

/-- The conversion of a denormal lane under the state's `DAZ`. -/
theorem conv_of_denormal {s : State} {x : Dword}
    (h : x.extractLsb' 23 8 = 0#8 ∧ x.extractLsb' 0 23 ≠ 0#23) :
    s.conv x = ⟨0#32, false, !mxcsrDAZ s.mxcsr⟩ := by
  obtain ⟨he, hf⟩ := (denormal_iff x).mp h
  exact cvtT_of_denormal _ he hf

/-- An inexact selected lane sets `PE` (R105). -/
theorem flagsAfter_pe {s : State} {kl j : Nat} {active : Nat → Bool} {src : Nat → Dword} (hj : j < kl)
    (hactive : active j = true) (hinexact : (s.conv (src j)).inexact = true) :
    (s.flagsAfter kl active src).getLsbD 5 = true := by
  have hsome : s.someInexact kl active src = true :=
    List.any_eq_true.mpr ⟨j, List.mem_range.mpr hj, by rw [hactive, hinexact]; rfl⟩
  simp [State.flagsAfter, hsome]

/-- Selected lanes that signal nothing leave MXCSR as it was (R105). -/
theorem flagsAfter_of_exact {s : State} {kl : Nat} {active : Nat → Bool} {src : Nat → Dword}
    (h : ∀ j, j < kl → active j = true →
      (s.conv (src j)).inv = false ∧ (s.conv (src j)).inexact = false) :
    s.flagsAfter kl active src = s.mxcsr := by
  have hinv : s.someInvalid kl active src = false := by
    simp only [State.someInvalid, List.any_eq_false, List.mem_range, Bool.and_eq_true, not_and]
    exact fun j hj ha => by rw [(h j hj ha).1]; decide
  have hinexact : s.someInexact kl active src = false := by
    simp only [State.someInexact, List.any_eq_false, List.mem_range, Bool.and_eq_true, not_and]
    exact fun j hj ha => by rw [(h j hj ha).2]; decide
  simp [State.flagsAfter, hinv, hinexact]

/-- Settles O22: the lane function on denormals and on the rest, the flags of the conversion in a completed
form, and the frame of MXCSR in a completed and in a faulted state. -/
theorem denormalsFollowDaz : Obligations.DenormalsFollowDaz := by
  refine ⟨fun x he hf => ?lane, fun x hx => ?other, fun i s t h => ⟨?selected, ?unchanged⟩,
    fun i s t h => (exec_next_result h).frame.mxcsr 1 (by decide) (by decide),
    fun i e s f h => exec_fault_mxcsr h (by decide) (by decide)⟩
  case lane =>
    obtain ⟨he, hf⟩ := (denormal_iff x).mp ⟨he, hf⟩
    exact ⟨cvtT_of_denormal true he hf, cvtT_of_denormal false he hf⟩
  case other =>
    refine cvtT_daz_of_not_denormal (mt (denormal_iff x).mpr ?_)
    rintro ⟨he, hf⟩
    exact hx.elim (absurd he) hf
  case selected =>
    intro j hj hsel hden
    have hres := exec_next_result h
    refine ⟨by rw [hres.lanes j hj hsel, conv_of_denormal hden], fun hdaz hsae => ?_⟩
    have hinexact : (s.conv (s.sourceLane i j)).inexact = true := by
      rw [conv_of_denormal hden, mxcsrDAZ, hdaz]; rfl
    rw [hres.mxcsr, hsae]
    exact flagsAfter_pe hj hsel hinexact
  case unchanged =>
    intro hdaz hall
    rw [(exec_next_result h).mxcsr, flagsAfter_of_exact, ite_self]
    intro j hj hsel
    rw [conv_of_denormal (hall j hj hsel), mxcsrDAZ, hdaz]
    exact ⟨rfl, rfl⟩

/-! ### Masked responses (R106) -/

theorem cvtT_result_of_inv {x : Dword} {daz : Bool} (h : (cvtT x daz).inv = true) :
    (cvtT x daz).result = indefinite := by
  revert h
  simp only [cvtT]
  split_ifs <;> simp

/-- With both masks set nothing is raised. -/
theorem quietFor_of_masked {s : State} (him : mxcsrIM s.mxcsr = true) (hpm : mxcsrPM s.mxcsr = true)
    (i : Instr) (src : Nat → Dword) : s.quietFor i src = true := by
  simp [State.quietFor, State.quiet, him, hpm]

/-- A form that may run completes from a register when nothing it signals is unmasked. -/
theorem exec_completes_of_reg {i : Instr} {s : State} {n : BitVec 5} (hready : s.ready i = true)
    (hsrc : i.source s.mode = .reg n) (hquiet : s.quietFor i (lane (s.getZmm n)) = true) :
    exec i s = .next (s.completed (opOf s.mode i) (lane (s.getZmm n))) ∧
      Result s (s.completed (opOf s.mode i) (lane (s.getZmm n))) i (lane (s.getZmm n))
        (s.upperOf i) :=
  exec_completes hready (by rw [hsrc]; rfl) hquiet

/-- Settles O31: nothing is raised under the masks, and reading the source raises neither `#XM` nor `#UD`. -/
theorem maskedResponseByLane : Obligations.MaskedResponseByLane := by
  intro i s him hpm hready
  refine ⟨fun e f h => ?_, fun t h j hj hsel => ?_, fun n hsrc =>
    ⟨_, (exec_completes_of_reg hready hsrc (quietFor_of_masked him hpm i _)).1⟩⟩
  · rcases exec_fault h with ⟨hnot, -⟩ | ⟨-, -, hstop⟩ | ⟨-, hloud, -⟩
    · exact absurd (hnot.symm.trans hready) Bool.false_ne_true
    · rcases sourceLanes_error_exc hstop with rfl | rfl | rfl | ⟨_, _, rfl⟩ <;> simp
    · rw [quietFor_of_masked him hpm] at hloud
      cases hloud
  · have hlane := (exec_next_result h).lanes j hj hsel
    exact ⟨hlane, fun hinv => hlane.trans (cvtT_result_of_inv hinv)⟩

/-! ### Lanes (R108) -/

/-- Settles O33: a selected lane is the conversion of its source lane, which reads `DAZ` alone; a lane
masked off is the result's own. -/
theorem lanesAreIndependent : Obligations.LanesAreIndependent := by
  refine ⟨fun i i' s s' t t' j h h' hj hj' hsel hsel' hdaz hsrc => ?_,
    fun i s t j h hj hsel => (exec_next_result h).masked j hj hsel⟩
  rw [(exec_next_result h).lanes j hj hsel, (exec_next_result h').lanes j hj' hsel',
    State.conv, State.conv, hdaz, hsrc]

/-! ### `{sae}` (R107) -/

/-- A 512-bit EVEX form may run where R151 says so: it needs no AVX512VL. -/
theorem ready_of_evex512 {s : State} {i : Instr} (hcls : i.cls = .evex) (hvl : i.vl = .v512)
    (hready : s.evexReady = true) (hmax : s.cfg.maxVL = .v512) : s.ready i = true := by
  simp [State.ready, hcls, hvl, hready, hmax]

/-- The `{sae}` form leaves, but for MXCSR, what the form without it leaves under any MXCSR with the same
`DAZ`: their operands differ in nothing else that is written. -/
theorem completed_sae_eq {s : State} {m : BitVec 32} (hdaz : mxcsrDAZ m = mxcsrDAZ s.mxcsr)
    (pre : List Prefix) (e : EvexExt) (mask : Mask) (ll : BitVec 2) (reg rm : BitVec 3)
    (src : Nat → Dword) :
    s.completed (opOf s.mode (.evex512Sae pre e mask ll reg rm)) src =
      { ({ s with mxcsr := m } : State).completed (opOf s.mode (.evex512 pre e mask reg (.reg rm))) src
        with mxcsr := s.mxcsr } := by
  have hresults : ({ s with mxcsr := m } : State).results src = s.results src := by
    funext j
    simp only [State.results, hdaz]
  simp only [State.completed, hresults]
  rfl

/-- Settles O30: under `{sae}` nothing is raised and no flag is set; without it, with both masks set and
`DAZ` as it was, the same conversions are written. -/
theorem saeSuppressesAllExceptions : Obligations.SaeSuppressesAllExceptions := by
  intro s pre e mask ll reg rm hready hmax
  have hsae := exec_completes_of_reg (s := s) (i := .evex512Sae pre e mask ll reg rm)
    (ready_of_evex512 rfl rfl hready hmax) rfl rfl
  refine ⟨_, hsae.1, rfl, hsae.2, ?_⟩
  have him : mxcsrIM (s.mxcsr ||| 0x1080#32) = true := by simp [mxcsrIM]
  have hpm : mxcsrPM (s.mxcsr ||| 0x1080#32) = true := by simp [mxcsrPM]
  have hdaz : mxcsrDAZ (s.mxcsr ||| 0x1080#32) = mxcsrDAZ s.mxcsr := by simp [mxcsrDAZ]
  generalize s.mxcsr ||| 0x1080#32 = m at him hpm hdaz ⊢
  have hmasked := exec_completes_of_reg (s := { s with mxcsr := m })
    (i := .evex512 pre e mask reg (.reg rm))
    ((ready_withMxcsr s m _).trans (ready_of_evex512 rfl rfl hready hmax)) rfl
    (quietFor_of_masked (s := { s with mxcsr := m }) him hpm _ _)
  exact ⟨_, hmasked.1, completed_sae_eq hdaz pre e mask ll reg rm _⟩

end Sys2Proof.Machine
end

section
/-!
PROOFS. Each form completes, with what (R111 to R117): the legacy, VEX and EVEX forms with a register, a
memory and a broadcast source; and the step that runs one (R110).
-/

namespace Sys2Proof.Machine

/-! ### When a form may run (R151, R118) -/

theorem ready_of_legacyReady {s : State} {i : Instr} (hcls : i.cls = .legacy)
    (hready : s.legacyReady = true) : s.ready i = true := by
  simp [State.ready, hcls, hready]

theorem ready_of_vexReady {s : State} {i : Instr} (hcls : i.cls = .vex) (hready : s.vexReady = true)
    (hfits : lanesOf i.vl ≤ lanesOf s.cfg.maxVL) : s.ready i = true := by
  simp [State.ready, hcls, hready, hfits]

/-- A length other than 512 needs AVX512VL. -/
theorem ready_of_evexReady {s : State} {i : Instr} (hcls : i.cls = .evex) (hready : s.evexReady = true)
    (hVL : i.vl ≠ .v512 → s.cfg.hasAVX512VL = true) (hfits : lanesOf i.vl ≤ lanesOf s.cfg.maxVL) :
    s.ready i = true := by
  have hlength : (s.cfg.hasAVX512VL || i.vl == .v512) = true := by
    by_cases h : i.vl = .v512
    · simp [h]
    · simp [hVL h]
  simp [State.ready, hcls, hready, hlength, hfits]

/-! ### The lanes above the vector length (R21) -/

theorem upperOf_of_legacy (s : State) {i : Instr} (hcls : i.cls = .legacy) :
    s.upperOf i = lane (s.getZmm i.dest) := by
  simp [State.upperOf, hcls]

theorem upperOf_of_ne_legacy (s : State) {i : Instr} (hcls : i.cls ≠ .legacy) :
    s.upperOf i = fun _ => 0#32 := by
  funext j
  simp [State.upperOf_eq, hcls]

/-! ### The source operand (R110 steps 4 and 5) -/

theorem sourceLane_of_reg {s : State} {i : Instr} {n : BitVec 5} (hsrc : i.source s.mode = .reg n) :
    s.sourceLane i = lane (s.getZmm n) := by
  funext j
  simp [State.sourceLane, hsrc]

theorem sourceLane_of_mem {s : State} {i : Instr} {r : MemRef} (hsrc : i.source s.mode = .mem r) :
    s.sourceLane i = s.memLane (s.operandAddress i r) := by
  funext j
  simp [State.sourceLane, hsrc]

theorem sourceLane_of_bcst {s : State} {i : Instr} {r : MemRef} (hsrc : i.source s.mode = .bcst r) :
    s.sourceLane i = fun _ => s.memLane (s.operandAddress i r) 0 := by
  funext j
  simp [State.sourceLane, hsrc]

theorem sourceOk_of_reg {s : State} {i : Instr} {n : BitVec 5} (hsrc : i.source s.mode = .reg n) :
    s.sourceOk i = true := by
  simp [State.sourceOk, hsrc]

/-- What `sourceOk` asks of a full memory operand. -/
theorem sourceOk_mem_iff {s : State} {i : Instr} {r : MemRef} (hsrc : i.source s.mode = .mem r) :
    s.sourceOk i = true ↔
      (i.cls = .legacy → (s.operandAddress i r).toNat % 16 = 0) ∧
      s.operandLegal (s.operandAddress i r) (4 * lanesOf i.vl) = true ∧
      s.alignmentSettled (s.operandAddress i r) (4 * lanesOf i.vl) = true ∧
      s.selectedReadable i (s.operandAddress i r) = true := by
  simp [State.sourceOk, hsrc, and_assoc, imp_iff_not_or]

/-- A wholly readable operand, aligned where the form asks it, can be read under any mask. -/
theorem sourceOk_of_operandOk {s : State} {i : Instr} {r : MemRef} (hsrc : i.source s.mode = .mem r)
    (halign : i.cls = .legacy → (s.operandAddress i r).toNat % 16 = 0)
    (hok : s.operandOk (s.operandAddress i r) (4 * lanesOf i.vl) = true) : s.sourceOk i = true := by
  simp only [State.operandOk, Bool.and_eq_true] at hok
  obtain ⟨⟨hlegal, hread⟩, hsettled⟩ := hok
  exact (sourceOk_mem_iff hsrc).mpr ⟨halign, hlegal, hsettled, selectedReadable_of_readable hread⟩

theorem sourceOk_of_bcst {s : State} {i : Instr} {r : MemRef} (hsrc : i.source s.mode = .bcst r)
    (hok : s.operandOk (s.operandAddress i r) 4 = true) : s.sourceOk i = true := by
  simp [State.sourceOk, hsrc, hok]

/-- A source operand that can be read gives its lanes. -/
theorem sourceLanes_of_sourceOk {s : State} {i : Instr} (hok : s.sourceOk i = true) :
    s.sourceLanes i.cls i.pre i.vl i.mask i.length (i.source s.mode) = .ok (s.sourceLane i) := by
  cases hsrc : i.source s.mode with
  | reg n => rw [sourceLane_of_reg hsrc]; rfl
  | mem r =>
    obtain ⟨halign, hlegal, hsettled, hread⟩ := (sourceOk_mem_iff hsrc).mp hok
    rw [sourceLane_of_mem hsrc]
    exact sourceLanes_mem halign hlegal hsettled hread
  | bcst r =>
    have hcls : i.cls ≠ .legacy := by simp [cls_of_source_bcst hsrc]
    rw [sourceLane_of_bcst hsrc]
    exact sourceLanes_bcst (fun h => absurd h hcls) (by simpa [State.sourceOk, hsrc] using hok)

/-! ### Completion -/

/-- What signals nothing unmasked is quiet with or without `{sae}`. -/
theorem quietFor_of_quiet {s : State} {i : Instr} {src : Nat → Dword}
    (hquiet : s.quiet (lanesOf i.vl) (s.selects i.mask) src = true) : s.quietFor i src = true := by
  simp [State.quietFor, hquiet]

/-- Without a write mask every lane is selected (R73). -/
theorem selects_unmasked (s : State) : s.selects .unmasked = fun _ => true := rfl

/-- A form that may run, whose source can be read and signals nothing unmasked, completes with the result
of its source lanes (R110). -/
theorem exec_result_of_sourceOk {s : State} {i : Instr} (hready : s.ready i = true)
    (hok : s.sourceOk i = true) (hquiet : s.quietFor i (s.sourceLane i) = true) :
    ∃ t, exec i s = .next t ∧ Result s t i (s.sourceLane i) (s.upperOf i) :=
  ⟨_, exec_completes hready (sourceLanes_of_sourceOk hok) hquiet⟩

/-- A legacy form completes so with the upper lanes of its destination as they were (R111). -/
theorem exec_result_of_legacy {s : State} {i : Instr} (hcls : i.cls = .legacy)
    (hready : s.legacyReady = true) (hok : s.sourceOk i = true)
    (hquiet : s.quiet (lanesOf i.vl) (s.selects i.mask) (s.sourceLane i) = true) :
    ∃ t, exec i s = .next t ∧ Result s t i (s.sourceLane i) (lane (s.getZmm i.dest)) := by
  rw [← upperOf_of_legacy s hcls]
  exact exec_result_of_sourceOk (ready_of_legacyReady hcls hready) hok (quietFor_of_quiet hquiet)

/-- A VEX or EVEX form completes so with the upper lanes of its destination 0 (R112 to R117). -/
theorem exec_result_of_ne_legacy {s : State} {i : Instr} (hcls : i.cls ≠ .legacy)
    (hready : s.ready i = true) (hok : s.sourceOk i = true)
    (hquiet : s.quiet (lanesOf i.vl) (s.selects i.mask) (s.sourceLane i) = true) :
    ∃ t, exec i s = .next t ∧ Result s t i (s.sourceLane i) (fun _ => 0#32) := by
  rw [← upperOf_of_ne_legacy s hcls]
  exact exec_result_of_sourceOk hready hok (quietFor_of_quiet hquiet)

/-! ### The legacy forms (R111) -/

/-- Settles O23: each encoding reads the register its `B` and `r/m` name. -/
theorem legacyRegisterResult : Obligations.LegacyRegisterResult := by
  intro s pre rex reg rm hready
  refine ⟨fun hquiet => ?_, fun hquiet => ?_⟩
  · have hsrc : (Instr.legacy pre reg (.reg rm)).source s.mode = .reg (vreg4 false rm) := rfl
    rw [← sourceLane_of_reg hsrc] at hquiet ⊢
    exact exec_result_of_legacy rfl hready (sourceOk_of_reg hsrc) hquiet
  · have hsrc : (Instr.legacyRex pre rex reg (.reg rm)).source s.mode = .reg (vreg4 rex.b rm) := rfl
    rw [← sourceLane_of_reg hsrc] at hquiet ⊢
    exact exec_result_of_legacy rfl hready (sourceOk_of_reg hsrc) hquiet

/-- Settles O24: the 16 bytes of either encoding are its whole operand, so all its lanes can be read. -/
theorem legacyMemoryResult : Obligations.LegacyMemoryResult := by
  intro s i pre rex reg m a hi hready halign hok hquiet
  have hop : i.cls = .legacy ∧ i.vl = .v128 ∧ i.mask = .unmasked ∧
      ∃ r, i.source s.mode = .mem r ∧ a = s.operandAddress i r := by
    rcases hi with ⟨rfl, ha⟩ | ⟨rfl, ha⟩
    · exact ⟨rfl, rfl, rfl, _, rfl, ha⟩
    · exact ⟨rfl, rfl, rfl, _, rfl, ha⟩
  obtain ⟨hcls, hvl, hmask, r, hsrc, rfl⟩ := hop
  rw [← sourceLane_of_mem hsrc] at hquiet ⊢
  refine exec_result_of_legacy hcls hready
    (sourceOk_of_operandOk hsrc (fun _ => halign) (by rw [hvl]; exact hok)) ?_
  rw [hvl, hmask]
  exact hquiet

/-! ### The VEX forms (R112, R113) -/

/-- Settles O25: the four constructors differ in the register they read and the length alone. -/
theorem vexRegisterResult : Obligations.VexRegisterResult := by
  intro s i pre r v reg rm n hi hready hfits hquiet
  have hop : i.cls = .vex ∧ i.mask = .unmasked ∧ i.source s.mode = .reg n := by
    rcases hi with ⟨rfl, rfl⟩ | ⟨rfl, rfl⟩ | ⟨rfl, rfl⟩ | ⟨rfl, rfl⟩ <;> exact ⟨rfl, rfl, rfl⟩
  obtain ⟨hcls, hmask, hsrc⟩ := hop
  rw [← sourceLane_of_reg hsrc] at hquiet ⊢
  exact exec_result_of_ne_legacy (by simp [hcls]) (ready_of_vexReady hcls hready hfits)
    (sourceOk_of_reg hsrc) (by rwa [hmask, selects_unmasked])

/-- Settles O26: only the legacy form asks for alignment, so a readable operand can be read wherever it is. -/
theorem vexMemoryResult : Obligations.VexMemoryResult := by
  intro s i pre r v reg m a hi hready hfits hok hquiet
  have hop : i.cls = .vex ∧ i.mask = .unmasked ∧
      ∃ r, i.source s.mode = .mem r ∧ a = s.operandAddress i r := by
    rcases hi with ⟨rfl, ha⟩ | ⟨rfl, ha⟩ | ⟨rfl, ha⟩ | ⟨rfl, ha⟩ <;> exact ⟨rfl, rfl, _, rfl, ha⟩
  obtain ⟨hcls, hmask, r, hsrc, rfl⟩ := hop
  have hne : i.cls ≠ .legacy := by simp [hcls]
  rw [← sourceLane_of_mem hsrc] at hquiet ⊢
  exact exec_result_of_ne_legacy hne (ready_of_vexReady hcls hready hfits)
    (sourceOk_of_operandOk hsrc (fun h => absurd h hne) hok) (by rwa [hmask, selects_unmasked])

/-! ### The EVEX forms (R114 to R117) -/

/-- The operands of the three lengths without `{sae}`. -/
theorem operands_of_evex {i : Instr} {pre : List Prefix} {e : EvexExt} {mask : Mask} {reg : BitVec 3}
    {src : EvexSrc} (hi : i = .evex128 pre e mask reg src ∨ i = .evex256 pre e mask reg src ∨
      i = .evex512 pre e mask reg src) (m : Mode) :
    i.cls = .evex ∧ i.mask = mask ∧ i.source m = sourceEvex m e.x e.b i.vl src := by
  rcases hi with rfl | rfl | rfl <;> exact ⟨rfl, rfl, rfl⟩

/-- Settles O27: the source is the register `X ++ B ++ r/m` at every length. -/
theorem evexRegisterResult : Obligations.EvexRegisterResult := by
  intro s i pre e mask reg rm hi hready hVL hfits hquiet
  obtain ⟨hcls, rfl, hsrc⟩ := operands_of_evex hi s.mode
  rw [← sourceLane_of_reg hsrc] at hquiet ⊢
  exact exec_result_of_ne_legacy (by simp [hcls]) (ready_of_evexReady hcls hready hVL hfits)
    (sourceOk_of_reg hsrc) hquiet

/-- Settles O28: legality is asked of the whole operand, reading of the selected lanes alone (R51). -/
theorem evexMemoryResult : Obligations.EvexMemoryResult := by
  intro s i pre e mask reg m a hi ha hready hVL hfits hlegal hsettled hread hquiet
  obtain ⟨hcls, rfl, hsrc⟩ := operands_of_evex hi s.mode
  have hne : i.cls ≠ .legacy := by simp [hcls]
  subst ha
  rw [← bytesOfLen, ← sourceLane_of_mem hsrc] at hquiet ⊢
  exact exec_result_of_ne_legacy hne (ready_of_evexReady hcls hready hVL hfits)
    ((sourceOk_mem_iff hsrc).mpr ⟨fun h => absurd h hne, hlegal, hsettled, hread⟩) hquiet

/-- Settles O29: the four bytes are the whole operand, and every lane reads their doubleword (R71). -/
theorem evexBroadcastResult : Obligations.EvexBroadcastResult := by
  intro s i pre e mask reg m a hi ha hready hVL hfits hok hquiet
  obtain ⟨hcls, rfl, hsrc⟩ := operands_of_evex hi s.mode
  subst ha
  rw [← sourceLane_of_bcst hsrc] at hquiet ⊢
  exact exec_result_of_ne_legacy (by simp [hcls]) (ready_of_evexReady hcls hready hVL hfits)
    (sourceOk_of_bcst hsrc hok) hquiet

/-! ### The step (R110) -/

/-- Settles O48: the fetch answers the decoded instruction, and the step is its execution. -/
theorem stepRunsTheDecodedInstruction : Obligations.StepRunsTheDecodedInstruction :=
  fun _ _ _ => step_of_decode

end Sys2Proof.Machine
end

section
/-!
PROOFS. Exceptions: which state a fault leaves (R105, R132), the conditions of `#UD` and `#NM` (R121, R122),
the open alignment check (R127), SIMD exceptions (R126), a page fault on the code (R125), and the privilege
level (R133).
-/

namespace Sys2Proof.Machine

/-! ### The conditions of `#UD` and `#NM` (R121, R122) -/

/-- An invalid-opcode condition of the state raises `#UD`, where a legacy form is not refused (R4, D1). -/
theorem exec_of_invalidOpcode {i : Instr} {s : State} (hscope : i.cls = .legacy → s.mode.inScope = true)
    (h : s.invalidOpcode i.cls i.vl = true) : exec i s = raise .ud s := by
  have hasked : ¬ (i.cls = .legacy ∧ (!s.mode.inScope) = true) := fun hl => by
    simp [hscope hl.1] at hl
  rw [exec_eq]
  exact (if_neg hasked).trans (if_pos h)

/-- With no invalid-opcode condition, `CR0.TS` raises `#NM`. -/
theorem exec_of_ts {i : Instr} {s : State} (hop : s.invalidOpcode i.cls i.vl = false)
    (hts : s.ts = true) : exec i s = raise .nm s := by
  rw [exec_eq]
  rcases execute_cases (opOf s.mode i) s with ⟨-, hm, -⟩ | ⟨h, -⟩ | ⟨-, -, e⟩ | ⟨-, h, -⟩ | ⟨-, h, -⟩
  · simp [State.invalidOpcode, hm] at hop
  · exact absurd (hop.symm.trans h) Bool.false_ne_true
  · exact e
  · exact absurd (h.symm.trans hts) Bool.false_ne_true
  · exact absurd (h.symm.trans hts) Bool.false_ne_true

/-- No invalid-opcode condition reads `CR0.TS`. -/
theorem invalidOpcode_withoutTS (s : State) (cls : EncClass) (vl : VecLen) :
    s.withoutTS.invalidOpcode cls vl = s.invalidOpcode cls vl := by
  have hem : s.withoutTS.em = s.em := by simp [State.withoutTS, State.em]
  have henabled : s.withoutTS.enabled cls = s.enabled cls := by
    cases cls
    · simp only [State.enabled, hem]; rfl
    · rfl
    · rfl
  simp only [State.invalidOpcode, henabled]
  rfl

/-- Without `CR0.TS` a form may run exactly when it has no invalid-opcode condition. -/
theorem ready_withoutTS (s : State) (i : Instr) :
    s.withoutTS.ready i = !s.invalidOpcode i.cls i.vl := by
  have hts : s.withoutTS.ts = false := by simp [State.withoutTS, State.ts]
  rw [Bool.eq_iff_iff, ready_iff, invalidOpcode_withoutTS, hts]
  simp

/-- Settles O38: `#UD` is asked before `CR0.TS`, and `CR0.TS` before the operand; a `#UD` encoding never
reaches the form. -/
theorem taskSwitchedRaisesNm : Obligations.TaskSwitchedRaisesNm := by
  intro i s hscope hts
  rw [ready_withoutTS]
  refine ⟨fun hop => ?_, fun hop => ?_, invalidEncodingRaisesUd s⟩
  · exact exec_of_ts (by simpa using hop) hts
  · exact exec_of_invalidOpcode (fun _ => hscope) (by simpa using hop)

/-- The conditions of a legacy form (R121 rows 2, 4, 5). -/
theorem invalidOpcode_legacy_iff (s : State) (vl : VecLen) : s.invalidOpcode .legacy vl = true ↔
    s.mode.inScope = false ∨ s.cfg.hasSSE2 = false ∨ s.cr0.getLsbD 2 = true ∨
      s.cr4.getLsbD 9 = false := by
  simp [State.invalidOpcode, present, State.enabled, State.em, State.osfxsr, or_assoc]

/-- The conditions of a VEX form (R121 rows 2, 6, 7, 14; R118). -/
theorem invalidOpcode_vex_iff (s : State) (vl : VecLen) : s.invalidOpcode .vex vl = true ↔
    s.mode.inScope = false ∨ s.cfg.hasAVX = false ∨ lanesOf s.cfg.maxVL < lanesOf vl ∨
      s.cr4.getLsbD 18 = false ∨ s.xcr0.getLsbD 1 = false ∨ s.xcr0.getLsbD 2 = false := by
  simp [State.invalidOpcode, present, fits, State.enabled, State.osxsave, State.avxEnabled, or_assoc]

/-- The conditions of an EVEX form (R121 rows 2, 6 to 8, 14; R118). -/
theorem invalidOpcode_evex_iff (s : State) (vl : VecLen) : s.invalidOpcode .evex vl = true ↔
    s.mode.inScope = false ∨ s.cfg.hasAVX512F = false ∨ (s.cfg.hasAVX512VL = false ∧ vl ≠ .v512) ∨
      lanesOf s.cfg.maxVL < lanesOf vl ∨ s.cr4.getLsbD 18 = false ∨ s.xcr0.getLsbD 1 = false ∨
      s.xcr0.getLsbD 2 = false ∨ s.xcr0.getLsbD 5 = false ∨ s.xcr0.getLsbD 6 = false ∨
      s.xcr0.getLsbD 7 = false := by
  simp [State.invalidOpcode, present, fits, State.enabled, State.osxsave, State.avxEnabled,
    State.avx512Enabled, or_assoc]

/-- Settles O39: each condition named for the class is one of its invalid-opcode conditions. -/
theorem invalidOpcodeConditions : Obligations.InvalidOpcodeConditions := by
  intro i s
  refine ⟨fun hcls hscope h => ?legacy, fun hcls h => ?vex, fun hcls h => ?evex⟩
  case legacy =>
    refine exec_of_invalidOpcode (fun _ => hscope) ?_
    rw [hcls, invalidOpcode_legacy_iff]
    exact .inr h
  case vex =>
    refine exec_of_invalidOpcode (fun hl => by simp [hcls] at hl) ?_
    rw [hcls, invalidOpcode_vex_iff]
    tauto
  case evex =>
    refine exec_of_invalidOpcode (fun hl => by simp [hcls] at hl) ?_
    rw [hcls, invalidOpcode_evex_iff]
    tauto

/-! ### The state of a fault (R105, R132) -/

/-- A SIMD fault clears no bit of MXCSR (R105). -/
theorem flagsAtFault_sticky (i : Instr) {s : State} (src : Nat → Dword) {k : Nat}
    (hk : s.mxcsr.getLsbD k = true) : (s.flagsAtFault i src).getLsbD k = true := by
  unfold State.flagsAtFault State.flagsAfter
  split <;> simp [hk]

theorem simdExc_ne_pf (s : State) (code : BitVec 32) (a : Quad) : s.simdExc ≠ .pf code a := by
  unfold State.simdExc
  split <;> simp

/-- A fault of an instruction other than a page fault: one that leaves the state, and is not `#XM`, or a
SIMD exception with its flags. -/
theorem exec_fault_of_ne_pf {i : Instr} {e : Exc} {s f : State}
    (h : exec i s = .fault (.exception e f)) (hpf : ∀ code a, e ≠ .pf code a) :
    (f = s ∧ e ≠ .xm) ∨ (s.quietFor i (s.sourceLane i) = false ∧ e = s.simdExc ∧
      f = { s with mxcsr := s.flagsAtFault i (s.sourceLane i) }) := by
  rcases exec_fault h with ⟨-, he, hf⟩ | ⟨-, hf, hstop⟩ | ⟨-, hsimd⟩
  · exact .inl ⟨hf, by rcases he with rfl | rfl <;> simp⟩
  · refine .inl ⟨hf.trans (s.recorded_of_ne_pf e hpf), ?_⟩
    rcases sourceLanes_error_exc hstop with rfl | rfl | rfl | ⟨_, _, rfl⟩ <;> simp
  · exact .inr hsimd

/-- A page fault of an instruction writes `CR2` alone. -/
theorem exec_fault_pf {i : Instr} {code : BitVec 32} {a : Quad} {s f : State}
    (h : exec i s = .fault (.exception (.pf code a) f)) : f = { s with cr2 := a } := by
  rcases exec_fault h with ⟨-, he, -⟩ | ⟨-, hf, -⟩ | ⟨-, -, he, -⟩
  · simp at he
  · exact hf
  · exact absurd he.symm (simdExc_ne_pf s code a)

/-- A step that faults ran an instruction that does, or its fetch was stopped by the exception. -/
theorem step_fault {e : Exc} {s f : State} (h : step s = .fault (.exception e f)) :
    (∃ i, exec i s = .fault (.exception e f)) ∨ f = s.recorded e := by
  unfold step at h
  split at h
  · cases h
  split at h
  · exact .inl ⟨_, h⟩
  · rename_i st _
    cases st with
    | exc => cases h; exact .inr rfl
    | refuse => cases h

/-- A fault of a step other than a page fault leaves the state, or an instruction set its flags. -/
theorem step_fault_of_ne_pf {e : Exc} {s f : State} (h : step s = .fault (.exception e f))
    (hpf : ∀ code a, e ≠ .pf code a) :
    f = s ∨ ∃ i, s.quietFor i (s.sourceLane i) = false ∧
      f = { s with mxcsr := s.flagsAtFault i (s.sourceLane i) } := by
  rcases step_fault h with ⟨i, hexec⟩ | hf
  · exact (exec_fault_of_ne_pf hexec hpf).imp And.left fun ⟨hloud, _, hf⟩ => ⟨i, hloud, hf⟩
  · exact .inl (hf.trans (s.recorded_of_ne_pf e hpf))

/-- Settles O37: the faults of an instruction are those of its readiness, its source and its flags; those
of a step are an instruction's or its fetch's. -/
theorem faultsArePrecise : Obligations.FaultsArePrecise := by
  refine ⟨fun i e s f h => ⟨?instrPf, fun hpf => ?instrOther⟩,
    fun e s f h => ⟨?stepPf, fun hpf => ?stepOther⟩⟩
  case instrPf =>
    rintro code a rfl
    exact exec_fault_pf h
  case instrOther => exact (exec_fault_of_ne_pf h hpf).imp id fun ⟨_, he, hf⟩ => ⟨hf, he⟩
  case stepPf =>
    rintro code a rfl
    rcases step_fault h with ⟨i, hexec⟩ | hf
    · exact exec_fault_pf hexec
    · exact hf
  case stepOther =>
    rcases step_fault_of_ne_pf h hpf with hf | ⟨i, hloud, hf⟩
    · exact ⟨s.mxcsr, hf, fun _ _ _ => rfl, fun _ hk => hk⟩
    · exact ⟨_, hf, fun _ h0 h5 => flagsAtFault_getLsbD_of_ne hloud h0 h5,
        fun _ hk => flagsAtFault_sticky i _ hk⟩

/-! ### SIMD exceptions (R126) -/

/-- Settles O46: a readable source gives its lanes, and what they signal decides. -/
theorem simdExceptionOrResult : Obligations.SimdExceptionOrResult := by
  intro i s hready hok
  refine ⟨fun hloud => ?_, fun hquiet => ?_⟩
  · rw [exec_of_not_quiet hready (sourceLanes_of_sourceOk hok) hloud, raise, recorded_simdExc]
    rfl
  · obtain ⟨t, hexec, hres⟩ := exec_result_of_sourceOk hready hok hquiet
    rw [funext (s.upperOf_eq i)] at hres
    exact ⟨t, hexec, hres⟩

/-! ### The open alignment check (R127) -/

/-- `s` with `RFLAGS.AC` cleared, so that alignment checking is not armed. -/
def State.unarmed (s : State) : State := { s with rflags := s.rflags &&& ~~~0x40000#64 }

/-- Unarmed, every operand is settled. -/
theorem alignmentSettled_unarmed (s : State) (a : Quad) (n : Nat) :
    s.unarmed.alignmentSettled a n = true := by
  simp [State.unarmed, State.alignmentSettled, State.alignmentChecked]

/-- On a legal operand of a VEX or EVEX form only the open alignment check can raise. -/
theorem addressExc_of_legal {s : State} {cls : EncClass} (seg : Seg) {a : Quad} {n : Nat}
    (hcls : cls ≠ .legacy) (hlegal : s.operandLegal a n = true) :
    s.addressExc? cls seg a n = some .ac ∨ s.addressExc? cls seg a n = none := by
  simp only [State.addressExc?, hcls, hlegal, false_and, if_false, Bool.not_true, Bool.false_eq_true]
  split
  · exact .inl rfl
  · exact .inr rfl

/-- Where the operand's address raises nothing, it is read as it is unarmed. -/
theorem readOperand_of_unarmed {s : State} {cls : EncClass} {seg : Seg} {a : Quad} {n : Nat}
    {active : List Nat} {place : Nat → Quad} {src : Nat → Dword}
    (haddr : s.addressExc? cls seg a n = none)
    (h : s.unarmed.readOperand cls seg a n active place = .ok src) :
    s.readOperand cls seg a n active place = .ok src := by
  unfold State.readOperand at h ⊢
  rw [haddr]
  split at h
  · cases h
  · exact h

/-- So an operand that can be read unarmed gives its lanes where its address raises nothing. -/
theorem sourceLanes_of_unarmed {i : Instr} {s : State} {r : MemRef} {n : Nat}
    (hmem : i.memory s.mode = some (r, n))
    (haddr : s.addressExc? i.cls (i.seg r) (s.operandAddress i r) n = none)
    (hok : s.unarmed.sourceOk i = true) :
    s.sourceLanes i.cls i.pre i.vl i.mask i.length (i.source s.mode) = .ok (s.sourceLane i) := by
  have hunarmed : s.unarmed.sourceLanes i.cls i.pre i.vl i.mask i.length (i.source s.mode) =
    .ok (s.sourceLane i) := sourceLanes_of_sourceOk hok
  unfold Instr.memory at hmem
  cases hsrc : i.source s.mode with
  | reg => simp [hsrc] at hmem
  | mem r' | bcst r' =>
    simp only [hsrc, Option.some.injEq, Prod.mk.injEq] at hmem hunarmed
    obtain ⟨rfl, rfl⟩ := hmem
    rw [← operandAddress_eq] at haddr
    exact readOperand_of_unarmed haddr hunarmed

/-- A VEX or EVEX form whose legal operand can be read unarmed raises `#AC(0)` or completes. -/
theorem exec_ac_or_result {i : Instr} {s : State} {r : MemRef} {n : Nat} (hready : s.ready i = true)
    (hcls : i.cls ≠ .legacy) (hmem : i.memory s.mode = some (r, n))
    (hlegal : s.operandLegal (s.operandAddress i r) n = true) (hok : s.unarmed.sourceOk i = true)
    (hquiet : s.quietFor i (s.sourceLane i) = true) :
    exec i s = .fault (.exception .ac s) ∨
      ∃ t, exec i s = .next t ∧ Result s t i (s.sourceLane i) (fun _ => 0#32) := by
  rcases addressExc_of_legal (i.seg r) hcls hlegal with hac | hnone
  · exact .inl (exec_of_addressExc hmem hready hac)
  · rw [← upperOf_of_ne_legacy s hcls]
    exact .inr ⟨_, exec_completes hready (sourceLanes_of_unarmed hmem hnone hok) hquiet⟩

/-- Settles O45: unarmed, either operand can be read; the check, armed or not, raises `#AC(0)` or
nothing, so that the proof needs no value of the free one. -/
theorem armedAlignmentCheckFaultsOrCompletes : Obligations.ArmedAlignmentCheckFaultsOrCompletes := by
  intro i s r hready _
  refine ⟨fun hcls hsrc hlegal hread hquiet _ => ?full, fun hsrc hlegal hread hquiet _ => ?broadcast⟩
  case full =>
    rw [← sourceLane_of_mem hsrc] at hquiet ⊢
    have hok : s.unarmed.sourceOk i = true := (sourceOk_mem_iff (s := s.unarmed) hsrc).mpr
      ⟨fun h => absurd h hcls, hlegal, alignmentSettled_unarmed s _ _, hread⟩
    exact exec_ac_or_result hready hcls (by simp [Instr.memory, hsrc, bytesOfLen]) hlegal hok hquiet
  case broadcast =>
    rw [← sourceLane_of_bcst hsrc] at hquiet ⊢
    have hcls : i.cls ≠ .legacy := by simp [cls_of_source_bcst hsrc]
    have hok : s.unarmed.sourceOk i = true := sourceOk_of_bcst hsrc
      (Bool.and_eq_true_iff.mpr
        ⟨Bool.and_eq_true_iff.mpr ⟨hlegal, hread⟩, alignmentSettled_unarmed s _ _⟩)
    exact exec_ac_or_result hready hcls (by simp [Instr.memory, hsrc]) hlegal hok hquiet

/-! ### A page fault on the code (R125) -/

/-- A settled code byte without a translation is a page fault at its address. -/
theorem codeByte_of_pageFault {s : State} {a : Nat} {code : BitVec 32} (hok : s.codeAddressOk a = true)
    (h : translateByte s.xlate .fetch s.cpl a = .error code) :
    s.codeByte a = .error (.exc (.pf code (BitVec.ofNat 64 a))) := by
  simp [State.codeByte, hok, State.accessStop?, State.pageFault?, h]

/-- Where the first code byte cannot be fetched, nothing is decoded, and its stop is the fetch's. -/
theorem fetch_of_first_codeByte {s : State} {st : Stop} (hscope : s.mode.inScope = true)
    (h : s.codeByte s.rip.toNat = .error st) : s.fetch = .stop st := by
  have hwindow : s.codeWindow = ([], st) := by
    simp [State.codeWindow, maxLength, State.fetchFrom, codeAddress_of_inScope hscope, h]
  have hmore : decode s.cfg s.mode [] = .more := decode_of_only_prefixes s.cfg [] hscope
  simp [State.fetch, hwindow, hmore]

/-- Settles O52: the page fault of the byte at `RIP` is the stop of the fetch. -/
theorem fetchPageFault : Obligations.FetchPageFault := by
  intro s code hlaunch hscope hok h
  rw [step_of_fetch_stop hlaunch (fetch_of_first_codeByte hscope (codeByte_of_pageFault hok h)),
    outcome_pageFault]

/-! ### The privilege level (R133) -/

/-- Whether a form may run does not depend on the privilege level. -/
theorem ready_withCpl (s : State) (p : BitVec 2) (i : Instr) :
    ({ s with cpl := p } : State).ready i = s.ready i := rfl

/-- What a form raises does not depend on the privilege level. -/
theorem quietFor_withCpl (s : State) (p : BitVec 2) (i : Instr) (src : Nat → Dword) :
    ({ s with cpl := p } : State).quietFor i src = s.quietFor i src := rfl

/-- What a completed form leaves does not depend on the privilege level, and keeps it. -/
theorem completed_withCpl (s : State) (p : BitVec 2) (op : PackedOp) (src : Nat → Dword) :
    ({ s with cpl := p } : State).completed op src = { s.completed op src with cpl := p } := rfl

/-- Settles O35: a register source is read without a translation, the one thing that asks the level. -/
theorem unprivilegedForms : Obligations.UnprivilegedForms := by
  intro i s t n p hsrc h
  obtain ⟨hready, src, hlanes, hquiet, rfl⟩ := exec_next h
  rw [hsrc] at hlanes
  cases hlanes
  rw [← completed_withCpl]
  exact (exec_completes_of_reg ((ready_withCpl s p i).trans hready) hsrc
    ((quietFor_withCpl s p i _).trans hquiet)).1

end Sys2Proof.Machine
end

section
/-!
PROOFS. The round trips between bytes and instructions (R60 to R84): the decoder reads back what the encoder
writes, and the encoder writes what the decoder has read.
-/

namespace Sys2Proof

/-- Settles O1, by the round trip of each row. -/
theorem decodeOfEncodeIsTheInstruction : Obligations.DecodeOfEncodeIsTheInstruction :=
  fun _ _ _ rest h => decode_encode rest h

/-- Settles O7: the decoder runs on each word. -/
theorem sampleWordsDecode : Obligations.SampleWordsDecode := by
  refine ⟨?_, ?_, ?_, ?_, ?_, ?_, ?_⟩ <;> decide

/-! ### Legacy forms -/

/-- The REX byte of a form, if it has one. -/
def rexBytes (rex : Option Rex) : List Byte := rex.toList.map Rex.byte

/-- A legacy form, encoded: its prefixes, its REX byte if any, and the bytes read after them. -/
theorem encode_of_decodeLegacy {m : Mode} {pre : List Prefix} {rex : Option Rex} {bs rest : List Byte}
    {i : Instr} (h : decodeLegacy m pre rex bs = .instr i rest) :
    encodePre pre ++ (rexBytes rex ++ 0x0F#8 :: bs) = encode i ++ rest := by
  obtain ⟨reg, src, operand, rfl, hmodrm, rfl⟩ := decodeLegacy_reads h
  obtain ⟨-, rfl⟩ := takeModRM_eq hmodrm
  cases rex <;> simp [rexBytes, encode]

/-! ### VEX forms -/

/-- An accepted VEX form has `pp = 10b` and `vvvv = 1111b` in its last payload byte (R66). -/
theorem payload_of_decodeVexTail {m : Mode} {pre : List Prefix} {rexBefore : Bool} {p : Byte}
    {row128 row256 : BitVec 3 → RM → Instr} {bs rest : List Byte} {i : Instr}
    (h : decodeVexTail m pre rexBefore p row128 row256 bs = .instr i rest) :
    p.extractLsb' 0 2 = 2#2 ∧ p.extractLsb' 3 4 = 15#4 := by
  unfold decodeVexTail at h
  split at h
  · cases h
  split at h
  · cases h
  rename_i hid
  split at h
  · cases h
  split at h
  · cases h
  split at h
  · rename_i hverdict
    exact absurd (h ▸ hverdict) (vexPrefixVerdict_ne_instr _ _ _ _)
  split at h
  · cases h
  rename_i hvvvv
  exact ⟨not_not.mp (not_or.mp hid).2, not_not.mp hvvvv⟩

/-- The row that `L` selects after `C5`, encoded. -/
theorem encode_vex2Row (l : Bool) (pre : List Prefix) (r : Bool) (reg : BitVec 3) (src : RM) :
    encode (if l then .vex256C5 pre r reg src else .vex128C5 pre r reg src) =
      encodePre pre ++ (encodeVex2 r l ++ encodeRM reg src) := by
  cases l <;> rfl

/-- The row that `L` selects after `C4`, encoded. -/
theorem encode_vex3Row (l : Bool) (pre : List Prefix) (v : Vex3) (reg : BitVec 3) (src : RM) :
    encode (if l then .vex256C4 pre v reg src else .vex128C4 pre v reg src) =
      encodePre pre ++ (encodeVex3 v l ++ encodeRM reg src) := by
  cases l <;> rfl

/-- A two-byte VEX form, encoded: its prefixes, `C5` and the bytes read after it. -/
theorem encode_of_decodeVex2 {m : Mode} {pre : List Prefix} {rexBefore : Bool} {bs rest : List Byte}
    {i : Instr} (h : decodeVex2 m pre rexBefore bs = .instr i rest) :
    encodePre pre ++ 0xC5#8 :: bs = encode i ++ rest := by
  unfold decodeVex2 at h
  split at h
  · cases h
  split at h
  · cases h
  obtain ⟨hpp, hvvvv⟩ := payload_of_decodeVexTail h
  obtain ⟨-, reg, src, operand, rfl, hmodrm, rfl⟩ := decodeVexTail_reads h
  obtain ⟨-, rfl⟩ := takeModRM_eq hmodrm
  rw [encode_vex2Row, encodeVex2, vex2_eq _ hpp hvvvv]
  simp

/-- A three-byte VEX form, encoded: its prefixes, `C4` and the bytes read after it. -/
theorem encode_of_decodeVex3 {m : Mode} {pre : List Prefix} {rexBefore : Bool} {bs rest : List Byte}
    {i : Instr} (h : decodeVex3 m pre rexBefore bs = .instr i rest) :
    encodePre pre ++ 0xC4#8 :: bs = encode i ++ rest := by
  unfold decodeVex3 at h
  split at h
  · cases h
  split at h
  · cases h
  split at h
  · cases h
  split at h
  · cases h
  split at h
  · cases h
  split at h
  · cases h
  rename_i hmap
  obtain ⟨hpp, hvvvv⟩ := payload_of_decodeVexTail h
  obtain ⟨-, reg, src, operand, rfl, hmodrm, rfl⟩ := decodeVexTail_reads h
  obtain ⟨-, rfl⟩ := takeModRM_eq hmodrm
  rw [encode_vex3Row, encodeVex3, vex3_eq _ (not_not.mp hmap), vex3W_eq _ hpp hvvvv]
  simp

/-! ### EVEX forms -/

/-- No `#UD` condition of the payload: `vvvv = 1111b` (R121 row 1). -/
theorem vvvv_of_evexPayloadUd {p0 p1 p2 : Byte} (h : evexPayloadUd p0 p1 p2 = none) :
    p1.extractLsb' 3 4 = 15#4 := by
  by_contra hvvvv
  simp only [evexPayloadUd, if_pos hvvvv] at h
  split at h <;> cases h

/-- The row that `L'L` selects, encoded (R70). -/
theorem encode_of_evexRow_sized {pre : List Prefix} {e : EvexExt} {mask : Mask} {ll : BitVec 2}
    {reg : BitVec 3} {esrc : EvexSrc} {after rest : List Byte} {i : Instr}
    (h : evexRow.sized pre e mask ll reg after esrc = .instr i rest) :
    encodePre pre ++ (encodeEvex e mask ll esrc.isBcst ++ encodeEvexSrc reg esrc) ++ after =
      encode i ++ rest := by
  unfold evexRow.sized at h
  repeat' split at h
  all_goals cases h
  all_goals simp only [encode, *]

/-- The row chosen by `L'L` and `b`, encoded: every field it was given is written (R70 to R72). -/
theorem encode_of_evexRow {c : Config} {pre : List Prefix} {e : EvexExt} {mask : Mask} {ll : BitVec 2}
    {b : Bool} {reg : BitVec 3} {src : RM} {after rest : List Byte} {i : Instr}
    (h : evexRow c pre e mask ll b reg src after = .instr i rest) :
    encodePre pre ++ (encodeEvex e mask ll b ++ encodeRM reg src) ++ after = encode i ++ rest := by
  unfold evexRow at h
  split at h
  · split at h
    · cases h
      rw [encode]
    · cases h
  · exact encode_of_evexRow_sized (esrc := .reg _) h
  · exact encode_of_evexRow_sized (esrc := .bcst _) h
  · exact encode_of_evexRow_sized (esrc := .mem _) h

/-- The payload of an accepted EVEX form has the fields that the encoder writes (R68, R69, R73). -/
theorem encode_of_decodeEvexPayload {c : Config} {m : Mode} {pre : List Prefix} {rexBefore : Bool}
    {bs rest : List Byte} {i : Instr} (h : decodeEvexPayload c m pre rexBefore bs = .instr i rest) :
    encodePre pre ++ 0x62#8 :: bs = encode i ++ rest := by
  unfold decodeEvexPayload at h
  split at h
  · rename_i p0 p1 p2 op operand
    split at h
    · cases h
    split at h
    · cases h
    split at h
    · cases h
    rename_i hid
    simp only [not_or, not_not, Bool.not_eq_true] at hid
    obtain ⟨hmap, hpp, hw, rfl⟩ := hid
    split at h
    · cases h
    split at h
    · cases h
    rename_i reg src after hmodrm
    split at h
    · rename_i hverdict
      exact absurd (h ▸ hverdict) (vexPrefixVerdict_ne_instr _ _ _ _)
    split at h
    · cases h
    rename_i hud
    obtain ⟨hzero, hone, hv', hz⟩ := fields_of_evexPayloadUd hud
    obtain ⟨-, hmaskz, hmaskaaa⟩ := Mask.ofBits_eq _ _ (aaa_ne_zero_of_evexPayloadUd hud)
    obtain ⟨-, rfl⟩ := takeModRM_eq hmodrm
    rw [← encode_of_evexRow h, encodeEvex, evexP0_eq p0 hmap hzero, hmaskz, hmaskaaa, evexP2_eq p2 hv',
      evexP1_eq p1 hpp hw hone (vvvv_of_evexPayloadUd hud)]
    simp
  · cases h

/-- An EVEX form, encoded: its prefixes, `62` and the bytes read after it. -/
theorem encode_of_decodeEvex {c : Config} {m : Mode} {pre : List Prefix} {rexBefore : Bool}
    {bs rest : List Byte} {i : Instr} (h : decodeEvex c m pre rexBefore bs = .instr i rest) :
    encodePre pre ++ 0x62#8 :: bs = encode i ++ rest := by
  unfold decodeEvex at h
  split at h
  · cases h
  split at h
  · cases h
  exact encode_of_decodeEvexPayload h

/-! ### Every form -/

/-- A REX byte stands only before the bytes of a legacy form. -/
theorem encode_of_decodeOpcode {c : Config} {m : Mode} {pre : List Prefix} {rex : Option Rex}
    {bs rest : List Byte} {i : Instr} (h : decodeOpcode c m pre rex bs = .instr i rest) :
    encodePre pre ++ (rexBytes rex ++ bs) = encode i ++ rest := by
  have noRex (hrex : rex.isSome = false) : rexBytes rex = [] := by
    obtain rfl : rex = none := by simpa using hrex
    rfl
  unfold decodeOpcode at h
  split at h
  · cases h
  split at h
  · rename_i hop
    subst hop
    exact encode_of_decodeLegacy h
  split at h
  · rename_i hop
    subst hop
    rw [noRex (decodeVex2_reads h).1]
    exact encode_of_decodeVex2 h
  split at h
  · rename_i hop
    subst hop
    rw [noRex (decodeVex3_reads h).1]
    exact encode_of_decodeVex3 h
  split at h
  · rename_i hop
    subst hop
    rw [noRex (decodeEvex_reads h).1]
    exact encode_of_decodeEvex h
  split at h
  · cases h
  · cases h

/-- The encoding of what the decoder reads, followed by what it leaves, is the bytes it was given. -/
theorem encode_of_decode {c : Config} {m : Mode} {bs rest : List Byte} {i : Instr}
    (h : decode c m bs = .instr i rest) : bs = encode i ++ rest := by
  unfold decode decodeAfterPrefixes at h
  split at h
  · rw [← scanPrefixes_split bs]
    split at h
    · cases h
    rename_i b after heq
    rw [heq]
    split at h
    · rename_i hrex
      rw [← encode_of_decodeOpcode h, rexBytes, Option.toList_some, List.map_singleton,
        Rex.byte_eq b hrex.2]
      rfl
    · exact encode_of_decodeOpcode h
  · exact absurd h (decodeOutOfScope_ne_instr _ _ _)

/-- Settles O2: an accepted instruction is well formed, and each class of form encodes to the prefixes, the
payload and the operand that its decoder has read. -/
theorem encodeOfDecodeIsTheBytes : Obligations.EncodeOfDecodeIsTheBytes :=
  fun _ _ _ _ _ h => ⟨decode_wf h, encode_of_decode h⟩

end Sys2Proof
end
